-- ==== Sys2Proof/Word.lean ====
section
/-! DEFINITION. The word types of the host port and of the command port, and the type of an array of numbers. -/

namespace Sys2Proof

/-- A host word address: 16 bits (00_scope R9, 20_memory R51). -/
abbrev Addr := BitVec 16

/-- A word of the host data port: 64 bits (00_scope R9, 20_memory R56). -/
abbrev Data := BitVec 64

/-- A bus transaction `{WE, A, D}`: 81 bits (30_encoding R71). -/
abbrev BusWord := BitVec 81

/-- A command word: 64 bits (30_encoding R74). -/
abbrev CmdWord := BitVec 64

/-- The contents of one storage array of the block, word 0 first. Every value of the spec is an unsigned integer and
its pseudocode computes on natural numbers (00_scope R11), so a limb and a lane are natural numbers; that each fits its
width is the invariant `Machine.Memory.wf`. -/
abbrev Words := List Nat

end Sys2Proof
end

