-- ==== Sys2Proof/Syntax.lean ====
section
/-! DEFINITION. The instructions (one constructor per row of opcode_table.json), the two kinds of encoded object, the items
of a host program and the notation a host program is written in. -/

namespace Sys2Proof

/-- The instructions: the two bus transactions of the HOST and the eleven commands of the ENGINE (30_encoding R70). -/
inductive Instr where
  /-- `RD A` (40_host_access R100). -/
  | rd (a : Addr)
  /-- `WR A, D` (40_host_access R101). -/
  | wr (a : Addr) (d : Data)
  /-- `NOP` (42_redc_microops R150). -/
  | nop
  /-- `CLEAR` (42_redc_microops R152). -/
  | clear
  /-- `MACY t` (42_redc_microops R154). -/
  | macy (t : Nat)
  /-- `CPY t` (41_carry_propagation R133). -/
  | cpy (t : Nat)
  /-- `QGEN` (42_redc_microops R156). -/
  | qgen
  /-- `MACQ t` (42_redc_microops R160). -/
  | macq (t : Nat)
  /-- `CPQ t` (41_carry_propagation R135). -/
  | cpq (t : Nat)
  /-- `SHIFT` (42_redc_microops R162). -/
  | shift
  /-- `STEP` (43_sequences R180). -/
  | step
  /-- `FINAL` (43_sequences R184). -/
  | final
  /-- `RUN` (43_sequences R186). -/
  | run
deriving DecidableEq, Repr

/-- The two kinds of object the block decodes (30_encoding R70). -/
inductive Code where
  /-- A bus transaction `{WE, A, D}` (30_encoding R71). -/
  | bus (t : BusWord)
  /-- A command word, the data of a write to CMD (30_encoding R74). -/
  | command (w : CmdWord)
deriving DecidableEq, Repr

/-- What a 16-bit word address names (30_encoding R72, R73). -/
inductive PortTarget where
  | id | param | ctrl | minv | cmd | status | iter | q | cy | cq | zhi
  | xbuf (k : Nat) | ybuf (k : Nat) | mbuf (k : Nat) | zbuf (k : Nat) | acc (g : Nat)
  | unmapped
deriving DecidableEq, Repr

/-- One item the HOST still has to perform: a bus transaction, or a WAIT, whose number of reads of STATUS is not known in
advance (40_host_access R117). A transaction of a line `RD A -> name` carries the name (R115). -/
inductive HostItem where
  | txn (name : Option String) (t : BusWord)
  | wait
deriving DecidableEq, Repr

/-- The operand buffer a LOAD line fills (40_host_access R116). -/
inductive OperandBuf where
  | x | y | m
deriving DecidableEq, Repr

/-- One line of a host program (40_host_access R115, R116). -/
inductive HostLine where
  /-- `RD A` or `RD A -> name`. -/
  | rd (a : Addr) (name : Option String)
  /-- `WR A, D`. -/
  | wr (a : Addr) (d : Data)
  /-- `CMD mnemonic` or `CMD mnemonic, t`. -/
  | cmd (i : Instr)
  /-- `WAIT`. -/
  | wait
  /-- `LOAD X, [a0, …]`, and the same for Y and M. -/
  | load (b : OperandBuf) (limbs : List Data)
  /-- `READZ n -> [z0, …]`, one name for each of the n words. -/
  | readZ (names : List String)
  /-- `CONFIG n, tiled`. -/
  | config (n : BitVec 16) (tiled : Bool)
  /-- `MONTMUL`. -/
  | montmul
  /-- `; comment`. -/
  | comment (text : String)
deriving DecidableEq, Repr

end Sys2Proof
end

