-- ==== Sys2Proof/WellFormed.lean ====
section
/-! DEFINITION. The checks an instruction and a host line must pass to have an encoding. -/

namespace Sys2Proof

/-- The field check: a tile index is one of 0 … 4095, the values of w[19:8] (30_encoding R76). The other operands are
bit vectors of their fields' widths, so they always fit. -/
def Instr.wellFormed : Instr → Bool
  | .rd _ => true
  | .wr _ _ => true
  | .nop => true
  | .clear => true
  | .macy t => decide (t < 4096)
  | .cpy t => decide (t < 4096)
  | .qgen => true
  | .macq t => decide (t < 4096)
  | .cpq t => decide (t < 4096)
  | .shift => true
  | .step => true
  | .final => true
  | .run => true

/-- Whether an instruction is a command of the ENGINE (encoded as a command word) rather than a bus transaction of the HOST
(30_encoding R70). -/
def Instr.isCommand : Instr → Bool
  | .rd _ => false
  | .wr _ _ => false
  | .nop => true
  | .clear => true
  | .macy _ => true
  | .cpy _ => true
  | .qgen => true
  | .macq _ => true
  | .cpq _ => true
  | .shift => true
  | .step => true
  | .final => true
  | .run => true

/-- A host line is well formed when its CMD names a well-formed command (40_host_access R116; log entry 15) and its LOAD or READZ has at
most 0x1000 words, those of one array region. R116 bounds no list: the bound is the model's, DESIGN CHOICE (log entry 20), and
`HostLine.expand` does not apply it. -/
def HostLine.wellFormed : HostLine → Bool
  | .rd _ _ => true
  | .wr _ _ => true
  | .cmd i => i.isCommand && i.wellFormed
  | .wait => true
  | .load _ limbs => decide (limbs.length ≤ 4096)
  | .readZ names => decide (names.length ≤ 4096)
  | .config _ _ => true
  | .montmul => true
  | .comment _ => true

end Sys2Proof
end

