-- ==== Sys2Proof/Decode.lean ====
section
/-! DEFINITION. The decoders of bus transactions and of command words (30_encoding R71, R75, R80), and after them the encoders:
of an instruction, and of a host program as a list of bus transactions (40_host_access R116, R117). -/

namespace Sys2Proof

/-- Why a word is no instruction: the three clauses of 30_encoding R79, in the order R80 tests them, and a bus tuple with a bit
above bit 80 (which only a caller that passes a wider number can give). -/
inductive DecodeError where
  /-- w[63:20] is not 0. -/
  | reservedBits
  /-- w[19:8] is not 0 on a command that takes no tile. -/
  | tileNotZero
  /-- w[7:0] is 0x0B … 0xFF. -/
  | reservedOpcode
  /-- a number of more than 81 bits offered as a bus tuple. -/
  | busTooWide
deriving DecidableEq, Repr

/-- OP = w[7:0] (30_encoding R75). -/
def opField (w : CmdWord) : Nat := (w.extractLsb' 0 8).toNat

/-- TILE = w[19:8], zero-extended (30_encoding R75, R76). -/
def tileField (w : CmdWord) : Nat := (w.extractLsb' 8 12).toNat

/-- RES = w[63:20] (30_encoding R75). -/
def resField (w : CmdWord) : Nat := (w.extractLsb' 20 44).toNat

/-- A command that takes no tile: TILE must be 0 (30_encoding R79). -/
def untiled (w : CmdWord) (i : Instr) : Except DecodeError Instr :=
  if tileField w = 0 then .ok i else .error .tileNotZero

/-- The opcode map of 30_encoding R77, on a word whose RES is 0. -/
def decodeOp (w : CmdWord) : Except DecodeError Instr :=
  match opField w with
  | 0x00 => untiled w .nop
  | 0x01 => untiled w .clear
  | 0x02 => .ok (.macy (tileField w))
  | 0x03 => .ok (.cpy (tileField w))
  | 0x04 => untiled w .qgen
  | 0x05 => .ok (.macq (tileField w))
  | 0x06 => .ok (.cpq (tileField w))
  | 0x07 => untiled w .shift
  | 0x08 => untiled w .step
  | 0x09 => untiled w .final
  | 0x0A => untiled w .run
  | _ => .error .reservedOpcode

/-- The decoder of command words, total on any 64-bit word (30_encoding R80). -/
def decodeCommand (w : CmdWord) : Except DecodeError Instr :=
  if resField w ≠ 0 then .error .reservedBits else decodeOp w

/-- WE = T[80] (30_encoding R71). -/
def weField (t : BusWord) : Bool := t.getLsbD 80

/-- A = T[79:64] (30_encoding R71). -/
def addrField (t : BusWord) : Addr := t.extractLsb' 64 16

/-- D = T[63:0] (30_encoding R71). -/
def dataField (t : BusWord) : Data := t.extractLsb' 0 64

/-- The decoder of bus transactions: every tuple is accepted, and the D of a read is not used (30_encoding R71, R82). -/
def decodeBus (t : BusWord) : Instr :=
  if weField t then .wr (addrField t) (dataField t) else .rd (addrField t)

/-- The decoder of both kinds of object (30_encoding R70). -/
def decode : Code → Except DecodeError Instr
  | .bus t => .ok (decodeBus t)
  | .command w => decodeCommand w

/-- The object that `nbits` bits of value `w` stand for: 64 bits and fewer are a command word, more are a bus tuple. -/
def codeOfTableWord (nbits w : Nat) : Except DecodeError Code :=
  if nbits ≤ 64 then .ok (.command (BitVec.ofNat 64 w))
  else if w < 2 ^ 81 then .ok (.bus (BitVec.ofNat 81 w))
  else .error .busTooWide

/-- The instruction the decoder reads from a row's bits, numbered as opcode_table.json numbers them (log entry 14). -/
def decodeTableWord (nbits w : Nat) : Option Instr :=
  match codeOfTableWord nbits w with
  | .error _ => none
  | .ok c =>
    match decode c with
    | .error _ => none
    | .ok i => some i

/-! ## Encoders -/

/-- The bus tuple `{WE, A, D}` (30_encoding R71). -/
def busWord (we : Bool) (a : Addr) (d : Data) : BusWord := BitVec.ofBool we ++ a ++ d

/-- `PortRead(A)`: D is written as 0 (30_encoding R71). -/
def busRead (a : Addr) : BusWord := busWord false a 0

/-- `PortWrite(A, D)` (30_encoding R71). -/
def busWrite (a : Addr) (d : Data) : BusWord := busWord true a d

/-- The command word with fields OP and TILE, RES being 0 (30_encoding R75). -/
def commandWord (op : BitVec 8) (tile : Nat) : CmdWord := (0#44 ++ BitVec.ofNat 12 tile) ++ op

/-- The encoding of an instruction (30_encoding R71, R75, R77). -/
def encode : Instr → Code
  | .rd a => .bus (busRead a)
  | .wr a d => .bus (busWrite a d)
  | .nop => .command (commandWord 0x00 0)
  | .clear => .command (commandWord 0x01 0)
  | .macy t => .command (commandWord 0x02 t)
  | .cpy t => .command (commandWord 0x03 t)
  | .qgen => .command (commandWord 0x04 0)
  | .macq t => .command (commandWord 0x05 t)
  | .cpq t => .command (commandWord 0x06 t)
  | .shift => .command (commandWord 0x07 0)
  | .step => .command (commandWord 0x08 0)
  | .final => .command (commandWord 0x09 0)
  | .run => .command (commandWord 0x0A 0)

/-- The number of bits of an encoded object (30_encoding R71, R74). -/
def Code.bits : Code → Nat
  | .bus _ => 81
  | .command _ => 64

/-- An encoded object as a number, bit 0 its least significant bit (00_scope R11). -/
def Code.toNat : Code → Nat
  | .bus t => BitVec.toNat t
  | .command w => BitVec.toNat w

/-! ## Host programs -/

/-- The address of the command port CMD (30_encoding R73). -/
def addrCmd : Addr := 0x0004

/-- The address of STATUS (30_encoding R73). -/
def addrStatus : Addr := 0x0005

/-- The address of CTRL (30_encoding R73). -/
def addrCtrl : Addr := 0x0002

/-- The base address of the result buffer ZBUF (30_encoding R73). -/
def addrZbuf : Addr := 0x4000

/-- The base address of an operand buffer (40_host_access R116). -/
def OperandBuf.base : OperandBuf → Addr
  | .x => 0x1000
  | .y => 0x2000
  | .m => 0x3000

/-- An unnamed write item. -/
def writeItem (a : Addr) (d : Data) : HostItem := .txn none (busWrite a d)

/-- The items of `CMD i`: one write of the command's word to CMD (40_host_access R116). A bus transaction is no command; it
stands for itself. -/
def commandItems (i : Instr) : List HostItem :=
  match encode i with
  | .command w => [writeItem addrCmd w]
  | .bus t => [.txn none t]

/-- The expansion of one line into the items the HOST performs (40_host_access R116), whatever the length of a LOAD's or READZ's list:
its addresses are sums of 16 bits (DESIGN CHOICE for a list that runs past 0xFFFF, log entry 20). -/
def HostLine.expand : HostLine → List HostItem
  | .rd a name => [.txn name (busRead a)]
  | .wr a d => [writeItem a d]
  | .cmd i => commandItems i
  | .wait => [.wait]
  | .load b limbs => limbs.mapIdx fun k d => writeItem (b.base + BitVec.ofNat 16 k) d
  | .readZ names => names.mapIdx fun k x => .txn (some x) (busRead (addrZbuf + BitVec.ofNat 16 k))
  | .config n tiled => [writeItem addrCtrl ((BitVec.ofBool tiled ++ n).setWidth 64)]
  | .montmul => commandItems .run ++ [.wait]
  | .comment _ => []

/-- The items of a host program, in order (40_host_access R115, R117). -/
def expandProgram (prog : List HostLine) : List HostItem := prog.flatMap HostLine.expand

end Sys2Proof
end

