-- ==== Sys2Proof/Config.lean ====
section
/-! DEFINITION. What the build of the block fixes (the OPEN parameters W, WAY, S_MAX) and the free values: what the spec
leaves open and no definition may choose. -/

namespace Sys2Proof

/-- The build parameters (00_scope R6, R8; 93_implementation_defined I9). They are the contents of the read-only register
PARAM (10_state R23), so a machine carries them in its state; every definition reads them from there. -/
structure Params where
  /-- `W`, the limb width in bits. -/
  w : Nat
  /-- `WAY`, the number of lanes of a tile. -/
  way : Nat
  /-- `S_MAX`, the number of tiles of the accumulator. -/
  sMax : Nat
deriving DecidableEq, Repr

/-- `N_MAX = WAY * S_MAX`, the number of lanes of ACC and of words of each buffer (00_scope R8). -/
def Params.nMax (p : Params) : Nat := p.way * p.sMax

/-- `LANE = 2 * W`, the width of an accumulator lane (00_scope R7). -/
def Params.lane (p : Params) : Nat := 2 * p.w

/-- The ranges of the OPEN parameters (00_scope R6, R8). -/
abbrev Params.Valid (p : Params) : Prop :=
  1 ≤ p.w ∧ p.w ≤ 32 ∧ 1 ≤ p.way ∧ 1 ≤ p.sMax ∧ p.nMax ≤ 4096

namespace Config

/-- Free: decides `W` of the build (log entry 1). -/
opaque rawW : Nat

/-- Free: decides `WAY` of the build (log entry 1). -/
opaque rawWay : Nat

/-- Free: decides `S_MAX` of the build (log entry 1). -/
opaque rawSMax : Nat

/-- The build's parameters: free values within the ranges of 00_scope R6 and R8. Every triple in range is reached by some
raw values, and no other triple is (log entry 1, DESIGN CHOICE). -/
def params : Params :=
  { w := 1 + rawW % 32
    way := 1 + rawWay % 4096
    sMax := 1 + rawSMax % (4096 / (1 + rawWay % 4096)) }

/-- Free: what the array word at a host address holds after reset, before it is cut to the word's width (10_state R41,
93_implementation_defined I1: a draw under no law; log entry 2). -/
opaque resetDraw : Nat → Nat

/-- Free: how many reads of STATUS the ENGINE lets pass before it executes a command, for the given draw of the schedule.
It is a natural number, so the ENGINE's step is weakly fair (60_exceptions R229, 93_implementation_defined I2; log entry 3). -/
opaque engineDelay : Nat → Nat

end Config

end Sys2Proof
end

