-- ==== Sys2Proof/Machine/State.lean ====
section
/-! DEFINITION. The state of the block and of its two agents, the reasons a step can stop, and the state after reset. -/

namespace Sys2Proof.Machine

/-- The codes of STATUS.ERR that are ever produced (60_exceptions R213; 6 … 15 are reserved and never produced). -/
inductive ErrorCode where
  /-- 0 NONE: no failure since the last reset, CLEAR or successful RUN. -/
  | none
  /-- 1 ILLEGAL: the command word is not legal (30_encoding R79). -/
  | illegal
  /-- 2 N_ZERO: CTRL.N = 0 (60_exceptions R214). -/
  | nZero
  /-- 3 CAPACITY: N exceeds the lanes of the chosen path (60_exceptions R214). -/
  | capacity
  /-- 4 TILE_RANGE: tile index t ≥ S (60_exceptions R215). -/
  | tileRange
  /-- 5 ITER_RANGE: ITER ≥ N (60_exceptions R216). -/
  | iterRange
deriving DecidableEq, Repr

/-- The reasons the machine stops with a fault: none. "The block has no `fault` and no `stuck` state"
(93_implementation_defined): every failure is a next state with a code in STATUS.ERR (60_exceptions R212). -/
inductive Fault where
deriving DecidableEq, Repr

/-- The reasons a step is refused. -/
inductive Refusal where
  /-- Raised by `exec`'s arm of an instruction that has no meaning yet. Safe: the machine stops where the hardware goes on.
  No arm raises it: every instruction of the table has its meaning. -/
  | notModelled (mnemonic : String)
deriving DecidableEq, Repr

/-- The machine: the architectural state of the block (10_state R20), and below it the state of the two agents that drive
it (00_scope R14). Plain data. -/
structure State where
  /-- PARAM: the build parameters W, WAY, S_MAX (10_state R23). -/
  params : Params
  /-- CTRL.N, the limb count (10_state R25). -/
  n : BitVec 16
  /-- CTRL.TILED, the path (10_state R25). -/
  tiled : Bool
  /-- MINV[W−1:0], the Montgomery constant (10_state R24). -/
  minv : Nat
  /-- STATUS.DONE (10_state R28). -/
  done : Bool
  /-- STATUS.OVF (10_state R29). -/
  ovf : Bool
  /-- STATUS.ZOVF (10_state R30). -/
  zovf : Bool
  /-- STATUS.ERR (10_state R31). -/
  err : ErrorCode
  /-- ITER, the digit-iteration counter (10_state R32). -/
  iter : BitVec 16
  /-- Q, the quotient digit (10_state R33). -/
  q : Nat
  /-- CY, the carry of the propagation after MACY (10_state R34). -/
  cy : Nat
  /-- CQ, the carry of the propagation after MACQ (10_state R34). -/
  cq : Nat
  /-- ZHI, the part of the final value above N limbs (10_state R30). -/
  zhi : BitVec 64
  /-- ACC, the accumulator, lane 0 first (10_state R37). -/
  acc : Words
  /-- XBUF, the operand X, most significant limb first (10_state R38). -/
  xbuf : Words
  /-- YBUF, the operand Y (10_state R38). -/
  ybuf : Words
  /-- MBUF, the modulus M (10_state R38). -/
  mbuf : Words
  /-- ZBUF, the result Z (10_state R39). -/
  zbuf : Words
  /-- PEND, the latched command word (10_state R35). -/
  pend : Option CmdWord
  /-- The model's own: what the HOST still has to perform, in program order (60_exceptions R211; log entry 4). -/
  host : List HostItem
  /-- The model's own: the words the HOST's reads have returned, oldest first (40_host_access R100; log entry 5). -/
  reads : List Data
  /-- The model's own: the names RD lines have bound, oldest first (40_host_access R115; log entry 5). -/
  binds : List (String × Data)
  /-- The model's own: how many reads of STATUS the ENGINE still lets pass before it executes PEND (60_exceptions R229;
  log entry 3). -/
  stall : Nat
  /-- The model's own: draws of the schedule fixed in advance, one for each command to come (log entry 3). -/
  sched : List Nat
  /-- The model's own: how many draws of the schedule were taken from `Config.engineDelay` (log entry 3). -/
  draws : Nat
deriving DecidableEq, Repr

/-- What an array of `count` words of `width` bits holds after reset, its word 0 being at host address `base`: the draw of each
word, cut to the width (10_state R41). -/
def resetWords (draw : Nat → Nat) (base count width : Nat) : Words :=
  (List.range count).map fun k => draw (base + k) % 2 ^ width

/-- The block of build `p` right after reset, with `draw` giving the UNSPECIFIED contents of the arrays (10_state R40, R41), a HOST
that has nothing to perform and no draw of the schedule made. -/
def State.resetWith (p : Params) (draw : Nat → Nat) : State :=
  { params := p
    n := 0
    tiled := false
    minv := 0
    done := false
    ovf := false
    zovf := false
    err := .none
    iter := 0
    q := 0
    cy := 0
    cq := 0
    zhi := 0
    acc := resetWords draw 0x5000 p.nMax p.lane
    xbuf := resetWords draw 0x1000 p.nMax p.w
    ybuf := resetWords draw 0x2000 p.nMax p.w
    mbuf := resetWords draw 0x3000 p.nMax p.w
    zbuf := resetWords draw 0x4000 p.nMax p.w
    pend := none
    host := []
    reads := []
    binds := []
    stall := 0
    sched := []
    draws := 0 }

/-- The machine right after reset (10_state R40, 70_reset_and_hazards R230): the OPEN parameters and the UNSPECIFIED words are the
free values of `Config` (log entries 1 and 2). -/
def State.reset : State := State.resetWith Config.params Config.resetDraw

end Sys2Proof.Machine
end

