-- ==== Sys2Proof/Machine/Operands.lean ====
section
/-! DEFINITION. The quantities of 00_scope R10, recomputed from the current state by every command, the words of the arrays as
commands reach them, and the decoding of a host address (30_encoding R72). -/

namespace Sys2Proof.Machine

/-- `N` = CTRL.N, the limb count (00_scope R10). -/
def State.limbs (s : State) : Nat := s.n.toNat

/-- `r` = 2^W, the limb base (00_scope R10). -/
def State.radix (s : State) : Nat := 2 ^ s.params.w

/-- `S`, the tile count (00_scope R10): ceil(N / WAY) when TILED = 1, else 1. -/
def State.tiles (s : State) : Nat :=
  if s.tiled then (s.limbs + s.params.way - 1) / s.params.way else 1

/-- `L`, the active accumulator length in lanes (00_scope R10). -/
def State.active (s : State) : Nat :=
  if s.tiled then s.tiles * s.params.way else s.limbs

/-- `tileLo(t)` (00_scope R10). -/
def State.tileLo (s : State) (t : Nat) : Nat := t * s.params.way

/-- `tileHi(t) + 1`: the first lane above tile t (00_scope R10). -/
def State.tileEnd (s : State) (t : Nat) : Nat := min (t * s.params.way + s.params.way) s.active

/-- Lane `g` is one of the lanes of tile `t`: tileLo(t) ≤ g ≤ tileHi(t) (00_scope R10). -/
abbrev State.inTile (s : State) (t g : Nat) : Prop := s.tileLo t ≤ g ∧ g < s.tileEnd t

/-- Word `k` of an array; an index past the array reads 0 (no command and no transaction reaches one, log entry 8). -/
def wordAt (ws : Words) (k : Nat) : Nat := ws.getD k 0

/-- `ACC[g]` (10_state R37). -/
def State.lane (s : State) (g : Nat) : Nat := wordAt s.acc g

/-- `limb(g)` of an operand buffer: buffer word N−1−g, and 0 on a padding lane (00_scope R10, 10_state R38). -/
def limbOf (limbs : Nat) (buf : Words) (g : Nat) : Nat :=
  if g < limbs then wordAt buf (limbs - 1 - g) else 0

/-- `limbX(g)` (00_scope R10). -/
def State.limbX (s : State) (g : Nat) : Nat := limbOf s.limbs s.xbuf g

/-- `limbY(g)` (00_scope R10). -/
def State.limbY (s : State) (g : Nat) : Nat := limbOf s.limbs s.ybuf g

/-- `limbM(g)` (00_scope R10). -/
def State.limbM (s : State) (g : Nat) : Nat := limbOf s.limbs s.mbuf g

/-- `Σ_{g<k} digit(g) · r^g` for r = 2^w (00_scope R10). -/
def valueOf (w : Nat) (digit : Nat → Nat) : Nat → Nat
  | 0 => 0
  | k + 1 => valueOf w digit k + digit k * 2 ^ (w * k)

/-- `Xval` (00_scope R10). -/
def State.xval (s : State) : Nat := valueOf s.params.w s.limbX s.limbs

/-- `Yval` (00_scope R10). -/
def State.yval (s : State) : Nat := valueOf s.params.w s.limbY s.limbs

/-- `Mval` (00_scope R10). -/
def State.mval (s : State) : Nat := valueOf s.params.w s.limbM s.limbs

/-- `Vacc`, the integer the active accumulator represents (00_scope R10). -/
def State.vacc (s : State) : Nat := valueOf s.params.w s.lane s.active

/-- Region A[15:12] of an address (30_encoding R72). -/
def regionOf (a : Addr) : Nat := (a.extractLsb' 12 4).toNat

/-- Index A[11:0] of an address inside its region (30_encoding R72). -/
def indexOf (a : Addr) : Nat := (a.extractLsb' 0 12).toNat

/-- What an address of the array regions names (30_encoding R72, R73). -/
def decodeRegion (p : Params) (a : Addr) : PortTarget :=
  if indexOf a < p.nMax then
    match regionOf a with
    | 1 => .xbuf (indexOf a)
    | 2 => .ybuf (indexOf a)
    | 3 => .mbuf (indexOf a)
    | 4 => .zbuf (indexOf a)
    | 5 => .acc (indexOf a)
    | _ => .unmapped
  else .unmapped

/-- What an address names: a register, an array word below N_MAX, or nothing (30_encoding R72, R73; 40_host_access R113). -/
def decodeAddr (p : Params) (a : Addr) : PortTarget :=
  match a.toNat with
  | 0x0000 => .id
  | 0x0001 => .param
  | 0x0002 => .ctrl
  | 0x0003 => .minv
  | 0x0004 => .cmd
  | 0x0005 => .status
  | 0x0006 => .iter
  | 0x0007 => .q
  | 0x0008 => .cy
  | 0x0009 => .cq
  | 0x000A => .zhi
  | _ => decodeRegion p a

end Sys2Proof.Machine
end

