-- ==== Sys2Proof/Machine/Flags.lean ====
section
/-! DEFINITION. The fields of STATUS and how each is computed, and the other registers as the words the host reads. -/

namespace Sys2Proof.Machine

/-- The 4-bit code of STATUS.ERR (60_exceptions R213). -/
def errBits : ErrorCode → BitVec 4
  | .none => 0
  | .illegal => 1
  | .nZero => 2
  | .capacity => 3
  | .tileRange => 4
  | .iterRange => 5

/-- STATUS.BUSY: 1 exactly when PEND ≠ none; it is not stored (10_state R27). -/
def State.busy (s : State) : Bool := s.pend.isSome

/-- STATUS as read: ERR[11:8] ‖ 0000 ‖ ZOVF[3] ‖ OVF[2] ‖ DONE[1] ‖ BUSY[0] (10_state R27, 40_host_access R102). -/
def State.statusWord (s : State) : Data :=
  (errBits s.err ++ 0#4 ++ BitVec.ofBool s.zovf ++ BitVec.ofBool s.ovf ++ BitVec.ofBool s.done
    ++ BitVec.ofBool s.busy).setWidth 64

/-- The constant of ID (10_state R22). -/
def idValue : Data := 0x4D4D5631

/-- PARAM as read: S_MAX[39:24] ‖ WAY[23:8] ‖ W[7:0] (10_state R23). -/
def State.paramWord (s : State) : Data :=
  (BitVec.ofNat 16 s.params.sMax ++ BitVec.ofNat 16 s.params.way ++ BitVec.ofNat 8 s.params.w).setWidth 64

/-- CTRL as read: TILED[16] ‖ N[15:0] (10_state R25). -/
def State.ctrlWord (s : State) : Data := (BitVec.ofBool s.tiled ++ s.n).setWidth 64

/-- The exact sum of a multiply-accumulate in lane `g` (42_redc_microops R154, R160). -/
def macSum (s : State) (limb : Nat → Nat) (digit g : Nat) : Nat := s.lane g + limb g * digit

/-- Whether a multiply-accumulate on tile `t` has a lane whose exact sum is ≥ 2^LANE: what sets STATUS.OVF (42_redc_microops R155). -/
def macWraps (s : State) (limb : Nat → Nat) (digit t : Nat) : Bool :=
  (List.range (s.tileEnd t)).any fun g =>
    decide (s.tileLo t ≤ g) && decide (2 ^ s.params.lane ≤ macSum s limb digit g)

/-- The part of a value above N limbs (43_sequences R184). -/
def State.excess (s : State) (v : Nat) : Nat := v / 2 ^ (s.limbs * s.params.w)

/-- STATUS.ZOVF as FINAL sets it: the part above N limbs is not 0 (43_sequences R184). -/
def State.exceeds (s : State) (v : Nat) : Bool := decide (s.excess v ≠ 0)

end Sys2Proof.Machine
end

