-- ==== Sys2Proof/Machine/Ops.lean ====
section
/-! DEFINITION. The named operations over the state: the checks and the raising of an error, the writes of registers and arrays,
the carry propagation of a tile, the host port's reads and writes, the latching of a command and the reset event. -/

namespace Sys2Proof.Machine

/-! ## Arrays -/

/-- Store `v` in word `k`; nothing is stored past the array. -/
def writeWord (ws : Words) (k v : Nat) : Words := ws.set k v

/-- Replace the words `lo ≤ g < stop` by `f g`, and keep the others. -/
def writeRange (lo stop : Nat) (f : Nat → Nat) (ws : Words) : Words :=
  ws.mapIdx fun g v => if lo ≤ g ∧ g < stop then f g else v

/-- `words` holds `count` words, each of `width` bits. -/
abbrev Words.wf (count width : Nat) (ws : Words) : Prop := ws.length = count ∧ ∀ v ∈ ws, v < 2 ^ width

/-- The one form of the arrays: N_MAX words each, every word within its width (10_state R37 to R39). -/
abbrev Memory.wf (s : State) : Prop :=
  Words.wf s.params.nMax s.params.lane s.acc ∧ Words.wf s.params.nMax s.params.w s.xbuf ∧
    Words.wf s.params.nMax s.params.w s.ybuf ∧ Words.wf s.params.nMax s.params.w s.mbuf ∧
    Words.wf s.params.nMax s.params.w s.zbuf

/-! ## Register updates -/

/-- `ACC <- ws`. -/
def State.setAcc (s : State) (ws : Words) : State := { s with acc := ws }

/-- `XBUF <- ws`. -/
def State.setXbuf (s : State) (ws : Words) : State := { s with xbuf := ws }

/-- `YBUF <- ws`. -/
def State.setYbuf (s : State) (ws : Words) : State := { s with ybuf := ws }

/-- `MBUF <- ws`. -/
def State.setMbuf (s : State) (ws : Words) : State := { s with mbuf := ws }

/-- `ZBUF <- ws`. -/
def State.setZbuf (s : State) (ws : Words) : State := { s with zbuf := ws }

/-- `CY <- c`. -/
def State.setCy (s : State) (c : Nat) : State := { s with cy := c }

/-- `CQ <- c`. -/
def State.setCq (s : State) (c : Nat) : State := { s with cq := c }

/-- `Q <- d`. -/
def State.setQ (s : State) (d : Nat) : State := { s with q := d }

/-- `ITER <- i`. -/
def State.setIter (s : State) (i : BitVec 16) : State := { s with iter := i }

/-- `MINV <- m`. -/
def State.setMinv (s : State) (m : Nat) : State := { s with minv := m }

/-- `CTRL.N <- n; CTRL.TILED <- b`. -/
def State.setCtrl (s : State) (n : BitVec 16) (b : Bool) : State := { s with n := n, tiled := b }

/-- Set STATUS.OVF when `b`; it is sticky (10_state R29). -/
def State.noteOvf (s : State) (b : Bool) : State := { s with ovf := s.ovf || b }

/-- `ZHI <- z; STATUS.ZOVF <- b; STATUS.DONE <- 1` (43_sequences R184). -/
def State.publish (s : State) (z : BitVec 64) (b : Bool) : State := { s with zhi := z, zovf := b, done := true }

/-! ## Errors: the block's only exceptional outcome -/

/-- `raise Error(code)`: STATUS.ERR is written and nothing else (60_exceptions R212). The block takes no trap: no state is saved,
control goes nowhere, and there is no return (60_exceptions R219, R220). -/
def State.raise (s : State) (e : ErrorCode) : State := { s with err := e }

/-- The configuration check (60_exceptions R214). -/
def checkConfig (s : State) : Option ErrorCode :=
  if s.limbs = 0 then some .nZero
  else if s.tiled = false ∧ s.params.way < s.limbs then some .capacity
  else if s.tiled = true ∧ s.params.way * s.params.sMax < s.limbs then some .capacity
  else none

/-- The tile check (60_exceptions R215). -/
def checkTile (t : Nat) (s : State) : Option ErrorCode :=
  if s.tiles ≤ t then some .tileRange else none

/-- The iteration check (60_exceptions R216). -/
def checkIter (s : State) : Option ErrorCode :=
  if s.limbs ≤ s.iter.toNat then some .iterRange else none

/-- The first failing check in order gives the code (60_exceptions R217). -/
def firstError (checks : List (State → Option ErrorCode)) (s : State) : Option ErrorCode :=
  checks.findSome? fun check => check s

/-- A command: its checks come before its first write; a failed command writes STATUS.ERR only (60_exceptions R212). -/
def State.command (s : State) (checks : List (State → Option ErrorCode)) (body : State → State) : State :=
  match firstError checks s with
  | some e => s.raise e
  | none => body s

/-! ## The datapath -/

/-- Broadcast multiply-accumulate of a limb vector by one digit on tile `t`: each lane keeps the sum modulo 2^LANE, and
STATUS.OVF records a wrap (42_redc_microops R154, R155, R160). -/
def macTile (limb : Nat → Nat) (digit t : Nat) (s : State) : State :=
  (s.setAcc (writeRange (s.tileLo t) (s.tileEnd t)
    (fun g => macSum s limb digit g % 2 ^ s.params.lane) s.acc)).noteOvf (macWraps s limb digit t)

/-- The carry inserted into the least significant lane of a tile: 0 for tile 0 (41_carry_propagation R130). -/
def carryIn (t cin : Nat) : Nat := if t = 0 then 0 else cin

/-- Lane `g` of tile `t` after one propagation: its low W bits plus the overflow of the lane below, or plus the inserted carry
in the tile's lowest lane (41_carry_propagation R130). -/
def cpropLane (s : State) (t cin g : Nat) : Nat :=
  s.lane g % 2 ^ s.params.w
    + (if g = s.tileLo t then carryIn t cin else s.lane (g - 1) / 2 ^ s.params.w)

/-- The accumulator after `cprop(t, cin)` (41_carry_propagation R130). -/
def cpropAcc (s : State) (t cin : Nat) : Words :=
  writeRange (s.tileLo t) (s.tileEnd t) (cpropLane s t cin) s.acc

/-- The carry `cprop(t, cin)` returns: the overflow of the tile's most significant lane (41_carry_propagation R130). -/
def cpropOut (s : State) (t : Nat) : Nat := s.lane (s.tileEnd t - 1) / 2 ^ s.params.w

/-- The accumulator after the Montgomery shift: every active lane moves one lane down, and the combined carry CY + CQ enters the
top active lane (42_redc_microops R162). -/
def shiftAcc (s : State) : Words :=
  writeRange 0 s.active (fun g => if g + 1 < s.active then s.lane (g + 1) else s.cy + s.cq) s.acc

/-- ITER after a SHIFT: it stops at 0xFFFF (10_state R32). -/
def nextIter (i : BitVec 16) : BitVec 16 := BitVec.ofNat 16 (min (i.toNat + 1) 0xFFFF)

/-- Digit `g` of `v` in base r = 2^w (43_sequences R184). -/
def digitOf (w v g : Nat) : Nat := v / 2 ^ (g * w) % 2 ^ w

/-- Repeat a body `k` times. -/
def repeatBody : Nat → (State → State) → State → State
  | 0, _, s => s
  | k + 1, body, s => repeatBody k body (body s)

/-- Run a body on `k` tiles in increasing significance order, from tile `t` (43_sequences R180, R181). -/
def forTiles : Nat → Nat → (Nat → State → State) → State → State
  | 0, _, _, s => s
  | k + 1, t, body, s => forTiles k (t + 1) body (body t s)

/-! ## The host port -/

/-- `readValue(A)` of what an address names: every field zero-extended to 64 bits, unmapped addresses and CMD reading 0
(40_host_access R102, R113). -/
def readTarget (s : State) : PortTarget → Data
  | .id => idValue
  | .param => s.paramWord
  | .ctrl => s.ctrlWord
  | .minv => BitVec.ofNat 64 s.minv
  | .cmd => 0
  | .status => s.statusWord
  | .iter => s.iter.setWidth 64
  | .q => BitVec.ofNat 64 s.q
  | .cy => BitVec.ofNat 64 s.cy
  | .cq => BitVec.ofNat 64 s.cq
  | .zhi => s.zhi
  | .xbuf k => BitVec.ofNat 64 (wordAt s.xbuf k)
  | .ybuf k => BitVec.ofNat 64 (wordAt s.ybuf k)
  | .mbuf k => BitVec.ofNat 64 (wordAt s.mbuf k)
  | .zbuf k => BitVec.ofNat 64 (wordAt s.zbuf k)
  | .acc g => BitVec.ofNat 64 (wordAt s.acc g)
  | .unmapped => 0

/-- `readValue(A)` (40_host_access R102). -/
def readValue (s : State) (a : Addr) : Data := readTarget s (decodeAddr s.params a)

/-- The draw of the schedule for a newly latched command: the first draw fixed in advance, or a free value when there is none
(93_implementation_defined I2; log entry 3). -/
def nextStall (s : State) : Nat :=
  match s.sched with
  | [] => Config.engineDelay s.draws
  | d :: _ => d

/-- `PEND <- D`: the write of CMD latches a command, and its draw of the schedule is made (40_host_access R108). -/
def State.latch (s : State) (d : CmdWord) : State :=
  { s with
    pend := some d
    stall := nextStall s
    sched := s.sched.tail
    draws := s.draws + if s.sched.isEmpty then 1 else 0 }

/-- The low W bits of a data word: what MINV or a buffer word stores (40_host_access R105, R111). -/
def lowLimb (s : State) (d : Data) : Nat := d.toNat % 2 ^ s.params.w

/-- `writeEffect(A, D)` of what an address names (40_host_access R103 to R108, R111 to R114). -/
def writeTarget (s : State) (d : Data) : PortTarget → State
  | .id => s
  | .param => s
  | .ctrl => s.setCtrl (d.extractLsb' 0 16) (d.getLsbD 16)
  | .minv => s.setMinv (lowLimb s d)
  | .cmd => s.latch d
  | .status => s
  | .iter => s
  | .q => s
  | .cy => s
  | .cq => s
  | .zhi => s
  | .xbuf k => s.setXbuf (writeWord s.xbuf k (lowLimb s d))
  | .ybuf k => s.setYbuf (writeWord s.ybuf k (lowLimb s d))
  | .mbuf k => s.setMbuf (writeWord s.mbuf k (lowLimb s d))
  | .zbuf _ => s
  | .acc _ => s
  | .unmapped => s

/-- `writeEffect(A, D)` (40_host_access R101). -/
def writeEffect (s : State) (a : Addr) (d : Data) : State := writeTarget s d (decodeAddr s.params a)

/-- A read returns a word to the HOST (40_host_access R100). -/
def State.respond (s : State) (v : Data) : State := { s with reads := s.reads ++ [v] }

/-- A held transaction is not performed: it stays first in the HOST's program (60_exceptions R211: "No transaction is lost,
reordered or refused"). -/
def State.hold (s : State) (t : BusWord) : State := { s with host := .txn none t :: s.host }

/-- A transaction is held while a command is pending, unless it is a read of STATUS (60_exceptions R211). -/
def State.holds (s : State) (i : Instr) : Bool := s.busy && decide (i ≠ .rd addrStatus)

/-! ## The agents' bookkeeping -/

/-- `PEND <- none`, the end of every ENGINE step (60_exceptions R210). -/
def State.retire (s : State) : State := { s with pend := none, stall := 0 }

/-- The HOST's program becomes `items`. -/
def State.setHost (s : State) (items : List HostItem) : State := { s with host := items }

/-- The ENGINE lets one more read of STATUS pass. -/
def State.letPass (s : State) : State := { s with stall := s.stall - 1 }

/-- Bind the word just read to the name of its line, if the line has one (40_host_access R115). -/
def State.bindRead (s : State) (name : Option String) : State :=
  { s with binds := s.binds ++ (name.map fun x => (x, s.reads.getLastD 0)).toList }

/-- Load a host program from outside the machine, after what the HOST still has to perform (log entry 4). -/
def State.loadProgram (s : State) (prog : List HostLine) : State := s.setHost (s.host ++ expandProgram prog)

/-- The run of the host program has ended: its last line is performed and PEND = none (60_exceptions R229). -/
abbrev State.ended (s : State) : Prop := s.host = [] ∧ s.pend = none

/-! ## The reset event -/

/-- The reset event on any state (70_reset_and_hazards R230): every piece of the block's state takes its reset value, the arrays a new
draw, and a pending command is discarded. What the agents' bookkeeping holds beside the block is kept. -/
def State.resetEvent (s : State) (draw : Nat → Nat) : State :=
  { State.resetWith s.params draw with
    host := s.host
    reads := s.reads
    binds := s.binds
    sched := s.sched
    draws := s.draws }

end Sys2Proof.Machine
end

