-- ==== Sys2Proof/Machine/HostAccess.lean ====
section
/-! DEFINITION. The meanings of the two bus transactions RD and WR (40_host_access). -/

namespace Sys2Proof.Machine

/-- `RD A` (40_host_access R100): held while a command is pending unless A is STATUS; else the word at A is returned to the HOST.
A read changes nothing of the block (20_memory R58). -/
def execRd (a : Addr) (s : State) : Host.Outcome State Fault Refusal :=
  .next (if s.holds (.rd a) then s.hold (busRead a) else s.respond (readValue s a))

/-- `WR A, D` (40_host_access R101): held while a command is pending; else the write effect of A. -/
def execWr (a : Addr) (d : Data) (s : State) : Host.Outcome State Fault Refusal :=
  .next (if s.holds (.wr a d) then s.hold (busWrite a d) else writeEffect s a d)

end Sys2Proof.Machine
end

