-- ==== Sys2Proof/Machine/CarryPropagation.lean ====
section
/-! DEFINITION. The carry_propagation_unit: the meanings of CPY and CPQ (41_carry_propagation). A body is a rule's pseudocode
without its checks (43_sequences). -/

namespace Sys2Proof.Machine

/-- `CY <- cprop(t, CY)` (41_carry_propagation R133). -/
def cpyBody (t : Nat) (s : State) : State := (s.setAcc (cpropAcc s t s.cy)).setCy (cpropOut s t)

/-- `CQ <- cprop(t, CQ)` (41_carry_propagation R135). -/
def cpqBody (t : Nat) (s : State) : State := (s.setAcc (cpropAcc s t s.cq)).setCq (cpropOut s t)

/-- `CPY t` (41_carry_propagation R133). -/
def execCpy (t : Nat) (s : State) : Host.Outcome State Fault Refusal :=
  .next (s.command [checkConfig, checkTile t] (cpyBody t))

/-- `CPQ t` (41_carry_propagation R135). -/
def execCpq (t : Nat) (s : State) : Host.Outcome State Fault Refusal :=
  .next (s.command [checkConfig, checkTile t] (cpqBody t))

end Sys2Proof.Machine
end

