-- ==== Sys2Proof/Machine/MicroOps.lean ====
section
/-! DEFINITION. The micro-operations of the multi_tile_redc_engine: the meanings of NOP, CLEAR, MACY, QGEN, MACQ and SHIFT
(42_redc_microops). A body is a rule's pseudocode without its checks (43_sequences). -/

namespace Sys2Proof.Machine

/-- All N_MAX lanes, CY, CQ, Q, ITER, ZHI and the STATUS fields become 0; CTRL, MINV and the buffers stay
(42_redc_microops R152). -/
def clearBody (s : State) : State :=
  { s with
    acc := List.replicate s.params.nMax 0
    cy := 0
    cq := 0
    q := 0
    iter := 0
    zhi := 0
    done := false
    ovf := false
    zovf := false
    err := .none }

/-- Z ← Z + X · y on tile t, with y = limbY(ITER) (42_redc_microops R153, R154). -/
def macyBody (t : Nat) (s : State) : State := macTile s.limbX (s.limbY s.iter.toNat) t s

/-- `Q <- (ACC[0] * MINV) mod 2^W` (42_redc_microops R156). -/
def qgenBody (s : State) : State := s.setQ (s.lane 0 * s.minv % 2 ^ s.params.w)

/-- Z ← Z + M · q on tile t (42_redc_microops R160). -/
def macqBody (t : Nat) (s : State) : State := macTile s.limbM s.q t s

/-- The Montgomery shift, dividing by r; ITER counts it (42_redc_microops R162). -/
def shiftBody (s : State) : State := (s.setAcc (shiftAcc s)).setIter (nextIter s.iter)

/-- `NOP` (42_redc_microops R150): nothing; the ENGINE's step consumes the command. -/
def execNop (s : State) : Host.Outcome State Fault Refusal := .next s

/-- `CLEAR` (42_redc_microops R152): no check of CTRL. -/
def execClear (s : State) : Host.Outcome State Fault Refusal := .next (clearBody s)

/-- `MACY t` (42_redc_microops R154). -/
def execMacy (t : Nat) (s : State) : Host.Outcome State Fault Refusal :=
  .next (s.command [checkConfig, checkTile t, checkIter] (macyBody t))

/-- `QGEN` (42_redc_microops R156): no check of CTRL. -/
def execQgen (s : State) : Host.Outcome State Fault Refusal := .next (qgenBody s)

/-- `MACQ t` (42_redc_microops R160): no check of ITER. -/
def execMacq (t : Nat) (s : State) : Host.Outcome State Fault Refusal :=
  .next (s.command [checkConfig, checkTile t] (macqBody t))

/-- `SHIFT` (42_redc_microops R162): no check of ITER, and none that the discarded lane is 0. -/
def execShift (s : State) : Host.Outcome State Fault Refusal := .next (s.command [checkConfig] shiftBody)

end Sys2Proof.Machine
end

