-- ==== Sys2Proof/Machine/Sequences.lean ====
section
/-! DEFINITION. Digit iteration, final normalization and the whole multiplication: the meanings of STEP, FINAL and RUN
(43_sequences). Each composite is one atomic command over the bodies of the micro-operations (60_exceptions R210). -/

namespace Sys2Proof.Machine

/-- QGEN belongs to tile 0 of a digit iteration (43_sequences R180). -/
def qgenOfTile (t : Nat) (s : State) : State := if t = 0 then qgenBody s else s

/-- One tile of a digit iteration (43_sequences R180). -/
def stepTile (t : Nat) (s : State) : State :=
  cpqBody t (macqBody t (qgenOfTile t (cpyBody t (macyBody t s))))

/-- One digit iteration: every tile in increasing significance order, then the shift (43_sequences R180). -/
def stepBody (s : State) : State := shiftBody (forTiles s.tiles 0 stepTile s)

/-- The canonical lanes of the value `v` (43_sequences R184). -/
def canonicalAcc (s : State) (v : Nat) : Words := writeRange 0 s.active (digitOf s.params.w v) s.acc

/-- The result buffer holding the N low digits of `v`, most significant first (43_sequences R184). -/
def resultZbuf (s : State) (v : Nat) : Words :=
  writeRange 0 s.limbs (fun k => digitOf s.params.w v (s.limbs - 1 - k)) s.zbuf

/-- Full normalization and the output Z (43_sequences R184). Where V is at or above r^L the pseudocode and the sentence on a second
FINAL disagree; this follows the pseudocode (DEDUCED, log entry 16). -/
def finalBody (s : State) : State :=
  ((s.setAcc (canonicalAcc s s.vacc)).setZbuf (resultZbuf s s.vacc)).publish
    (BitVec.ofNat 64 (s.excess s.vacc)) (s.exceeds s.vacc)

/-- The whole multiplication: CLEAR, N digit iterations, FINAL (43_sequences R186). -/
def runBody (s : State) : State := finalBody (repeatBody s.limbs stepBody (clearBody s))

/-- `STEP` (43_sequences R180). -/
def execStep (s : State) : Host.Outcome State Fault Refusal :=
  .next (s.command [checkConfig, checkIter] stepBody)

/-- `FINAL` (43_sequences R184): reads neither CY nor CQ, and does not check ITER. -/
def execFinal (s : State) : Host.Outcome State Fault Refusal := .next (s.command [checkConfig] finalBody)

/-- `RUN` (43_sequences R186): when the configuration check fails nothing is written but STATUS.ERR. -/
def execRun (s : State) : Host.Outcome State Fault Refusal := .next (s.command [checkConfig] runBody)

end Sys2Proof.Machine
end

