-- ==== Sys2Proof/Machine/Dispatch.lean ====
section
/-! DEFINITION. The meaning of every instruction: one arm for each constructor of Instr. -/

namespace Sys2Proof.Machine

def exec (i : Instr) (s : State) : Host.Outcome State Fault Refusal :=
  match i with
  | .rd a => Sys2Proof.Machine.execRd a s
  | .wr a d => Sys2Proof.Machine.execWr a d s
  | .nop => Sys2Proof.Machine.execNop s
  | .clear => Sys2Proof.Machine.execClear s
  | .macy t => Sys2Proof.Machine.execMacy t s
  | .cpy t => Sys2Proof.Machine.execCpy t s
  | .qgen => Sys2Proof.Machine.execQgen s
  | .macq t => Sys2Proof.Machine.execMacq t s
  | .cpq t => Sys2Proof.Machine.execCpq t s
  | .shift => Sys2Proof.Machine.execShift s
  | .step => Sys2Proof.Machine.execStep s
  | .final => Sys2Proof.Machine.execFinal s
  | .run => Sys2Proof.Machine.execRun s

end Sys2Proof.Machine
end

