-- ==== Sys2Proof/Machine/Agents.lean ====
section
/-! DEFINITION. The two agents: the step of the HOST on its next item, the step of the ENGINE on the latched command, and which of
them moves (60_exceptions R210, R211, R229). -/

namespace Sys2Proof.Machine

/-- Apply `f` to the next state of an outcome, if it is one. -/
def mapNext (f : State → State) (o : Host.Outcome State Fault Refusal) : Host.Outcome State Fault Refusal :=
  match o with
  | .next s => .next (f s)
  | .fault r => .fault r
  | .refused r => .refused r

/-- Whether an item is a read of STATUS, the only transaction that is not held (60_exceptions R211). -/
def readsStatus (it : HostItem) : Bool :=
  match it with
  | .txn _ t => decide (decodeBus t = .rd addrStatus)
  | .wait => true

/-- After a transaction: a read binds its word to the line's name; a write returns no word and binds nothing
(40_host_access R115). -/
def bindAfter (name : Option String) (i : Instr) (s : State) : State :=
  match i with
  | .rd _ => s.bindRead name
  | .wr _ _ => s
  | .nop => s
  | .clear => s
  | .macy _ => s
  | .cpy _ => s
  | .qgen => s
  | .macq _ => s
  | .cpq _ => s
  | .shift => s
  | .step => s
  | .final => s
  | .run => s

/-- After a read of STATUS by a WAIT: the WAIT stays first in the program until the word read has BUSY = 0
(40_host_access R116: "repeat `RD 0x0005 -> s` until s[0] = 0"). Whether `s` stays bound for later lines is not said: DESIGN CHOICE, a
WAIT binds no name (log entry 19). -/
def waitAgain (s : State) : State :=
  if (s.reads.getLastD 0).getLsbD 0 then s.setHost (.wait :: s.host) else s

/-- The HOST's step on its next item, which has been taken off its program (60_exceptions R211). A WAIT makes one of its reads (log entry 9) and binds no name (log entry 19). -/
def hostItemStep (it : HostItem) (s : State) : Host.Outcome State Fault Refusal :=
  match it with
  | .txn name t => mapNext (bindAfter name (decodeBus t)) (exec (decodeBus t) s)
  | .wait => mapNext waitAgain (exec (.rd addrStatus) s)

/-- The ENGINE's step on the latched word: decode, raise ILLEGAL or execute, and in every case PEND <- none
(60_exceptions R210). -/
def engineStep (w : CmdWord) (s : State) : Host.Outcome State Fault Refusal :=
  match decodeCommand w with
  | .error _ => .next (s.raise .illegal).retire
  | .ok i => mapNext State.retire (exec i s)

/-- Whether, with a command pending, the HOST moves before the ENGINE: its next item is a read of STATUS, and the schedule lets
one more pass (60_exceptions R211, R229; log entry 3). -/
def hostFirst (s : State) (it : HostItem) : Bool := readsStatus it && decide (s.stall ≠ 0)

/-- One transition of one agent (00_scope R14). With nothing pending the HOST performs its next item; a HOST with nothing to
perform leaves the state as it is (70_reset_and_hazards R231, 60_exceptions R227). With a command pending every item but a read of
STATUS is held and the ENGINE steps. -/
def agentStep (s : State) : Host.Outcome State Fault Refusal :=
  match s.pend, s.host with
  | none, [] => .next s
  | none, it :: rest => hostItemStep it (s.setHost rest)
  | some w, [] => engineStep w s
  | some w, it :: rest =>
    if hostFirst s it then hostItemStep it (s.letPass.setHost rest) else engineStep w s

/-- A command word placed in the latch, to be executed by the very next step. -/
def placeCommand (s : State) (w : CmdWord) : State := { s with pend := some w, stall := 0 }

/-- A bus transaction placed first in the HOST's program, to be performed by the very next step. -/
def placeBus (s : State) (t : BusWord) : State := { s with pend := none, host := .txn none t :: s.host }

/-- The object of a table row placed where the next step takes its instruction from; a number that is no object places nothing. -/
def placeCode (s : State) (c : Except DecodeError Code) : State :=
  match c with
  | .ok (.command w) => placeCommand s w
  | .ok (.bus t) => placeBus s t
  | .error _ => s

end Sys2Proof.Machine
end

