-- ==== Sys2Proof/Machine/Step.lean ====
section
/-! DEFINITION. One step of the machine, and the placing of an instruction where the next step takes it from. -/

namespace Sys2Proof.Machine

/-- One step: one host bus transaction or one executed command (00_scope R14). -/
def step (s : State) : Host.Outcome State Fault Refusal := agentStep s

/-- `s` with the instruction of `nbits` bits and value `w` placed as the next one to run: a command word in PEND, a bus transaction
first in the HOST's program with nothing pending (log entry 4). -/
def State.withFetchWord (s : State) (nbits w : Nat) : State := placeCode s (codeOfTableWord nbits w)

end Sys2Proof.Machine
end

