-- ==== Sys2Proof/Safety.lean ====
section
/-! DEFINITION. What counts as a good state, the preconditions of a meaningful multiplication, and the values and sequences that
statements about the machine speak of. -/

namespace Sys2Proof.Machine

/-- The state invariant: the build parameters are in range and every stored number fits the width the spec gives it
(00_scope R6 to R8; 10_state R24, R33, R34, R37 to R39). -/
abbrev State.Wf (s : State) : Prop :=
  s.params.Valid ∧ s.minv < s.radix ∧ s.q < s.radix ∧ s.cy < s.radix ∧ s.cq < s.radix ∧ Memory.wf s

/-- The configuration is one the commands accept: N is positive and fits the chosen path (60_exceptions R214). -/
abbrev State.Configured (s : State) : Prop :=
  0 < s.limbs ∧ (s.tiled = false → s.limbs ≤ s.params.way) ∧ (s.tiled = true → s.limbs ≤ s.params.way * s.params.sMax)

/-- MINV is the Montgomery constant of the modulus: Mval · MINV ≡ −1 (mod r) (10_state R24, 60_exceptions R228). -/
abbrev State.MinvCorrect (s : State) : Prop := (s.mval * s.minv + 1) % s.radix = 0

/-- The modulus preconditions of 43_sequences R192: Mval is odd and MINV is its constant. -/
abbrev State.ModulusReady (s : State) : Prop := s.mval % 2 = 1 ∧ s.MinvCorrect

/-- Every active lane is ≤ 2r − 2 (43_sequences R190). -/
abbrev State.LanesBounded (s : State) : Prop := ∀ g < s.active, s.lane g + 2 ≤ 2 * s.radix

/-- The value ZHI · R + Σ_{k<N} ZBUF[k] · r^(N−1−k) that a host reads back (43_sequences R192). -/
def State.result (s : State) : Nat :=
  s.zhi.toNat * s.radix ^ s.limbs + valueOf s.params.w (limbOf s.limbs s.zbuf) s.limbs

/-- Execute instructions one after another, stopping at the first that gives no next state. -/
def execAll : List Instr → State → Host.Outcome State Fault Refusal
  | [], s => .next s
  | i :: is, s =>
    match exec i s with
    | .next t => execAll is t
    | .fault r => .fault r
    | .refused r => .refused r

/-- The micro-operations of tile `t` in a digit iteration (43_sequences R180). -/
def tileOps (t : Nat) : List Instr :=
  [.macy t, .cpy t] ++ (if t = 0 then [.qgen] else []) ++ [.macq t, .cpq t]

/-- The micro-operations of one digit iteration over `k` tiles (43_sequences R180, 70_reset_and_hazards R234). -/
def stepOps (k : Nat) : List Instr := (List.range k).flatMap tileOps ++ [.shift]

/-- The same digit iteration as operations on the whole vector: every MACY, the chained CPY pass, QGEN, every MACQ, the chained CPQ
pass, SHIFT (43_sequences R182). -/
def wholeVectorOps (k : Nat) : List Instr :=
  (List.range k).map .macy ++ (List.range k).map .cpy ++ [.qgen] ++ (List.range k).map .macq
    ++ (List.range k).map .cpq ++ [.shift]

/-- The commands of a whole multiplication of N limbs (43_sequences R187). -/
def runOps (limbs : Nat) : List Instr := [.clear] ++ List.replicate limbs .step ++ [.final]

/-- `k` chained CPY passes over the active vector, adding each pass's ejected carry to a running total (43_sequences R185). -/
def carryPasses : Nat → State → Nat → State × Nat
  | 0, s, total => (s, total)
  | k + 1, s, total =>
    let s' := forTiles s.tiles 0 cpyBody s
    carryPasses k s' (total + s'.cy)

end Sys2Proof.Machine
end

