-- ==== Sys2Proof/Certificates/Slice0/Obligations.lean ====
section
/-! DEFINITION. The statements about the machine, for the provers. Each docstring names the rule of spec/ it formalises. A
premise `s.Wf` is the state invariant, which StepKeepsTheInvariant and ResetMeetsTheInvariant state on their own. -/

open Sys2Proof Sys2Proof.Machine

/-! ## Encoding -/

/-- Decode and encode agree, for every instruction and every value of its operands (30_encoding R71, R75, R77, R80). -/
def Obligations.DecodeInvertsEncode : Prop :=
  ∀ i : Instr, i.wellFormed = true →
    decode (encode i) = .ok i ∧ decodeTableWord (encode i).bits (encode i).toNat = some i

/-- Each legal command word is the encoding of the well-formed command it decodes to, so no two words share a meaning
(30_encoding R79, R80). -/
def Obligations.LegalWordsAreEncodings : Prop :=
  ∀ (w : CmdWord) (i : Instr), decodeCommand w = .ok i →
    i.wellFormed = true ∧ i.isCommand = true ∧ encode i = .command w

/-- Which words are legal, and that executing any other raises ILLEGAL and changes nothing else of the block (30_encoding R79), with
PEND none after it (60_exceptions R210). The ENGINE executes the word before every held transaction (R211) and at the end of the HOST's
program; that it moves before a read of STATUS
when `stall` is 0, and that `stall` is 0 afterwards, is the model's draw of the schedule (log entry 3). -/
def Obligations.IllegalWordsRaiseIllegal : Prop :=
  (∀ w : CmdWord, (∃ i, decodeCommand w = .ok i) ↔
    (w.toNat % 256 ≤ 0x0A ∧ w.toNat / 2 ^ 20 = 0 ∧
      (w.toNat / 256 % 4096 = 0 ∨ w.toNat % 256 = 0x02 ∨ w.toNat % 256 = 0x03 ∨ w.toNat % 256 = 0x05 ∨
        w.toNat % 256 = 0x06))) ∧
  (∀ (s : State) (w : CmdWord), s.pend = some w → (¬ ∃ i, decodeCommand w = .ok i) →
    (s.stall = 0 ∨ ∀ it rest, s.host = it :: rest → readsStatus it = false) →
    step s = .next { s with err := .illegal, pend := none, stall := 0 })

/-- 30_encoding R81: the example words. -/
def Obligations.ExampleWordsDecode : Prop :=
  decodeCommand 0x0000000000000000 = .ok .nop ∧ decodeCommand 0x0000000000000001 = .ok .clear ∧
  decodeCommand 0x0000000000000002 = .ok (.macy 0) ∧ decodeCommand 0x0000000000000302 = .ok (.macy 3) ∧
  decodeCommand 0x0000000000000103 = .ok (.cpy 1) ∧ decodeCommand 0x0000000000000004 = .ok .qgen ∧
  decodeCommand 0x0000000000000205 = .ok (.macq 2) ∧ decodeCommand 0x00000000000FFF06 = .ok (.cpq 4095) ∧
  decodeCommand 0x0000000000000007 = .ok .shift ∧ decodeCommand 0x0000000000000008 = .ok .step ∧
  decodeCommand 0x0000000000000009 = .ok .final ∧ decodeCommand 0x000000000000000A = .ok .run ∧
  (¬ ∃ i, decodeCommand 0x0000000000000104 = .ok i) ∧ (¬ ∃ i, decodeCommand 0x000000000000000B = .ok i) ∧
  (¬ ∃ i, decodeCommand 0x000000000010000A = .ok i)

/-- Every bus tuple is an instruction, and performing it completes and leaves ERR, DONE, OVF and ZOVF as they are (30_encoding R82); of
BUSY, which a write of CMD sets, it says nothing. That `exec` of a held transaction completes too, putting it back first in the HOST's
program, is the model's choice (log entry 6). -/
def Obligations.BusTransactionsRaiseNoError : Prop :=
  ∀ t : BusWord, ∃ i, decode (.bus t) = .ok i ∧ i.isCommand = false ∧
    ∀ s : State, ∃ u, exec i s = .next u ∧ u.err = s.err ∧ u.done = s.done ∧ u.ovf = s.ovf ∧ u.zovf = s.zovf

/-- The expansion of the host notation (40_host_access R116). R116 bounds no list; that the addresses of a list which runs past 0xFFFF
are sums of 16 bits is the model's choice (log entry 20). -/
def Obligations.HostNotationExpands : Prop :=
  (∀ (i : Instr) (w : CmdWord), encode i = .command w →
    (HostLine.cmd i).expand = [.txn none (busWrite 0x0004 w)]) ∧
  HostLine.wait.expand = [.wait] ∧
  HostLine.montmul.expand = [.txn none (busWrite 0x0004 0x000000000000000A), .wait] ∧
  (∀ (limbs : List Data) (k : Nat),
    (HostLine.load .x limbs).expand[k]? = limbs[k]?.map (fun d => .txn none (busWrite (0x1000 + BitVec.ofNat 16 k) d)) ∧
    (HostLine.load .y limbs).expand[k]? = limbs[k]?.map (fun d => .txn none (busWrite (0x2000 + BitVec.ofNat 16 k) d)) ∧
    (HostLine.load .m limbs).expand[k]? = limbs[k]?.map (fun d => .txn none (busWrite (0x3000 + BitVec.ofNat 16 k) d))) ∧
  (∀ (names : List String) (k : Nat),
    (HostLine.readZ names).expand[k]? = names[k]?.map (fun x => .txn (some x) (busRead (0x4000 + BitVec.ofNat 16 k)))) ∧
  (∀ (n : BitVec 16) (b : Bool),
    (HostLine.config n b).expand = [.txn none (busWrite 0x0002 (BitVec.ofNat 64 (b.toNat * 2 ^ 16 + n.toNat)))])

/-! ## Steps and agents -/

/-- A step runs the decoded instruction. The ENGINE executes the command that PEND decodes to and retires it (60_exceptions R210); with
nothing pending the HOST performs the item at the head of its program, in program order (R211), and a named read binds its word
(40_host_access R115). The model's choices, which no rule gives: with a command pending and a read of STATUS first in the program,
`stall` says which agent moves, the ENGINE at 0 and the HOST otherwise (the draw of the schedule, log entry 3); a WAIT is one read of
STATUS a step and stays first while BUSY (log entry 9), and it binds no name (log entry 19). -/
def Obligations.StepRunsTheDecodedInstruction : Prop :=
  ∀ s : State,
    (∀ w i, s.pend = some w → decodeCommand w = .ok i →
      (s.stall = 0 ∨ ∀ it rest, s.host = it :: rest → readsStatus it = false) →
      step s = mapNext State.retire (exec i s)) ∧
    (∀ name t rest, s.pend = none → s.host = .txn name t :: rest →
      step s = mapNext (bindAfter name (decodeBus t)) (exec (decodeBus t) (s.setHost rest))) ∧
    (∀ rest, s.pend = none → s.host = .wait :: rest →
      step s = mapNext waitAgain (exec (.rd 0x0005) (s.setHost rest))) ∧
    (∀ w name t rest, s.pend = some w → s.stall ≠ 0 → s.host = .txn name t :: rest → decodeBus t = .rd 0x0005 →
      step s = mapNext (bindAfter name (.rd 0x0005)) (exec (.rd 0x0005) (s.letPass.setHost rest))) ∧
    (∀ w rest, s.pend = some w → s.stall ≠ 0 → s.host = .wait :: rest →
      step s = mapNext waitAgain (exec (.rd 0x0005) (s.letPass.setHost rest)))

/-- 60_exceptions R211: with a command pending every transaction but a read of STATUS waits, one ENGINE step lifts the hold, and the
HOST's program is performed in order with nothing lost, reordered or refused. -/
def Obligations.HeldTransactionsWait : Prop :=
  ∀ s : State,
    (∀ w name t rest, s.pend = some w → s.host = .txn name t :: rest → decodeBus t ≠ .rd 0x0005 →
      ∃ u, step s = .next u ∧ u.pend = none ∧ u.host = s.host ∧ u.reads = s.reads ∧ u.binds = s.binds) ∧
    (∀ name t rest, s.pend = none → s.host = .txn name t :: rest → ∃ u, step s = .next u ∧ u.host = rest) ∧
    (∀ u, step s = .next u → u.host = s.host ∨ ∃ it, s.host = it :: u.host)

/-- A pending command is executed after at most as many steps as the schedule lets reads of STATUS pass, and one more: the ENGINE's
step is weakly fair (60_exceptions R229; the bound is the model's draw of the schedule, log entry 3). -/
def Obligations.PendingCommandIsExecuted : Prop :=
  ∀ (s : State) (w : CmdWord), s.pend = some w →
    ∃ k u, k ≤ s.stall + 1 ∧ Host.Core.run Sys2Proof.core k s = .next u ∧ u.pend = none

/-- Every WAIT ends: it reads STATUS at least once and finitely often, its last read shows BUSY = 0, and nothing is then pending
(40_host_access R116, R117; 60_exceptions R229; the bound is the model's draw of the schedule, log entry 3, and a
WAIT is one read a step, log entry 9). -/
def Obligations.WaitEnds : Prop :=
  ∀ (s : State) (rest : List HostItem), s.host = .wait :: rest →
    ∃ k u, k ≤ s.stall + 2 ∧ Host.Core.run Sys2Proof.core k s = .next u ∧ u.host = rest ∧ u.pend = none ∧
      s.reads.length + 1 ≤ u.reads.length ∧ u.reads.length ≤ s.reads.length + s.stall + 1 ∧
      (u.reads.getLastD 0).getLsbD 0 = false

/-- No step faults or is refused ("The block has no `fault` and no `stuck` state", 93_implementation_defined). -/
def Obligations.EveryStepCompletes : Prop := ∀ s : State, ∃ u, step s = .next u

/-- A command takes its effect between the CMD write that latched it and the next transaction other than a read of STATUS: two steps
after the HOST meets the write, the block is as the command leaves it, executed on the operands and the configuration of the write
(20_memory R61, 40_host_access R110). -/
def Obligations.CommandRunsBeforeTheNextTransaction : Prop :=
  ∀ (s : State) (w : CmdWord) (rest : List HostItem) (i : Instr) (u : State),
    s.pend = none → s.host = .txn none (busWrite 0x0004 w) :: rest →
    (∀ it more, rest = it :: more → ∃ name t, it = .txn name t ∧ decodeBus t ≠ .rd 0x0005) →
    decodeCommand w = .ok i → exec i (s.setHost rest) = .next u →
    ∃ v, Host.Core.run Sys2Proof.core 2 s = .next v ∧
      v = { u with pend := none, stall := 0, sched := v.sched, draws := v.draws }

/-! ## The host port -/

/-- 40_host_access R102: what a read returns at every address, and that it changes nothing of the block. It covers a read of STATUS while
a command is pending, which returns BUSY = 1 and every other field as it stands. -/
def Obligations.ReadReturnsTheAddressedWord : Prop :=
  ∀ (s : State) (a : Addr), s.Wf → (s.pend = none ∨ a = 0x0005) →
    ∃ v : Data, exec (.rd a) s = .next { s with reads := s.reads ++ [v] } ∧
      (a.toNat = 0x0000 → v = 0x000000004D4D5631) ∧
      (a.toNat = 0x0001 → v.toNat = s.params.sMax * 2 ^ 24 + s.params.way * 2 ^ 8 + s.params.w) ∧
      (a.toNat = 0x0002 → v.toNat = s.tiled.toNat * 2 ^ 16 + s.n.toNat) ∧
      (a.toNat = 0x0003 → v.toNat = s.minv) ∧
      (a.toNat = 0x0004 → v = 0) ∧
      (a.toNat = 0x0005 → v.toNat = (errBits s.err).toNat * 2 ^ 8 + s.zovf.toNat * 2 ^ 3 + s.ovf.toNat * 2 ^ 2
        + s.done.toNat * 2 + s.pend.isSome.toNat) ∧
      (a.toNat = 0x0006 → v.toNat = s.iter.toNat) ∧
      (a.toNat = 0x0007 → v.toNat = s.q) ∧
      (a.toNat = 0x0008 → v.toNat = s.cy) ∧
      (a.toNat = 0x0009 → v.toNat = s.cq) ∧
      (a.toNat = 0x000A → v = s.zhi) ∧
      (∀ k < s.params.nMax, a.toNat = 0x1000 + k → v.toNat = s.xbuf.getD k 0) ∧
      (∀ k < s.params.nMax, a.toNat = 0x2000 + k → v.toNat = s.ybuf.getD k 0) ∧
      (∀ k < s.params.nMax, a.toNat = 0x3000 + k → v.toNat = s.mbuf.getD k 0) ∧
      (∀ k < s.params.nMax, a.toNat = 0x4000 + k → v.toNat = s.zbuf.getD k 0) ∧
      (∀ g < s.params.nMax, a.toNat = 0x5000 + g → v.toNat = s.acc.getD g 0) ∧
      ((0x000B ≤ a.toNat ∧ a.toNat ≤ 0x0FFF) ∨ 0x6000 ≤ a.toNat ∨
        (0x1000 ≤ a.toNat ∧ a.toNat < 0x6000 ∧ s.params.nMax ≤ a.toNat % 0x1000) → v = 0)

/-- While a command is pending, a transaction other than a read of STATUS is not performed: the block is unchanged and the transaction
stays first in the HOST's program (40_host_access R100, R101; that `exec` puts it back is the model's choice, log entry 6). -/
def Obligations.HeldAccessIsNotPerformed : Prop :=
  ∀ (s : State) (w : CmdWord), s.pend = some w →
    (∀ a : Addr, a ≠ 0x0005 → exec (.rd a) s = .next { s with host := .txn none (busRead a) :: s.host }) ∧
    (∀ (a : Addr) (d : Data), exec (.wr a d) s = .next { s with host := .txn none (busWrite a d) :: s.host })

/-- 40_host_access R104, R105, R108: a write of CTRL, of MINV and of CMD. A write of CMD latches the word and, the model's own part
(log entry 3), takes a draw of the schedule; nothing else changes. -/
def Obligations.RegisterWritesStore : Prop :=
  ∀ (s : State) (d : Data), s.pend = none →
    exec (.wr 0x0002 d) s = .next { s with n := d.extractLsb' 0 16, tiled := d.getLsbD 16 } ∧
    exec (.wr 0x0003 d) s = .next { s with minv := d.toNat % 2 ^ s.params.w } ∧
    ∃ u, exec (.wr 0x0004 d) s = .next u ∧
      u = { s with pend := some d, stall := u.stall, sched := u.sched, draws := u.draws }

/-- 40_host_access R111: a write of an operand buffer word stores its low W bits there, and no other word or register changes. -/
def Obligations.OperandWritesStoreALimb : Prop :=
  ∀ (s : State) (a : Addr) (d : Data) (k : Nat), s.Wf → s.pend = none → k < s.params.nMax →
    (a.toNat = 0x1000 + k → ∃ u, exec (.wr a d) s = .next u ∧ u = { s with xbuf := u.xbuf } ∧
      u.xbuf.length = s.xbuf.length ∧
      ∀ j, wordAt u.xbuf j = if j = k then d.toNat % 2 ^ s.params.w else wordAt s.xbuf j) ∧
    (a.toNat = 0x2000 + k → ∃ u, exec (.wr a d) s = .next u ∧ u = { s with ybuf := u.ybuf } ∧
      u.ybuf.length = s.ybuf.length ∧
      ∀ j, wordAt u.ybuf j = if j = k then d.toNat % 2 ^ s.params.w else wordAt s.ybuf j) ∧
    (a.toNat = 0x3000 + k → ∃ u, exec (.wr a d) s = .next u ∧ u = { s with mbuf := u.mbuf } ∧
      u.mbuf.length = s.mbuf.length ∧
      ∀ j, wordAt u.mbuf j = if j = k then d.toNat % 2 ^ s.params.w else wordAt s.mbuf j)

/-- 40_host_access R103, R107, R113, R114 (and the write effects of R106 and R112): a write to a read-only register, to the ZBUF and ACC regions or to an
unmapped address changes nothing, and an unmapped address reads 0. -/
def Obligations.OtherWritesAreIgnored : Prop :=
  ∀ (s : State) (a : Addr) (d : Data), s.pend = none →
    (a.toNat ≤ 0x0001 ∨ (0x0005 ≤ a.toNat ∧ a.toNat ≤ 0x000A) ∨ (0x4000 ≤ a.toNat ∧ a.toNat < 0x6000) →
      exec (.wr a d) s = .next s) ∧
    ((0x000B ≤ a.toNat ∧ a.toNat ≤ 0x0FFF) ∨ 0x6000 ≤ a.toNat ∨
        (0x1000 ≤ a.toNat ∧ a.toNat < 0x6000 ∧ s.params.nMax ≤ a.toNat % 0x1000) →
      exec (.wr a d) s = .next s ∧ exec (.rd a) s = .next { s with reads := s.reads ++ [0] })

/-- A mapped operand word reads back what was last written, cut to W bits, and no other address reads differently: nothing is reached
by two addresses (20_memory R65, 30_encoding R72). -/
def Obligations.PortReadAfterWrite : Prop :=
  ∀ (s : State) (a : Addr) (d : Data), s.Wf → s.pend = none → 0x1000 ≤ a.toNat → a.toNat < 0x4000 →
    a.toNat % 0x1000 < s.params.nMax →
    ∃ u, exec (.wr a d) s = .next u ∧ readValue u a = BitVec.ofNat 64 (d.toNat % 2 ^ s.params.w) ∧
      ∀ b : Addr, b ≠ a → readValue u b = readValue s b

/-! ## Configuration and errors -/

/-- The derived quantities of 00_scope R10: S = ceil(N / WAY) tiles of WAY lanes when TILED = 1, one tile of N lanes when TILED = 0;
every tile has a lane and every active lane lies in exactly one tile. -/
def Obligations.TilesPartitionTheActiveLanes : Prop :=
  ∀ s : State, s.params.Valid → s.Configured →
    (s.tiled = false → s.tiles = 1 ∧ s.active = s.limbs) ∧
    (s.tiled = true → (s.tiles - 1) * s.params.way < s.limbs ∧ s.limbs ≤ s.tiles * s.params.way ∧
      s.active = s.tiles * s.params.way) ∧
    s.active ≤ s.params.nMax ∧
    (∀ t < s.tiles, s.inTile t (t * s.params.way)) ∧
    (∀ g < s.active, ∃ t < s.tiles, s.inTile t g ∧ ∀ u < s.tiles, s.inTile u g → u = t)

/-- The first failing check in the order ILLEGAL, N_ZERO, CAPACITY, TILE_RANGE, ITER_RANGE gives the code, the failed command writes
nothing else, and no command makes a check that the table does not give it (60_exceptions R217). In the first clause PEND is none after
the ENGINE's step (R210), which comes before every held transaction (R211); that the ENGINE moves before a read of STATUS
when `stall` is 0, and that `stall` is 0 afterwards, is the model's draw of the schedule (log entry 3). -/
def Obligations.FirstFailingCheckGivesTheCode : Prop :=
  ∀ (s : State) (t : Nat),
    (∀ w, s.pend = some w → (¬ ∃ i, decodeCommand w = .ok i) →
      (s.stall = 0 ∨ ∀ it rest, s.host = it :: rest → readsStatus it = false) →
      step s = .next { s with err := .illegal, pend := none, stall := 0 }) ∧
    (s.limbs = 0 → ∀ i ∈ [Instr.macy t, .cpy t, .macq t, .cpq t, .shift, .step, .final, .run],
      exec i s = .next { s with err := .nZero }) ∧
    (0 < s.limbs → ¬ s.Configured → ∀ i ∈ [Instr.macy t, .cpy t, .macq t, .cpq t, .shift, .step, .final, .run],
      exec i s = .next { s with err := .capacity }) ∧
    (s.Configured → s.tiles ≤ t → ∀ i ∈ [Instr.macy t, .cpy t, .macq t, .cpq t],
      exec i s = .next { s with err := .tileRange }) ∧
    (s.Configured → t < s.tiles → s.limbs ≤ s.iter.toNat → exec (.macy t) s = .next { s with err := .iterRange }) ∧
    (s.Configured → s.limbs ≤ s.iter.toNat → exec .step s = .next { s with err := .iterRange }) ∧
    (∀ i ∈ [Instr.nop, .qgen], ∃ u, exec i s = .next u ∧ u.err = s.err) ∧
    (∃ u, exec .clear s = .next u ∧ u.err = .none) ∧
    (s.Configured → ∀ i ∈ [Instr.shift, .final], ∃ u, exec i s = .next u ∧ u.err = s.err) ∧
    (s.Configured → ∃ u, exec .run s = .next u ∧ u.err = .none) ∧
    (s.Configured → t < s.tiles → ∀ i ∈ [Instr.cpy t, .macq t, .cpq t], ∃ u, exec i s = .next u ∧ u.err = s.err) ∧
    (s.Configured → s.iter.toNat < s.limbs → (∃ u, exec .step s = .next u ∧ u.err = s.err) ∧
      (t < s.tiles → ∃ u, exec (.macy t) s = .next u ∧ u.err = s.err))

/-- 60_exceptions R213: the codes of STATUS.ERR as a read of STATUS shows them, none above 5. -/
def Obligations.ErrorCodesInStatus : Prop :=
  errBits .none = 0 ∧ errBits .illegal = 1 ∧ errBits .nZero = 2 ∧ errBits .capacity = 3 ∧ errBits .tileRange = 4 ∧
  errBits .iterRange = 5 ∧ ∀ s : State, s.statusWord.extractLsb' 8 4 = errBits s.err ∧ (s.statusWord.extractLsb' 8 4).toNat ≤ 5 ∧
    s.statusWord.extractLsb' 4 4 = 0 ∧ s.statusWord.extractLsb' 12 52 = 0

/-- Failures are precise: whenever an instruction leaves a new code in STATUS.ERR, everything else is as before it (60_exceptions
R212). -/
def Obligations.FailedCommandsArePrecise : Prop :=
  ∀ (i : Instr) (s u : State), exec i s = .next u → u.err ≠ .none → u.err ≠ s.err → u = { s with err := u.err }

/-! ## Micro-operations -/

/-- `NOP` changes nothing (42_redc_microops R150), and the ENGINE's step on its word only consumes it (60_exceptions R210). In the second
clause, that with `stall` 0 the ENGINE moves even when a read of STATUS or a WAIT is first in the HOST's program is the model's draw of
the schedule (log entry 3); the steps with `stall` not 0 are StepRunsTheDecodedInstruction's. -/
def Obligations.NopChangesNothing : Prop :=
  (∀ s : State, exec .nop s = .next s) ∧
  ∀ s : State, s.pend = some 0x0000000000000000 → s.stall = 0 → step s = .next { s with pend := none }

/-- 42_redc_microops R152: `CLEAR` zeroes every lane, CY, CQ, Q, ITER, ZHI and the STATUS fields, in every configuration, and leaves
CTRL, MINV and the buffers. -/
def Obligations.ClearZeroesTheScratchState : Prop :=
  ∀ s : State, ∃ u, exec .clear s = .next u ∧
    u = { s with
      acc := u.acc, cy := 0, cq := 0, q := 0, iter := 0, zhi := 0, done := false, ovf := false, zovf := false, err := .none } ∧
    u.acc.length = s.params.nMax ∧ ∀ g, u.lane g = 0

/-- 42_redc_microops R154, R155: `MACY t` adds limbX(g) · limbY(ITER) to every lane of tile t modulo 2^LANE, sets OVF when an exact
sum reaches 2^LANE, and changes nothing else. -/
def Obligations.MacyAccumulates : Prop :=
  ∀ (s : State) (t : Nat), s.Wf → s.Configured → t < s.tiles → s.iter.toNat < s.limbs →
    ∃ u, exec (.macy t) s = .next u ∧ u = { s with acc := u.acc, ovf := u.ovf } ∧
      u.acc.length = s.acc.length ∧
      (∀ g, u.lane g =
        if s.inTile t g then (s.lane g + s.limbX g * s.limbY s.iter.toNat) % 2 ^ (2 * s.params.w) else s.lane g) ∧
      (u.ovf = true ↔ s.ovf = true ∨
        ∃ g, s.inTile t g ∧ 2 ^ (2 * s.params.w) ≤ s.lane g + s.limbX g * s.limbY s.iter.toNat)

/-- 42_redc_microops R160, R155: `MACQ t` adds limbM(g) · Q to every lane of tile t modulo 2^LANE, sets OVF when an exact sum reaches
2^LANE, and changes nothing else; ITER is not checked. -/
def Obligations.MacqAccumulates : Prop :=
  ∀ (s : State) (t : Nat), s.Wf → s.Configured → t < s.tiles →
    ∃ u, exec (.macq t) s = .next u ∧ u = { s with acc := u.acc, ovf := u.ovf } ∧
      u.acc.length = s.acc.length ∧
      (∀ g, u.lane g =
        if s.inTile t g then (s.lane g + s.limbM g * s.q) % 2 ^ (2 * s.params.w) else s.lane g) ∧
      (u.ovf = true ↔ s.ovf = true ∨
        ∃ g, s.inTile t g ∧ 2 ^ (2 * s.params.w) ≤ s.lane g + s.limbM g * s.q)

/-- `CPY t` (41_carry_propagation R130, R133): each lane of tile t keeps its low W bits and receives the overflow of the lane below,
the lowest receives CY (0 for tile 0), the top overflow becomes CY, and nothing else changes. -/
def Obligations.CpyPropagates : Prop :=
  ∀ (s : State) (t : Nat), s.Wf → s.Configured → t < s.tiles →
    ∃ u, exec (.cpy t) s = .next u ∧ u = { s with acc := u.acc, cy := u.cy } ∧
      u.acc.length = s.acc.length ∧ u.cy = s.lane (s.tileEnd t - 1) / s.radix ∧
      ∀ g, u.lane g =
        if s.inTile t g then
          s.lane g % s.radix
            + (if g = t * s.params.way then (if t = 0 then 0 else s.cy) else s.lane (g - 1) / s.radix)
        else s.lane g

/-- `CPQ t` (41_carry_propagation R130, R135): the same with CQ in place of CY. -/
def Obligations.CpqPropagates : Prop :=
  ∀ (s : State) (t : Nat), s.Wf → s.Configured → t < s.tiles →
    ∃ u, exec (.cpq t) s = .next u ∧ u = { s with acc := u.acc, cq := u.cq } ∧
      u.acc.length = s.acc.length ∧ u.cq = s.lane (s.tileEnd t - 1) / s.radix ∧
      ∀ g, u.lane g =
        if s.inTile t g then
          s.lane g % s.radix
            + (if g = t * s.params.way then (if t = 0 then 0 else s.cq) else s.lane (g - 1) / s.radix)
        else s.lane g

/-- 41_carry_propagation R132: a propagation of tile t preserves the value of its lanes, the carry in and the carry out counted at their
weights. -/
def Obligations.PropagationPreservesValue : Prop :=
  ∀ (s u : State) (t : Nat), s.Wf → s.Configured → t < s.tiles →
    (exec (.cpy t) s = .next u →
      ∑ g ∈ Finset.Ico (s.tileLo t) (s.tileEnd t), u.lane g * s.radix ^ g + u.cy * s.radix ^ s.tileEnd t =
        ∑ g ∈ Finset.Ico (s.tileLo t) (s.tileEnd t), s.lane g * s.radix ^ g
          + (if t = 0 then 0 else s.cy) * s.radix ^ s.tileLo t) ∧
    (exec (.cpq t) s = .next u →
      ∑ g ∈ Finset.Ico (s.tileLo t) (s.tileEnd t), u.lane g * s.radix ^ g + u.cq * s.radix ^ s.tileEnd t =
        ∑ g ∈ Finset.Ico (s.tileLo t) (s.tileEnd t), s.lane g * s.radix ^ g
          + (if t = 0 then 0 else s.cq) * s.radix ^ s.tileLo t)

/-- 41_carry_propagation R137: after a propagation every lane of the tile is at most 2r − 2, the outgoing carry is at most r − 1, and
lane 0 is below r. -/
def Obligations.PropagationBoundsTheLanes : Prop :=
  ∀ (s u : State) (t : Nat), s.Wf → s.Configured → t < s.tiles →
    exec (.cpy t) s = .next u ∨ exec (.cpq t) s = .next u →
    (∀ g, s.inTile t g → u.lane g + 2 ≤ 2 * s.radix) ∧ u.cy < s.radix ∧ u.cq < s.radix ∧
      (t = 0 → u.lane 0 < s.radix)

/-- 41_carry_propagation R139: the chained pass CPY 0 … CPY S−1 is one application of the primitive to the whole active vector with
incoming carry 0, and the same for CPQ. -/
def Obligations.ChainedPassIsOnePass : Prop :=
  ∀ s : State, s.Wf → s.Configured →
    (∃ u, execAll ((List.range s.tiles).map .cpy) s = .next u ∧ u = { s with acc := u.acc, cy := u.cy } ∧
      u.cy = s.lane (s.active - 1) / s.radix ∧
      ∀ g, u.lane g =
        if g < s.active then s.lane g % s.radix + (if g = 0 then 0 else s.lane (g - 1) / s.radix) else s.lane g) ∧
    (∃ u, execAll ((List.range s.tiles).map .cpq) s = .next u ∧ u = { s with acc := u.acc, cq := u.cq } ∧
      u.cq = s.lane (s.active - 1) / s.radix ∧
      ∀ g, u.lane g =
        if g < s.active then s.lane g % s.radix + (if g = 0 then 0 else s.lane (g - 1) / s.radix) else s.lane g)

/-- `QGEN` writes Q and nothing else, in every configuration (42_redc_microops R156). -/
def Obligations.QgenWritesTheQuotientDigit : Prop :=
  ∀ s : State, exec .qgen s = .next { s with q := s.acc.getD 0 0 * s.minv % 2 ^ s.params.w }

/-- 42_redc_microops R157: with Mval odd and MINV its constant, the digit makes lane 0 plus limbM(0) · Q a multiple of r. -/
def Obligations.QuotientDigitClearsLaneZero : Prop :=
  ∀ s u : State, s.ModulusReady → exec .qgen s = .next u →
    (u.lane 0 + u.limbM 0 * u.q) % u.radix = 0

/-- 42_redc_microops R162: `SHIFT` moves every active lane one lane down across tiles, writes CY + CQ into lane L−1, counts in ITER up
to 0xFFFF, and changes nothing else. -/
def Obligations.ShiftMovesTheLanes : Prop :=
  ∀ s : State, s.Wf → s.Configured →
    ∃ u, exec .shift s = .next u ∧ u = { s with acc := u.acc, iter := u.iter } ∧ u.acc.length = s.acc.length ∧
      u.iter.toNat = min (s.iter.toNat + 1) 0xFFFF ∧
      (∀ g, g + 1 < s.active → u.lane g = s.lane (g + 1)) ∧ u.lane (s.active - 1) = s.cy + s.cq ∧
      ∀ g, s.active ≤ g → u.lane g = s.lane g

/-- 42_redc_microops R163: `SHIFT` divides the value by r, losing lane 0 and adding the combined carry at weight r^L. -/
def Obligations.ShiftDividesTheValue : Prop :=
  ∀ s u : State, s.Wf → s.Configured → exec .shift s = .next u →
    u.vacc * s.radix + s.lane 0 = s.vacc + (s.cy + s.cq) * s.radix ^ s.active ∧
    (s.lane 0 = 0 → u.vacc = (s.vacc + (s.cy + s.cq) * s.radix ^ s.active) / s.radix)

/-! ## STEP -/

/-- `STEP` is the micro-operations of its tiles in increasing order and then SHIFT, executed one after another (43_sequences R180,
R181). -/
def Obligations.StepIsItsMicroOperations : Prop :=
  ∀ s : State, s.Wf → s.Configured → s.iter.toNat < s.limbs →
    ∃ u, exec .step s = .next u ∧ execAll (stepOps s.tiles) s = .next u

/-- 43_sequences R182: `STEP` is the whole-vector sequence of the single-tile engine on L lanes. -/
def Obligations.StepIsTheWholeVectorIteration : Prop :=
  ∀ s : State, s.Wf → s.Configured → s.iter.toNat < s.limbs →
    ∃ u, exec .step s = .next u ∧ execAll (wholeVectorOps s.tiles) s = .next u

/-- With every active lane at most 2r − 2, a `STEP` does not wrap and leaves every active lane at most 2r − 2 and the carries at most
r − 1, whatever the operands (43_sequences R190). -/
def Obligations.StepKeepsTheLanesBounded : Prop :=
  ∀ s u : State, s.Wf → s.Configured → s.iter.toNat < s.limbs → s.LanesBounded → exec .step s = .next u →
    u.LanesBounded ∧ u.ovf = s.ovf ∧ u.cy < s.radix ∧ u.cq < s.radix

/-- No sequence of CLEAR, STEP, FINAL and RUN from a CLEARed accumulator ever sets STATUS.OVF (43_sequences R190, 10_state R29). -/
def Obligations.OrderedCommandsNeverOverflow : Prop :=
  ∀ (s : State) (is : List Instr), s.Wf → (∀ i ∈ is, i = .clear ∨ i = .step ∨ i = .final ∨ i = .run) →
    ∃ u, execAll (.clear :: is) s = .next u ∧ u.ovf = false

/-- 43_sequences R183: the value recurrence of a `STEP` that does not wrap, as one from lanes of at most 2r − 2 never does. -/
def Obligations.StepValueRecurrence : Prop :=
  ∀ s u : State, s.Wf → s.Configured → s.iter.toNat < s.limbs → exec .step s = .next u →
    (s.LanesBounded ∨ (s.ovf = false ∧ u.ovf = false)) →
    u.q = (s.vacc + s.xval * s.limbY s.iter.toNat) % s.radix * s.minv % s.radix ∧
    (s.MinvCorrect → u.vacc * s.radix = s.vacc + s.xval * s.limbY s.iter.toNat + u.q * s.mval)

/-- 43_sequences R191: with Mval odd and MINV its constant, lane 0 is 0 after CPQ 0 of a digit iteration, so SHIFT discards a zero
lane. -/
def Obligations.LaneZeroIsZeroBeforeTheShift : Prop :=
  ∀ s : State, s.Wf → s.Configured → s.iter.toNat < s.limbs → s.ModulusReady →
    ∃ u, execAll (tileOps 0) s = .next u ∧ u.lane 0 = 0

/-! ## FINAL -/

/-- `FINAL` writes the canonical digits of V to the active lanes, the N low digits to ZBUF most significant first, the rest to ZHI with
ZOVF, sets DONE, and changes nothing else; ITER is not checked (43_sequences R184, 10_state R30). -/
def Obligations.FinalNormalizes : Prop :=
  ∀ s : State, s.Wf → s.Configured →
    ∃ u, exec .final s = .next u ∧
      u = { s with acc := u.acc, zbuf := u.zbuf, zhi := u.zhi, zovf := u.zovf, done := true } ∧
      u.acc.length = s.acc.length ∧ u.zbuf.length = s.zbuf.length ∧
      (∀ g, u.lane g = if g < s.active then s.vacc / s.radix ^ g % s.radix else s.lane g) ∧
      (∀ k, wordAt u.zbuf k =
        if k < s.limbs then s.vacc / s.radix ^ (s.limbs - 1 - k) % s.radix else wordAt s.zbuf k) ∧
      u.zhi.toNat = s.vacc / s.radix ^ s.limbs % 2 ^ 64 ∧
      (u.zovf = true ↔ s.vacc / s.radix ^ s.limbs ≠ 0)

/-- When V is below r^L a second `FINAL` changes nothing. When it is not, the first `FINAL` has dropped the part of V at or above r^L from
the lanes, and a second one can change ZHI and ZOVF. The corner case of 43_sequences R184 says without condition that a second `FINAL`
leaves the state unchanged: the second half is the model's reading of that rule's pseudocode against that sentence (log entry 16). -/
def Obligations.SecondFinalChangesNothingBelowCapacity : Prop :=
  (∀ s : State, s.Wf → s.Configured → s.vacc < s.radix ^ s.active →
    ∃ u, exec .final s = .next u ∧ exec .final u = .next u) ∧
  (∃ s u v : State, s.Wf ∧ s.Configured ∧ exec .final s = .next u ∧ exec .final u = .next v ∧ u.zhi ≠ v.zhi ∧
    u.zovf ≠ v.zovf)

/-- 43_sequences R185: iterating the chained pass at least L times reaches the canonical lanes of `FINAL`, and the ejected carries add
up to the part of V above r^L. -/
def Obligations.IteratedPassesReachFinal : Prop :=
  ∀ (s : State) (k : Nat), s.Wf → s.Configured → s.active ≤ k →
    (∀ g < s.active, (carryPasses k s 0).1.lane g = s.vacc / s.radix ^ g % s.radix) ∧
    (carryPasses k s 0).2 = s.vacc / s.radix ^ s.active ∧
    ∃ u, exec .final s = .next u ∧ u.acc = (carryPasses k s 0).1.acc

/-! ## RUN -/

/-- 43_sequences R187: `RUN` is CLEAR, N times STEP and FINAL executed one after another. -/
def Obligations.RunIsItsCommands : Prop :=
  ∀ s : State, s.Wf → s.Configured →
    ∃ u, exec .run s = .next u ∧ execAll (runOps s.limbs) s = .next u

/-- 43_sequences R192: under its premises V = ZHI · R + Z satisfies V · R ≡ X · Y (mod M), and when ZOVF = 0, V is ZBUF alone. -/
def Obligations.RunComputesTheMontgomeryProduct : Prop :=
  ∀ s : State, s.Wf → s.Configured → s.ModulusReady → s.xval < s.mval → s.yval < s.mval →
    ∃ u, exec .run s = .next u ∧ u.result * s.radix ^ s.limbs ≡ s.xval * s.yval [MOD s.mval] ∧
      (u.zovf = false → u.result = valueOf s.params.w (limbOf s.limbs u.zbuf) s.limbs)

/-- 43_sequences R193: under the same premises, Yval < Mval not needed, V < 2 · Mval, so ZHI is 0 or 1, and 1 only if Mval > R/2. -/
def Obligations.RunResultIsBelowTwiceTheModulus : Prop :=
  ∀ s : State, s.Wf → s.Configured → s.ModulusReady → s.xval < s.mval →
    ∃ u, exec .run s = .next u ∧ u.result < 2 * s.mval ∧ (u.zhi = 0 ∨ u.zhi = 1) ∧
      (u.zovf = true ↔ u.zhi = 1) ∧ (u.zhi = 1 → s.radix ^ s.limbs < 2 * s.mval)

/-- 43_sequences R194: Xval = 0 gives a zero result for any Yval, Mval and MINV. -/
def Obligations.ZeroOperandGivesZero : Prop :=
  ∀ s : State, s.Wf → s.Configured → s.xval = 0 →
    ∃ u, exec .run s = .next u ∧ (∀ k < s.limbs, wordAt u.zbuf k = 0) ∧ u.zhi = 0 ∧ u.zovf = false

/-- 43_sequences R195: when N ≤ WAY the two paths give the same ZBUF, ZHI and ZOVF. -/
def Obligations.TiledAndSingleTilePathsAgree : Prop :=
  ∀ s : State, s.Wf → 0 < s.limbs → s.limbs ≤ s.params.way →
    ∃ u v, exec .run { s with tiled := false } = .next u ∧ exec .run { s with tiled := true } = .next v ∧
      u.zbuf = v.zbuf ∧ u.zhi = v.zhi ∧ u.zovf = v.zovf

/-- 43_sequences R196: the result of `RUN` is a function of W, WAY, CTRL, MINV and words 0 … N−1 of the operand buffers alone. -/
def Obligations.RunDependsOnItsOperandsAlone : Prop :=
  ∀ s t : State, s.Wf → t.Wf → s.Configured → t.Configured →
    s.params.w = t.params.w → s.params.way = t.params.way → s.n = t.n → s.tiled = t.tiled → s.minv = t.minv →
    (∀ k < s.limbs, wordAt s.xbuf k = wordAt t.xbuf k ∧ wordAt s.ybuf k = wordAt t.ybuf k ∧
      wordAt s.mbuf k = wordAt t.mbuf k) →
    ∃ u v, exec .run s = .next u ∧ exec .run t = .next v ∧
      (∀ k < s.limbs, wordAt u.zbuf k = wordAt v.zbuf k) ∧ u.zhi = v.zhi ∧ u.zovf = v.zovf ∧
      (∀ g, u.lane g = v.lane g) ∧ u.q = v.q ∧ u.cy = v.cy ∧ u.cq = v.cq ∧ u.iter = v.iter

/-- 43_sequences R197: the Montgomery forms of a and b, multiplied by `RUN` and reduced below Mval by the host, then multiplied by 1 by
`RUN`, give a · b modulo Mval. -/
def Obligations.RoundTripThroughMontgomeryForm : Prop :=
  ∀ (s u t : State) (a b : Nat), s.Wf → s.Configured → s.ModulusReady →
    s.xval = a * s.radix ^ s.limbs % s.mval → s.yval = b * s.radix ^ s.limbs % s.mval →
    exec .run s = .next u →
    t.Wf → t.Configured → t.ModulusReady → t.mval = s.mval → t.limbs = s.limbs → t.radix = s.radix →
    t.xval = u.result % s.mval → t.yval = 1 →
    ∃ v, exec .run t = .next v ∧ v.result % s.mval = a * b % s.mval

/-- Whatever the operands, `RUN` completes N digit iterations with no wrap and no error, sets DONE and leaves canonical lanes, and
writes nothing the host owns (43_sequences R186, R200; 60_exceptions R228). -/
def Obligations.RunCompletesOnAnyOperands : Prop :=
  ∀ s : State, s.Wf → s.Configured →
    ∃ u, exec .run s = .next u ∧ u.done = true ∧ u.ovf = false ∧ u.err = .none ∧ u.iter = s.n ∧
      (∀ g < s.active, u.lane g < s.radix) ∧ (∀ g, s.active ≤ g → u.lane g = 0) ∧
      (∀ k, s.limbs ≤ k → wordAt u.zbuf k = wordAt s.zbuf k) ∧
      u = { s with acc := u.acc, zbuf := u.zbuf, zhi := u.zhi, zovf := u.zovf, q := u.q, cy := u.cy, cq := u.cq, iter := u.iter,
                   done := u.done, ovf := u.ovf, err := u.err }

/-! ## The whole machine -/

/-- Commands only read what the host owns: PARAM, CTRL, MINV and the operand buffers, and they leave the latch and the agents'
bookkeeping to the step (10_state R23, R24, R25, R38). -/
def Obligations.CommandsLeaveTheHostsRegisters : Prop :=
  ∀ (i : Instr) (s u : State), i.isCommand = true → exec i s = .next u →
    u = { s with done := u.done, ovf := u.ovf, zovf := u.zovf, err := u.err, iter := u.iter, q := u.q, cy := u.cy, cq := u.cq,
                 zhi := u.zhi, acc := u.acc, zbuf := u.zbuf }

/-- Which instructions write which register: DONE, ZOVF and ZHI only CLEAR, FINAL and RUN; ITER, Q, CY and CQ only the commands that
contain SHIFT, QGEN, CPY and CPQ, and CLEAR; ZBUF only FINAL and RUN, never at a word N or above (10_state R28, R30, R32 to R34, R39). -/
def Obligations.OnlyTheNamedCommandsWrite : Prop :=
  ∀ (i : Instr) (s u : State), exec i s = .next u →
    (i ≠ .clear → i ≠ .final → i ≠ .run → u.done = s.done ∧ u.zovf = s.zovf ∧ u.zhi = s.zhi) ∧
    (i ≠ .clear → i ≠ .shift → i ≠ .step → i ≠ .run → u.iter = s.iter) ∧
    (i ≠ .clear → i ≠ .qgen → i ≠ .step → i ≠ .run → u.q = s.q) ∧
    (i ≠ .clear → (∀ t, i ≠ .cpy t) → i ≠ .step → i ≠ .run → u.cy = s.cy) ∧
    (i ≠ .clear → (∀ t, i ≠ .cpq t) → i ≠ .step → i ≠ .run → u.cq = s.cq) ∧
    (i ≠ .final → i ≠ .run → u.zbuf = s.zbuf) ∧
    (∀ k, s.limbs ≤ k → wordAt u.zbuf k = wordAt s.zbuf k)

/-- Lanes at or above L are written by CLEAR, and by the CLEAR inside RUN, only (10_state R37). -/
def Obligations.InactiveLanesAreKept : Prop :=
  ∀ (i : Instr) (s u : State), exec i s = .next u → i ≠ .clear → i ≠ .run →
    ∀ g, s.active ≤ g → u.lane g = s.lane g

/-- Every step of either agent keeps the state invariant: the parameters in range, every register and every array word within its
width, every array of N_MAX words (10_state R23, R24, R33, R34, R37 to R39). -/
def Obligations.StepKeepsTheInvariant : Prop :=
  ∀ s u : State, s.Wf → step s = .next u → u.Wf

/-- The state after reset meets the invariant, whatever the free values are. -/
def Obligations.ResetMeetsTheInvariant : Prop :=
  State.reset.Wf ∧ ∀ (p : Params) (draw : Nat → Nat), p.Valid → (State.resetWith p draw).Wf

/-- 10_state R40: the reset values; and the UNSPECIFIED arrays can hold any contents of their form. -/
def Obligations.ResetValues : Prop :=
  (∀ (p : Params) (draw : Nat → Nat),
    let s := State.resetWith p draw
    s.params = p ∧ s.n = 0 ∧ s.tiled = false ∧ s.minv = 0 ∧ s.done = false ∧ s.ovf = false ∧ s.zovf = false ∧ s.err = .none ∧
      s.iter = 0 ∧ s.q = 0 ∧ s.cy = 0 ∧ s.cq = 0 ∧ s.zhi = 0 ∧ s.pend = none ∧ s.statusWord = 0 ∧
      readValue s 0x0000 = 0x4D4D5631 ∧ readValue s 0x0001 = s.paramWord) ∧
  (∃ (p : Params) (draw : Nat → Nat), State.reset = State.resetWith p draw) ∧
  (∀ (p : Params) (acc xbuf ybuf mbuf zbuf : Words), p.Valid → Words.wf p.nMax p.lane acc → Words.wf p.nMax p.w xbuf →
    Words.wf p.nMax p.w ybuf → Words.wf p.nMax p.w mbuf → Words.wf p.nMax p.w zbuf →
    ∃ draw : Nat → Nat, (State.resetWith p draw).acc = acc ∧ (State.resetWith p draw).xbuf = xbuf ∧
      (State.resetWith p draw).ybuf = ybuf ∧ (State.resetWith p draw).mbuf = mbuf ∧ (State.resetWith p draw).zbuf = zbuf)

/-- A reset puts the block into its reset state and discards a pending command: nothing of the command is executed
(70_reset_and_hazards R230). -/
def Obligations.ResetDiscardsThePendingCommand : Prop :=
  ∀ (s : State) (draw : Nat → Nat),
    (s.resetEvent draw).pend = none ∧ (s.resetEvent draw).statusWord = 0 ∧
    { s.resetEvent draw with host := [], reads := [], binds := [], sched := [], draws := 0 } = State.resetWith s.params draw
end

