-- ==== Sys2Proof/Laws/State.lean ====
section
/-! SUPPORT. The fields of every state update, one lemma for each field of each update, and the derived quantities of an update
that leaves CTRL and PARAM alone: no later proof unfolds a record update. -/

namespace Sys2Proof.Machine

variable (s : State)

/-! ### setAcc -/

@[simp] theorem State.setAcc_params (ws : Words) : (s.setAcc ws).params = s.params := rfl
@[simp] theorem State.setAcc_n (ws : Words) : (s.setAcc ws).n = s.n := rfl
@[simp] theorem State.setAcc_tiled (ws : Words) : (s.setAcc ws).tiled = s.tiled := rfl
@[simp] theorem State.setAcc_minv (ws : Words) : (s.setAcc ws).minv = s.minv := rfl
@[simp] theorem State.setAcc_done (ws : Words) : (s.setAcc ws).done = s.done := rfl
@[simp] theorem State.setAcc_ovf (ws : Words) : (s.setAcc ws).ovf = s.ovf := rfl
@[simp] theorem State.setAcc_zovf (ws : Words) : (s.setAcc ws).zovf = s.zovf := rfl
@[simp] theorem State.setAcc_err (ws : Words) : (s.setAcc ws).err = s.err := rfl
@[simp] theorem State.setAcc_iter (ws : Words) : (s.setAcc ws).iter = s.iter := rfl
@[simp] theorem State.setAcc_q (ws : Words) : (s.setAcc ws).q = s.q := rfl
@[simp] theorem State.setAcc_cy (ws : Words) : (s.setAcc ws).cy = s.cy := rfl
@[simp] theorem State.setAcc_cq (ws : Words) : (s.setAcc ws).cq = s.cq := rfl
@[simp] theorem State.setAcc_zhi (ws : Words) : (s.setAcc ws).zhi = s.zhi := rfl
@[simp] theorem State.setAcc_acc (ws : Words) : (s.setAcc ws).acc = ws := rfl
@[simp] theorem State.setAcc_xbuf (ws : Words) : (s.setAcc ws).xbuf = s.xbuf := rfl
@[simp] theorem State.setAcc_ybuf (ws : Words) : (s.setAcc ws).ybuf = s.ybuf := rfl
@[simp] theorem State.setAcc_mbuf (ws : Words) : (s.setAcc ws).mbuf = s.mbuf := rfl
@[simp] theorem State.setAcc_zbuf (ws : Words) : (s.setAcc ws).zbuf = s.zbuf := rfl
@[simp] theorem State.setAcc_pend (ws : Words) : (s.setAcc ws).pend = s.pend := rfl
@[simp] theorem State.setAcc_host (ws : Words) : (s.setAcc ws).host = s.host := rfl
@[simp] theorem State.setAcc_reads (ws : Words) : (s.setAcc ws).reads = s.reads := rfl
@[simp] theorem State.setAcc_binds (ws : Words) : (s.setAcc ws).binds = s.binds := rfl
@[simp] theorem State.setAcc_stall (ws : Words) : (s.setAcc ws).stall = s.stall := rfl
@[simp] theorem State.setAcc_sched (ws : Words) : (s.setAcc ws).sched = s.sched := rfl
@[simp] theorem State.setAcc_draws (ws : Words) : (s.setAcc ws).draws = s.draws := rfl
@[simp] theorem State.setAcc_limbs (ws : Words) : (s.setAcc ws).limbs = s.limbs := rfl
@[simp] theorem State.setAcc_radix (ws : Words) : (s.setAcc ws).radix = s.radix := rfl
@[simp] theorem State.setAcc_tiles (ws : Words) : (s.setAcc ws).tiles = s.tiles := rfl
@[simp] theorem State.setAcc_active (ws : Words) : (s.setAcc ws).active = s.active := rfl
@[simp] theorem State.setAcc_tileLo (ws : Words) (t : Nat) : (s.setAcc ws).tileLo t = s.tileLo t := rfl
@[simp] theorem State.setAcc_tileEnd (ws : Words) (t : Nat) : (s.setAcc ws).tileEnd t = s.tileEnd t := rfl
@[simp] theorem State.setAcc_limbX (ws : Words) : (s.setAcc ws).limbX = s.limbX := rfl
@[simp] theorem State.setAcc_limbY (ws : Words) : (s.setAcc ws).limbY = s.limbY := rfl
@[simp] theorem State.setAcc_limbM (ws : Words) : (s.setAcc ws).limbM = s.limbM := rfl
@[simp] theorem State.setAcc_lane (ws : Words) (g : Nat) : (s.setAcc ws).lane g = wordAt ws g := rfl

/-! ### setXbuf -/

@[simp] theorem State.setXbuf_params (ws : Words) : (s.setXbuf ws).params = s.params := rfl
@[simp] theorem State.setXbuf_n (ws : Words) : (s.setXbuf ws).n = s.n := rfl
@[simp] theorem State.setXbuf_tiled (ws : Words) : (s.setXbuf ws).tiled = s.tiled := rfl
@[simp] theorem State.setXbuf_minv (ws : Words) : (s.setXbuf ws).minv = s.minv := rfl
@[simp] theorem State.setXbuf_done (ws : Words) : (s.setXbuf ws).done = s.done := rfl
@[simp] theorem State.setXbuf_ovf (ws : Words) : (s.setXbuf ws).ovf = s.ovf := rfl
@[simp] theorem State.setXbuf_zovf (ws : Words) : (s.setXbuf ws).zovf = s.zovf := rfl
@[simp] theorem State.setXbuf_err (ws : Words) : (s.setXbuf ws).err = s.err := rfl
@[simp] theorem State.setXbuf_iter (ws : Words) : (s.setXbuf ws).iter = s.iter := rfl
@[simp] theorem State.setXbuf_q (ws : Words) : (s.setXbuf ws).q = s.q := rfl
@[simp] theorem State.setXbuf_cy (ws : Words) : (s.setXbuf ws).cy = s.cy := rfl
@[simp] theorem State.setXbuf_cq (ws : Words) : (s.setXbuf ws).cq = s.cq := rfl
@[simp] theorem State.setXbuf_zhi (ws : Words) : (s.setXbuf ws).zhi = s.zhi := rfl
@[simp] theorem State.setXbuf_acc (ws : Words) : (s.setXbuf ws).acc = s.acc := rfl
@[simp] theorem State.setXbuf_xbuf (ws : Words) : (s.setXbuf ws).xbuf = ws := rfl
@[simp] theorem State.setXbuf_ybuf (ws : Words) : (s.setXbuf ws).ybuf = s.ybuf := rfl
@[simp] theorem State.setXbuf_mbuf (ws : Words) : (s.setXbuf ws).mbuf = s.mbuf := rfl
@[simp] theorem State.setXbuf_zbuf (ws : Words) : (s.setXbuf ws).zbuf = s.zbuf := rfl
@[simp] theorem State.setXbuf_pend (ws : Words) : (s.setXbuf ws).pend = s.pend := rfl
@[simp] theorem State.setXbuf_host (ws : Words) : (s.setXbuf ws).host = s.host := rfl
@[simp] theorem State.setXbuf_reads (ws : Words) : (s.setXbuf ws).reads = s.reads := rfl
@[simp] theorem State.setXbuf_binds (ws : Words) : (s.setXbuf ws).binds = s.binds := rfl
@[simp] theorem State.setXbuf_stall (ws : Words) : (s.setXbuf ws).stall = s.stall := rfl
@[simp] theorem State.setXbuf_sched (ws : Words) : (s.setXbuf ws).sched = s.sched := rfl
@[simp] theorem State.setXbuf_draws (ws : Words) : (s.setXbuf ws).draws = s.draws := rfl
@[simp] theorem State.setXbuf_limbs (ws : Words) : (s.setXbuf ws).limbs = s.limbs := rfl
@[simp] theorem State.setXbuf_radix (ws : Words) : (s.setXbuf ws).radix = s.radix := rfl
@[simp] theorem State.setXbuf_tiles (ws : Words) : (s.setXbuf ws).tiles = s.tiles := rfl
@[simp] theorem State.setXbuf_active (ws : Words) : (s.setXbuf ws).active = s.active := rfl
@[simp] theorem State.setXbuf_tileLo (ws : Words) (t : Nat) : (s.setXbuf ws).tileLo t = s.tileLo t := rfl
@[simp] theorem State.setXbuf_tileEnd (ws : Words) (t : Nat) : (s.setXbuf ws).tileEnd t = s.tileEnd t := rfl
@[simp] theorem State.setXbuf_limbY (ws : Words) : (s.setXbuf ws).limbY = s.limbY := rfl
@[simp] theorem State.setXbuf_limbM (ws : Words) : (s.setXbuf ws).limbM = s.limbM := rfl
@[simp] theorem State.setXbuf_lane (ws : Words) : (s.setXbuf ws).lane = s.lane := rfl

/-! ### setYbuf -/

@[simp] theorem State.setYbuf_params (ws : Words) : (s.setYbuf ws).params = s.params := rfl
@[simp] theorem State.setYbuf_n (ws : Words) : (s.setYbuf ws).n = s.n := rfl
@[simp] theorem State.setYbuf_tiled (ws : Words) : (s.setYbuf ws).tiled = s.tiled := rfl
@[simp] theorem State.setYbuf_minv (ws : Words) : (s.setYbuf ws).minv = s.minv := rfl
@[simp] theorem State.setYbuf_done (ws : Words) : (s.setYbuf ws).done = s.done := rfl
@[simp] theorem State.setYbuf_ovf (ws : Words) : (s.setYbuf ws).ovf = s.ovf := rfl
@[simp] theorem State.setYbuf_zovf (ws : Words) : (s.setYbuf ws).zovf = s.zovf := rfl
@[simp] theorem State.setYbuf_err (ws : Words) : (s.setYbuf ws).err = s.err := rfl
@[simp] theorem State.setYbuf_iter (ws : Words) : (s.setYbuf ws).iter = s.iter := rfl
@[simp] theorem State.setYbuf_q (ws : Words) : (s.setYbuf ws).q = s.q := rfl
@[simp] theorem State.setYbuf_cy (ws : Words) : (s.setYbuf ws).cy = s.cy := rfl
@[simp] theorem State.setYbuf_cq (ws : Words) : (s.setYbuf ws).cq = s.cq := rfl
@[simp] theorem State.setYbuf_zhi (ws : Words) : (s.setYbuf ws).zhi = s.zhi := rfl
@[simp] theorem State.setYbuf_acc (ws : Words) : (s.setYbuf ws).acc = s.acc := rfl
@[simp] theorem State.setYbuf_xbuf (ws : Words) : (s.setYbuf ws).xbuf = s.xbuf := rfl
@[simp] theorem State.setYbuf_ybuf (ws : Words) : (s.setYbuf ws).ybuf = ws := rfl
@[simp] theorem State.setYbuf_mbuf (ws : Words) : (s.setYbuf ws).mbuf = s.mbuf := rfl
@[simp] theorem State.setYbuf_zbuf (ws : Words) : (s.setYbuf ws).zbuf = s.zbuf := rfl
@[simp] theorem State.setYbuf_pend (ws : Words) : (s.setYbuf ws).pend = s.pend := rfl
@[simp] theorem State.setYbuf_host (ws : Words) : (s.setYbuf ws).host = s.host := rfl
@[simp] theorem State.setYbuf_reads (ws : Words) : (s.setYbuf ws).reads = s.reads := rfl
@[simp] theorem State.setYbuf_binds (ws : Words) : (s.setYbuf ws).binds = s.binds := rfl
@[simp] theorem State.setYbuf_stall (ws : Words) : (s.setYbuf ws).stall = s.stall := rfl
@[simp] theorem State.setYbuf_sched (ws : Words) : (s.setYbuf ws).sched = s.sched := rfl
@[simp] theorem State.setYbuf_draws (ws : Words) : (s.setYbuf ws).draws = s.draws := rfl
@[simp] theorem State.setYbuf_limbs (ws : Words) : (s.setYbuf ws).limbs = s.limbs := rfl
@[simp] theorem State.setYbuf_radix (ws : Words) : (s.setYbuf ws).radix = s.radix := rfl
@[simp] theorem State.setYbuf_tiles (ws : Words) : (s.setYbuf ws).tiles = s.tiles := rfl
@[simp] theorem State.setYbuf_active (ws : Words) : (s.setYbuf ws).active = s.active := rfl
@[simp] theorem State.setYbuf_tileLo (ws : Words) (t : Nat) : (s.setYbuf ws).tileLo t = s.tileLo t := rfl
@[simp] theorem State.setYbuf_tileEnd (ws : Words) (t : Nat) : (s.setYbuf ws).tileEnd t = s.tileEnd t := rfl
@[simp] theorem State.setYbuf_limbX (ws : Words) : (s.setYbuf ws).limbX = s.limbX := rfl
@[simp] theorem State.setYbuf_limbM (ws : Words) : (s.setYbuf ws).limbM = s.limbM := rfl
@[simp] theorem State.setYbuf_lane (ws : Words) : (s.setYbuf ws).lane = s.lane := rfl

/-! ### setMbuf -/

@[simp] theorem State.setMbuf_params (ws : Words) : (s.setMbuf ws).params = s.params := rfl
@[simp] theorem State.setMbuf_n (ws : Words) : (s.setMbuf ws).n = s.n := rfl
@[simp] theorem State.setMbuf_tiled (ws : Words) : (s.setMbuf ws).tiled = s.tiled := rfl
@[simp] theorem State.setMbuf_minv (ws : Words) : (s.setMbuf ws).minv = s.minv := rfl
@[simp] theorem State.setMbuf_done (ws : Words) : (s.setMbuf ws).done = s.done := rfl
@[simp] theorem State.setMbuf_ovf (ws : Words) : (s.setMbuf ws).ovf = s.ovf := rfl
@[simp] theorem State.setMbuf_zovf (ws : Words) : (s.setMbuf ws).zovf = s.zovf := rfl
@[simp] theorem State.setMbuf_err (ws : Words) : (s.setMbuf ws).err = s.err := rfl
@[simp] theorem State.setMbuf_iter (ws : Words) : (s.setMbuf ws).iter = s.iter := rfl
@[simp] theorem State.setMbuf_q (ws : Words) : (s.setMbuf ws).q = s.q := rfl
@[simp] theorem State.setMbuf_cy (ws : Words) : (s.setMbuf ws).cy = s.cy := rfl
@[simp] theorem State.setMbuf_cq (ws : Words) : (s.setMbuf ws).cq = s.cq := rfl
@[simp] theorem State.setMbuf_zhi (ws : Words) : (s.setMbuf ws).zhi = s.zhi := rfl
@[simp] theorem State.setMbuf_acc (ws : Words) : (s.setMbuf ws).acc = s.acc := rfl
@[simp] theorem State.setMbuf_xbuf (ws : Words) : (s.setMbuf ws).xbuf = s.xbuf := rfl
@[simp] theorem State.setMbuf_ybuf (ws : Words) : (s.setMbuf ws).ybuf = s.ybuf := rfl
@[simp] theorem State.setMbuf_mbuf (ws : Words) : (s.setMbuf ws).mbuf = ws := rfl
@[simp] theorem State.setMbuf_zbuf (ws : Words) : (s.setMbuf ws).zbuf = s.zbuf := rfl
@[simp] theorem State.setMbuf_pend (ws : Words) : (s.setMbuf ws).pend = s.pend := rfl
@[simp] theorem State.setMbuf_host (ws : Words) : (s.setMbuf ws).host = s.host := rfl
@[simp] theorem State.setMbuf_reads (ws : Words) : (s.setMbuf ws).reads = s.reads := rfl
@[simp] theorem State.setMbuf_binds (ws : Words) : (s.setMbuf ws).binds = s.binds := rfl
@[simp] theorem State.setMbuf_stall (ws : Words) : (s.setMbuf ws).stall = s.stall := rfl
@[simp] theorem State.setMbuf_sched (ws : Words) : (s.setMbuf ws).sched = s.sched := rfl
@[simp] theorem State.setMbuf_draws (ws : Words) : (s.setMbuf ws).draws = s.draws := rfl
@[simp] theorem State.setMbuf_limbs (ws : Words) : (s.setMbuf ws).limbs = s.limbs := rfl
@[simp] theorem State.setMbuf_radix (ws : Words) : (s.setMbuf ws).radix = s.radix := rfl
@[simp] theorem State.setMbuf_tiles (ws : Words) : (s.setMbuf ws).tiles = s.tiles := rfl
@[simp] theorem State.setMbuf_active (ws : Words) : (s.setMbuf ws).active = s.active := rfl
@[simp] theorem State.setMbuf_tileLo (ws : Words) (t : Nat) : (s.setMbuf ws).tileLo t = s.tileLo t := rfl
@[simp] theorem State.setMbuf_tileEnd (ws : Words) (t : Nat) : (s.setMbuf ws).tileEnd t = s.tileEnd t := rfl
@[simp] theorem State.setMbuf_limbX (ws : Words) : (s.setMbuf ws).limbX = s.limbX := rfl
@[simp] theorem State.setMbuf_limbY (ws : Words) : (s.setMbuf ws).limbY = s.limbY := rfl
@[simp] theorem State.setMbuf_lane (ws : Words) : (s.setMbuf ws).lane = s.lane := rfl

/-! ### setZbuf -/

@[simp] theorem State.setZbuf_params (ws : Words) : (s.setZbuf ws).params = s.params := rfl
@[simp] theorem State.setZbuf_n (ws : Words) : (s.setZbuf ws).n = s.n := rfl
@[simp] theorem State.setZbuf_tiled (ws : Words) : (s.setZbuf ws).tiled = s.tiled := rfl
@[simp] theorem State.setZbuf_minv (ws : Words) : (s.setZbuf ws).minv = s.minv := rfl
@[simp] theorem State.setZbuf_done (ws : Words) : (s.setZbuf ws).done = s.done := rfl
@[simp] theorem State.setZbuf_ovf (ws : Words) : (s.setZbuf ws).ovf = s.ovf := rfl
@[simp] theorem State.setZbuf_zovf (ws : Words) : (s.setZbuf ws).zovf = s.zovf := rfl
@[simp] theorem State.setZbuf_err (ws : Words) : (s.setZbuf ws).err = s.err := rfl
@[simp] theorem State.setZbuf_iter (ws : Words) : (s.setZbuf ws).iter = s.iter := rfl
@[simp] theorem State.setZbuf_q (ws : Words) : (s.setZbuf ws).q = s.q := rfl
@[simp] theorem State.setZbuf_cy (ws : Words) : (s.setZbuf ws).cy = s.cy := rfl
@[simp] theorem State.setZbuf_cq (ws : Words) : (s.setZbuf ws).cq = s.cq := rfl
@[simp] theorem State.setZbuf_zhi (ws : Words) : (s.setZbuf ws).zhi = s.zhi := rfl
@[simp] theorem State.setZbuf_acc (ws : Words) : (s.setZbuf ws).acc = s.acc := rfl
@[simp] theorem State.setZbuf_xbuf (ws : Words) : (s.setZbuf ws).xbuf = s.xbuf := rfl
@[simp] theorem State.setZbuf_ybuf (ws : Words) : (s.setZbuf ws).ybuf = s.ybuf := rfl
@[simp] theorem State.setZbuf_mbuf (ws : Words) : (s.setZbuf ws).mbuf = s.mbuf := rfl
@[simp] theorem State.setZbuf_zbuf (ws : Words) : (s.setZbuf ws).zbuf = ws := rfl
@[simp] theorem State.setZbuf_pend (ws : Words) : (s.setZbuf ws).pend = s.pend := rfl
@[simp] theorem State.setZbuf_host (ws : Words) : (s.setZbuf ws).host = s.host := rfl
@[simp] theorem State.setZbuf_reads (ws : Words) : (s.setZbuf ws).reads = s.reads := rfl
@[simp] theorem State.setZbuf_binds (ws : Words) : (s.setZbuf ws).binds = s.binds := rfl
@[simp] theorem State.setZbuf_stall (ws : Words) : (s.setZbuf ws).stall = s.stall := rfl
@[simp] theorem State.setZbuf_sched (ws : Words) : (s.setZbuf ws).sched = s.sched := rfl
@[simp] theorem State.setZbuf_draws (ws : Words) : (s.setZbuf ws).draws = s.draws := rfl
@[simp] theorem State.setZbuf_limbs (ws : Words) : (s.setZbuf ws).limbs = s.limbs := rfl
@[simp] theorem State.setZbuf_radix (ws : Words) : (s.setZbuf ws).radix = s.radix := rfl
@[simp] theorem State.setZbuf_tiles (ws : Words) : (s.setZbuf ws).tiles = s.tiles := rfl
@[simp] theorem State.setZbuf_active (ws : Words) : (s.setZbuf ws).active = s.active := rfl
@[simp] theorem State.setZbuf_tileLo (ws : Words) (t : Nat) : (s.setZbuf ws).tileLo t = s.tileLo t := rfl
@[simp] theorem State.setZbuf_tileEnd (ws : Words) (t : Nat) : (s.setZbuf ws).tileEnd t = s.tileEnd t := rfl
@[simp] theorem State.setZbuf_limbX (ws : Words) : (s.setZbuf ws).limbX = s.limbX := rfl
@[simp] theorem State.setZbuf_limbY (ws : Words) : (s.setZbuf ws).limbY = s.limbY := rfl
@[simp] theorem State.setZbuf_limbM (ws : Words) : (s.setZbuf ws).limbM = s.limbM := rfl
@[simp] theorem State.setZbuf_lane (ws : Words) : (s.setZbuf ws).lane = s.lane := rfl

/-! ### setCy -/

@[simp] theorem State.setCy_params (c : Nat) : (s.setCy c).params = s.params := rfl
@[simp] theorem State.setCy_n (c : Nat) : (s.setCy c).n = s.n := rfl
@[simp] theorem State.setCy_tiled (c : Nat) : (s.setCy c).tiled = s.tiled := rfl
@[simp] theorem State.setCy_minv (c : Nat) : (s.setCy c).minv = s.minv := rfl
@[simp] theorem State.setCy_done (c : Nat) : (s.setCy c).done = s.done := rfl
@[simp] theorem State.setCy_ovf (c : Nat) : (s.setCy c).ovf = s.ovf := rfl
@[simp] theorem State.setCy_zovf (c : Nat) : (s.setCy c).zovf = s.zovf := rfl
@[simp] theorem State.setCy_err (c : Nat) : (s.setCy c).err = s.err := rfl
@[simp] theorem State.setCy_iter (c : Nat) : (s.setCy c).iter = s.iter := rfl
@[simp] theorem State.setCy_q (c : Nat) : (s.setCy c).q = s.q := rfl
@[simp] theorem State.setCy_cy (c : Nat) : (s.setCy c).cy = c := rfl
@[simp] theorem State.setCy_cq (c : Nat) : (s.setCy c).cq = s.cq := rfl
@[simp] theorem State.setCy_zhi (c : Nat) : (s.setCy c).zhi = s.zhi := rfl
@[simp] theorem State.setCy_acc (c : Nat) : (s.setCy c).acc = s.acc := rfl
@[simp] theorem State.setCy_xbuf (c : Nat) : (s.setCy c).xbuf = s.xbuf := rfl
@[simp] theorem State.setCy_ybuf (c : Nat) : (s.setCy c).ybuf = s.ybuf := rfl
@[simp] theorem State.setCy_mbuf (c : Nat) : (s.setCy c).mbuf = s.mbuf := rfl
@[simp] theorem State.setCy_zbuf (c : Nat) : (s.setCy c).zbuf = s.zbuf := rfl
@[simp] theorem State.setCy_pend (c : Nat) : (s.setCy c).pend = s.pend := rfl
@[simp] theorem State.setCy_host (c : Nat) : (s.setCy c).host = s.host := rfl
@[simp] theorem State.setCy_reads (c : Nat) : (s.setCy c).reads = s.reads := rfl
@[simp] theorem State.setCy_binds (c : Nat) : (s.setCy c).binds = s.binds := rfl
@[simp] theorem State.setCy_stall (c : Nat) : (s.setCy c).stall = s.stall := rfl
@[simp] theorem State.setCy_sched (c : Nat) : (s.setCy c).sched = s.sched := rfl
@[simp] theorem State.setCy_draws (c : Nat) : (s.setCy c).draws = s.draws := rfl
@[simp] theorem State.setCy_limbs (c : Nat) : (s.setCy c).limbs = s.limbs := rfl
@[simp] theorem State.setCy_radix (c : Nat) : (s.setCy c).radix = s.radix := rfl
@[simp] theorem State.setCy_tiles (c : Nat) : (s.setCy c).tiles = s.tiles := rfl
@[simp] theorem State.setCy_active (c : Nat) : (s.setCy c).active = s.active := rfl
@[simp] theorem State.setCy_tileLo (c : Nat) (t : Nat) : (s.setCy c).tileLo t = s.tileLo t := rfl
@[simp] theorem State.setCy_tileEnd (c : Nat) (t : Nat) : (s.setCy c).tileEnd t = s.tileEnd t := rfl
@[simp] theorem State.setCy_limbX (c : Nat) : (s.setCy c).limbX = s.limbX := rfl
@[simp] theorem State.setCy_limbY (c : Nat) : (s.setCy c).limbY = s.limbY := rfl
@[simp] theorem State.setCy_limbM (c : Nat) : (s.setCy c).limbM = s.limbM := rfl
@[simp] theorem State.setCy_lane (c : Nat) : (s.setCy c).lane = s.lane := rfl

/-! ### setCq -/

@[simp] theorem State.setCq_params (c : Nat) : (s.setCq c).params = s.params := rfl
@[simp] theorem State.setCq_n (c : Nat) : (s.setCq c).n = s.n := rfl
@[simp] theorem State.setCq_tiled (c : Nat) : (s.setCq c).tiled = s.tiled := rfl
@[simp] theorem State.setCq_minv (c : Nat) : (s.setCq c).minv = s.minv := rfl
@[simp] theorem State.setCq_done (c : Nat) : (s.setCq c).done = s.done := rfl
@[simp] theorem State.setCq_ovf (c : Nat) : (s.setCq c).ovf = s.ovf := rfl
@[simp] theorem State.setCq_zovf (c : Nat) : (s.setCq c).zovf = s.zovf := rfl
@[simp] theorem State.setCq_err (c : Nat) : (s.setCq c).err = s.err := rfl
@[simp] theorem State.setCq_iter (c : Nat) : (s.setCq c).iter = s.iter := rfl
@[simp] theorem State.setCq_q (c : Nat) : (s.setCq c).q = s.q := rfl
@[simp] theorem State.setCq_cy (c : Nat) : (s.setCq c).cy = s.cy := rfl
@[simp] theorem State.setCq_cq (c : Nat) : (s.setCq c).cq = c := rfl
@[simp] theorem State.setCq_zhi (c : Nat) : (s.setCq c).zhi = s.zhi := rfl
@[simp] theorem State.setCq_acc (c : Nat) : (s.setCq c).acc = s.acc := rfl
@[simp] theorem State.setCq_xbuf (c : Nat) : (s.setCq c).xbuf = s.xbuf := rfl
@[simp] theorem State.setCq_ybuf (c : Nat) : (s.setCq c).ybuf = s.ybuf := rfl
@[simp] theorem State.setCq_mbuf (c : Nat) : (s.setCq c).mbuf = s.mbuf := rfl
@[simp] theorem State.setCq_zbuf (c : Nat) : (s.setCq c).zbuf = s.zbuf := rfl
@[simp] theorem State.setCq_pend (c : Nat) : (s.setCq c).pend = s.pend := rfl
@[simp] theorem State.setCq_host (c : Nat) : (s.setCq c).host = s.host := rfl
@[simp] theorem State.setCq_reads (c : Nat) : (s.setCq c).reads = s.reads := rfl
@[simp] theorem State.setCq_binds (c : Nat) : (s.setCq c).binds = s.binds := rfl
@[simp] theorem State.setCq_stall (c : Nat) : (s.setCq c).stall = s.stall := rfl
@[simp] theorem State.setCq_sched (c : Nat) : (s.setCq c).sched = s.sched := rfl
@[simp] theorem State.setCq_draws (c : Nat) : (s.setCq c).draws = s.draws := rfl
@[simp] theorem State.setCq_limbs (c : Nat) : (s.setCq c).limbs = s.limbs := rfl
@[simp] theorem State.setCq_radix (c : Nat) : (s.setCq c).radix = s.radix := rfl
@[simp] theorem State.setCq_tiles (c : Nat) : (s.setCq c).tiles = s.tiles := rfl
@[simp] theorem State.setCq_active (c : Nat) : (s.setCq c).active = s.active := rfl
@[simp] theorem State.setCq_tileLo (c : Nat) (t : Nat) : (s.setCq c).tileLo t = s.tileLo t := rfl
@[simp] theorem State.setCq_tileEnd (c : Nat) (t : Nat) : (s.setCq c).tileEnd t = s.tileEnd t := rfl
@[simp] theorem State.setCq_limbX (c : Nat) : (s.setCq c).limbX = s.limbX := rfl
@[simp] theorem State.setCq_limbY (c : Nat) : (s.setCq c).limbY = s.limbY := rfl
@[simp] theorem State.setCq_limbM (c : Nat) : (s.setCq c).limbM = s.limbM := rfl
@[simp] theorem State.setCq_lane (c : Nat) : (s.setCq c).lane = s.lane := rfl

/-! ### setQ -/

@[simp] theorem State.setQ_params (d : Nat) : (s.setQ d).params = s.params := rfl
@[simp] theorem State.setQ_n (d : Nat) : (s.setQ d).n = s.n := rfl
@[simp] theorem State.setQ_tiled (d : Nat) : (s.setQ d).tiled = s.tiled := rfl
@[simp] theorem State.setQ_minv (d : Nat) : (s.setQ d).minv = s.minv := rfl
@[simp] theorem State.setQ_done (d : Nat) : (s.setQ d).done = s.done := rfl
@[simp] theorem State.setQ_ovf (d : Nat) : (s.setQ d).ovf = s.ovf := rfl
@[simp] theorem State.setQ_zovf (d : Nat) : (s.setQ d).zovf = s.zovf := rfl
@[simp] theorem State.setQ_err (d : Nat) : (s.setQ d).err = s.err := rfl
@[simp] theorem State.setQ_iter (d : Nat) : (s.setQ d).iter = s.iter := rfl
@[simp] theorem State.setQ_q (d : Nat) : (s.setQ d).q = d := rfl
@[simp] theorem State.setQ_cy (d : Nat) : (s.setQ d).cy = s.cy := rfl
@[simp] theorem State.setQ_cq (d : Nat) : (s.setQ d).cq = s.cq := rfl
@[simp] theorem State.setQ_zhi (d : Nat) : (s.setQ d).zhi = s.zhi := rfl
@[simp] theorem State.setQ_acc (d : Nat) : (s.setQ d).acc = s.acc := rfl
@[simp] theorem State.setQ_xbuf (d : Nat) : (s.setQ d).xbuf = s.xbuf := rfl
@[simp] theorem State.setQ_ybuf (d : Nat) : (s.setQ d).ybuf = s.ybuf := rfl
@[simp] theorem State.setQ_mbuf (d : Nat) : (s.setQ d).mbuf = s.mbuf := rfl
@[simp] theorem State.setQ_zbuf (d : Nat) : (s.setQ d).zbuf = s.zbuf := rfl
@[simp] theorem State.setQ_pend (d : Nat) : (s.setQ d).pend = s.pend := rfl
@[simp] theorem State.setQ_host (d : Nat) : (s.setQ d).host = s.host := rfl
@[simp] theorem State.setQ_reads (d : Nat) : (s.setQ d).reads = s.reads := rfl
@[simp] theorem State.setQ_binds (d : Nat) : (s.setQ d).binds = s.binds := rfl
@[simp] theorem State.setQ_stall (d : Nat) : (s.setQ d).stall = s.stall := rfl
@[simp] theorem State.setQ_sched (d : Nat) : (s.setQ d).sched = s.sched := rfl
@[simp] theorem State.setQ_draws (d : Nat) : (s.setQ d).draws = s.draws := rfl
@[simp] theorem State.setQ_limbs (d : Nat) : (s.setQ d).limbs = s.limbs := rfl
@[simp] theorem State.setQ_radix (d : Nat) : (s.setQ d).radix = s.radix := rfl
@[simp] theorem State.setQ_tiles (d : Nat) : (s.setQ d).tiles = s.tiles := rfl
@[simp] theorem State.setQ_active (d : Nat) : (s.setQ d).active = s.active := rfl
@[simp] theorem State.setQ_tileLo (d : Nat) (t : Nat) : (s.setQ d).tileLo t = s.tileLo t := rfl
@[simp] theorem State.setQ_tileEnd (d : Nat) (t : Nat) : (s.setQ d).tileEnd t = s.tileEnd t := rfl
@[simp] theorem State.setQ_limbX (d : Nat) : (s.setQ d).limbX = s.limbX := rfl
@[simp] theorem State.setQ_limbY (d : Nat) : (s.setQ d).limbY = s.limbY := rfl
@[simp] theorem State.setQ_limbM (d : Nat) : (s.setQ d).limbM = s.limbM := rfl
@[simp] theorem State.setQ_lane (d : Nat) : (s.setQ d).lane = s.lane := rfl

/-! ### setIter -/

@[simp] theorem State.setIter_params (i : BitVec 16) : (s.setIter i).params = s.params := rfl
@[simp] theorem State.setIter_n (i : BitVec 16) : (s.setIter i).n = s.n := rfl
@[simp] theorem State.setIter_tiled (i : BitVec 16) : (s.setIter i).tiled = s.tiled := rfl
@[simp] theorem State.setIter_minv (i : BitVec 16) : (s.setIter i).minv = s.minv := rfl
@[simp] theorem State.setIter_done (i : BitVec 16) : (s.setIter i).done = s.done := rfl
@[simp] theorem State.setIter_ovf (i : BitVec 16) : (s.setIter i).ovf = s.ovf := rfl
@[simp] theorem State.setIter_zovf (i : BitVec 16) : (s.setIter i).zovf = s.zovf := rfl
@[simp] theorem State.setIter_err (i : BitVec 16) : (s.setIter i).err = s.err := rfl
@[simp] theorem State.setIter_iter (i : BitVec 16) : (s.setIter i).iter = i := rfl
@[simp] theorem State.setIter_q (i : BitVec 16) : (s.setIter i).q = s.q := rfl
@[simp] theorem State.setIter_cy (i : BitVec 16) : (s.setIter i).cy = s.cy := rfl
@[simp] theorem State.setIter_cq (i : BitVec 16) : (s.setIter i).cq = s.cq := rfl
@[simp] theorem State.setIter_zhi (i : BitVec 16) : (s.setIter i).zhi = s.zhi := rfl
@[simp] theorem State.setIter_acc (i : BitVec 16) : (s.setIter i).acc = s.acc := rfl
@[simp] theorem State.setIter_xbuf (i : BitVec 16) : (s.setIter i).xbuf = s.xbuf := rfl
@[simp] theorem State.setIter_ybuf (i : BitVec 16) : (s.setIter i).ybuf = s.ybuf := rfl
@[simp] theorem State.setIter_mbuf (i : BitVec 16) : (s.setIter i).mbuf = s.mbuf := rfl
@[simp] theorem State.setIter_zbuf (i : BitVec 16) : (s.setIter i).zbuf = s.zbuf := rfl
@[simp] theorem State.setIter_pend (i : BitVec 16) : (s.setIter i).pend = s.pend := rfl
@[simp] theorem State.setIter_host (i : BitVec 16) : (s.setIter i).host = s.host := rfl
@[simp] theorem State.setIter_reads (i : BitVec 16) : (s.setIter i).reads = s.reads := rfl
@[simp] theorem State.setIter_binds (i : BitVec 16) : (s.setIter i).binds = s.binds := rfl
@[simp] theorem State.setIter_stall (i : BitVec 16) : (s.setIter i).stall = s.stall := rfl
@[simp] theorem State.setIter_sched (i : BitVec 16) : (s.setIter i).sched = s.sched := rfl
@[simp] theorem State.setIter_draws (i : BitVec 16) : (s.setIter i).draws = s.draws := rfl
@[simp] theorem State.setIter_limbs (i : BitVec 16) : (s.setIter i).limbs = s.limbs := rfl
@[simp] theorem State.setIter_radix (i : BitVec 16) : (s.setIter i).radix = s.radix := rfl
@[simp] theorem State.setIter_tiles (i : BitVec 16) : (s.setIter i).tiles = s.tiles := rfl
@[simp] theorem State.setIter_active (i : BitVec 16) : (s.setIter i).active = s.active := rfl
@[simp] theorem State.setIter_tileLo (i : BitVec 16) (t : Nat) : (s.setIter i).tileLo t = s.tileLo t := rfl
@[simp] theorem State.setIter_tileEnd (i : BitVec 16) (t : Nat) : (s.setIter i).tileEnd t = s.tileEnd t := rfl
@[simp] theorem State.setIter_limbX (i : BitVec 16) : (s.setIter i).limbX = s.limbX := rfl
@[simp] theorem State.setIter_limbY (i : BitVec 16) : (s.setIter i).limbY = s.limbY := rfl
@[simp] theorem State.setIter_limbM (i : BitVec 16) : (s.setIter i).limbM = s.limbM := rfl
@[simp] theorem State.setIter_lane (i : BitVec 16) : (s.setIter i).lane = s.lane := rfl

/-! ### setMinv -/

@[simp] theorem State.setMinv_params (m : Nat) : (s.setMinv m).params = s.params := rfl
@[simp] theorem State.setMinv_n (m : Nat) : (s.setMinv m).n = s.n := rfl
@[simp] theorem State.setMinv_tiled (m : Nat) : (s.setMinv m).tiled = s.tiled := rfl
@[simp] theorem State.setMinv_minv (m : Nat) : (s.setMinv m).minv = m := rfl
@[simp] theorem State.setMinv_done (m : Nat) : (s.setMinv m).done = s.done := rfl
@[simp] theorem State.setMinv_ovf (m : Nat) : (s.setMinv m).ovf = s.ovf := rfl
@[simp] theorem State.setMinv_zovf (m : Nat) : (s.setMinv m).zovf = s.zovf := rfl
@[simp] theorem State.setMinv_err (m : Nat) : (s.setMinv m).err = s.err := rfl
@[simp] theorem State.setMinv_iter (m : Nat) : (s.setMinv m).iter = s.iter := rfl
@[simp] theorem State.setMinv_q (m : Nat) : (s.setMinv m).q = s.q := rfl
@[simp] theorem State.setMinv_cy (m : Nat) : (s.setMinv m).cy = s.cy := rfl
@[simp] theorem State.setMinv_cq (m : Nat) : (s.setMinv m).cq = s.cq := rfl
@[simp] theorem State.setMinv_zhi (m : Nat) : (s.setMinv m).zhi = s.zhi := rfl
@[simp] theorem State.setMinv_acc (m : Nat) : (s.setMinv m).acc = s.acc := rfl
@[simp] theorem State.setMinv_xbuf (m : Nat) : (s.setMinv m).xbuf = s.xbuf := rfl
@[simp] theorem State.setMinv_ybuf (m : Nat) : (s.setMinv m).ybuf = s.ybuf := rfl
@[simp] theorem State.setMinv_mbuf (m : Nat) : (s.setMinv m).mbuf = s.mbuf := rfl
@[simp] theorem State.setMinv_zbuf (m : Nat) : (s.setMinv m).zbuf = s.zbuf := rfl
@[simp] theorem State.setMinv_pend (m : Nat) : (s.setMinv m).pend = s.pend := rfl
@[simp] theorem State.setMinv_host (m : Nat) : (s.setMinv m).host = s.host := rfl
@[simp] theorem State.setMinv_reads (m : Nat) : (s.setMinv m).reads = s.reads := rfl
@[simp] theorem State.setMinv_binds (m : Nat) : (s.setMinv m).binds = s.binds := rfl
@[simp] theorem State.setMinv_stall (m : Nat) : (s.setMinv m).stall = s.stall := rfl
@[simp] theorem State.setMinv_sched (m : Nat) : (s.setMinv m).sched = s.sched := rfl
@[simp] theorem State.setMinv_draws (m : Nat) : (s.setMinv m).draws = s.draws := rfl
@[simp] theorem State.setMinv_limbs (m : Nat) : (s.setMinv m).limbs = s.limbs := rfl
@[simp] theorem State.setMinv_radix (m : Nat) : (s.setMinv m).radix = s.radix := rfl
@[simp] theorem State.setMinv_tiles (m : Nat) : (s.setMinv m).tiles = s.tiles := rfl
@[simp] theorem State.setMinv_active (m : Nat) : (s.setMinv m).active = s.active := rfl
@[simp] theorem State.setMinv_tileLo (m : Nat) (t : Nat) : (s.setMinv m).tileLo t = s.tileLo t := rfl
@[simp] theorem State.setMinv_tileEnd (m : Nat) (t : Nat) : (s.setMinv m).tileEnd t = s.tileEnd t := rfl
@[simp] theorem State.setMinv_limbX (m : Nat) : (s.setMinv m).limbX = s.limbX := rfl
@[simp] theorem State.setMinv_limbY (m : Nat) : (s.setMinv m).limbY = s.limbY := rfl
@[simp] theorem State.setMinv_limbM (m : Nat) : (s.setMinv m).limbM = s.limbM := rfl
@[simp] theorem State.setMinv_lane (m : Nat) : (s.setMinv m).lane = s.lane := rfl

/-! ### setCtrl -/

@[simp] theorem State.setCtrl_params (k : BitVec 16) (b : Bool) : (s.setCtrl k b).params = s.params := rfl
@[simp] theorem State.setCtrl_n (k : BitVec 16) (b : Bool) : (s.setCtrl k b).n = k := rfl
@[simp] theorem State.setCtrl_tiled (k : BitVec 16) (b : Bool) : (s.setCtrl k b).tiled = b := rfl
@[simp] theorem State.setCtrl_minv (k : BitVec 16) (b : Bool) : (s.setCtrl k b).minv = s.minv := rfl
@[simp] theorem State.setCtrl_done (k : BitVec 16) (b : Bool) : (s.setCtrl k b).done = s.done := rfl
@[simp] theorem State.setCtrl_ovf (k : BitVec 16) (b : Bool) : (s.setCtrl k b).ovf = s.ovf := rfl
@[simp] theorem State.setCtrl_zovf (k : BitVec 16) (b : Bool) : (s.setCtrl k b).zovf = s.zovf := rfl
@[simp] theorem State.setCtrl_err (k : BitVec 16) (b : Bool) : (s.setCtrl k b).err = s.err := rfl
@[simp] theorem State.setCtrl_iter (k : BitVec 16) (b : Bool) : (s.setCtrl k b).iter = s.iter := rfl
@[simp] theorem State.setCtrl_q (k : BitVec 16) (b : Bool) : (s.setCtrl k b).q = s.q := rfl
@[simp] theorem State.setCtrl_cy (k : BitVec 16) (b : Bool) : (s.setCtrl k b).cy = s.cy := rfl
@[simp] theorem State.setCtrl_cq (k : BitVec 16) (b : Bool) : (s.setCtrl k b).cq = s.cq := rfl
@[simp] theorem State.setCtrl_zhi (k : BitVec 16) (b : Bool) : (s.setCtrl k b).zhi = s.zhi := rfl
@[simp] theorem State.setCtrl_acc (k : BitVec 16) (b : Bool) : (s.setCtrl k b).acc = s.acc := rfl
@[simp] theorem State.setCtrl_xbuf (k : BitVec 16) (b : Bool) : (s.setCtrl k b).xbuf = s.xbuf := rfl
@[simp] theorem State.setCtrl_ybuf (k : BitVec 16) (b : Bool) : (s.setCtrl k b).ybuf = s.ybuf := rfl
@[simp] theorem State.setCtrl_mbuf (k : BitVec 16) (b : Bool) : (s.setCtrl k b).mbuf = s.mbuf := rfl
@[simp] theorem State.setCtrl_zbuf (k : BitVec 16) (b : Bool) : (s.setCtrl k b).zbuf = s.zbuf := rfl
@[simp] theorem State.setCtrl_pend (k : BitVec 16) (b : Bool) : (s.setCtrl k b).pend = s.pend := rfl
@[simp] theorem State.setCtrl_host (k : BitVec 16) (b : Bool) : (s.setCtrl k b).host = s.host := rfl
@[simp] theorem State.setCtrl_reads (k : BitVec 16) (b : Bool) : (s.setCtrl k b).reads = s.reads := rfl
@[simp] theorem State.setCtrl_binds (k : BitVec 16) (b : Bool) : (s.setCtrl k b).binds = s.binds := rfl
@[simp] theorem State.setCtrl_stall (k : BitVec 16) (b : Bool) : (s.setCtrl k b).stall = s.stall := rfl
@[simp] theorem State.setCtrl_sched (k : BitVec 16) (b : Bool) : (s.setCtrl k b).sched = s.sched := rfl
@[simp] theorem State.setCtrl_draws (k : BitVec 16) (b : Bool) : (s.setCtrl k b).draws = s.draws := rfl

/-! ### noteOvf -/

@[simp] theorem State.noteOvf_params (b : Bool) : (s.noteOvf b).params = s.params := rfl
@[simp] theorem State.noteOvf_n (b : Bool) : (s.noteOvf b).n = s.n := rfl
@[simp] theorem State.noteOvf_tiled (b : Bool) : (s.noteOvf b).tiled = s.tiled := rfl
@[simp] theorem State.noteOvf_minv (b : Bool) : (s.noteOvf b).minv = s.minv := rfl
@[simp] theorem State.noteOvf_done (b : Bool) : (s.noteOvf b).done = s.done := rfl
@[simp] theorem State.noteOvf_ovf (b : Bool) : (s.noteOvf b).ovf = (s.ovf || b) := rfl
@[simp] theorem State.noteOvf_zovf (b : Bool) : (s.noteOvf b).zovf = s.zovf := rfl
@[simp] theorem State.noteOvf_err (b : Bool) : (s.noteOvf b).err = s.err := rfl
@[simp] theorem State.noteOvf_iter (b : Bool) : (s.noteOvf b).iter = s.iter := rfl
@[simp] theorem State.noteOvf_q (b : Bool) : (s.noteOvf b).q = s.q := rfl
@[simp] theorem State.noteOvf_cy (b : Bool) : (s.noteOvf b).cy = s.cy := rfl
@[simp] theorem State.noteOvf_cq (b : Bool) : (s.noteOvf b).cq = s.cq := rfl
@[simp] theorem State.noteOvf_zhi (b : Bool) : (s.noteOvf b).zhi = s.zhi := rfl
@[simp] theorem State.noteOvf_acc (b : Bool) : (s.noteOvf b).acc = s.acc := rfl
@[simp] theorem State.noteOvf_xbuf (b : Bool) : (s.noteOvf b).xbuf = s.xbuf := rfl
@[simp] theorem State.noteOvf_ybuf (b : Bool) : (s.noteOvf b).ybuf = s.ybuf := rfl
@[simp] theorem State.noteOvf_mbuf (b : Bool) : (s.noteOvf b).mbuf = s.mbuf := rfl
@[simp] theorem State.noteOvf_zbuf (b : Bool) : (s.noteOvf b).zbuf = s.zbuf := rfl
@[simp] theorem State.noteOvf_pend (b : Bool) : (s.noteOvf b).pend = s.pend := rfl
@[simp] theorem State.noteOvf_host (b : Bool) : (s.noteOvf b).host = s.host := rfl
@[simp] theorem State.noteOvf_reads (b : Bool) : (s.noteOvf b).reads = s.reads := rfl
@[simp] theorem State.noteOvf_binds (b : Bool) : (s.noteOvf b).binds = s.binds := rfl
@[simp] theorem State.noteOvf_stall (b : Bool) : (s.noteOvf b).stall = s.stall := rfl
@[simp] theorem State.noteOvf_sched (b : Bool) : (s.noteOvf b).sched = s.sched := rfl
@[simp] theorem State.noteOvf_draws (b : Bool) : (s.noteOvf b).draws = s.draws := rfl
@[simp] theorem State.noteOvf_limbs (b : Bool) : (s.noteOvf b).limbs = s.limbs := rfl
@[simp] theorem State.noteOvf_radix (b : Bool) : (s.noteOvf b).radix = s.radix := rfl
@[simp] theorem State.noteOvf_tiles (b : Bool) : (s.noteOvf b).tiles = s.tiles := rfl
@[simp] theorem State.noteOvf_active (b : Bool) : (s.noteOvf b).active = s.active := rfl
@[simp] theorem State.noteOvf_tileLo (b : Bool) (t : Nat) : (s.noteOvf b).tileLo t = s.tileLo t := rfl
@[simp] theorem State.noteOvf_tileEnd (b : Bool) (t : Nat) : (s.noteOvf b).tileEnd t = s.tileEnd t := rfl
@[simp] theorem State.noteOvf_limbX (b : Bool) : (s.noteOvf b).limbX = s.limbX := rfl
@[simp] theorem State.noteOvf_limbY (b : Bool) : (s.noteOvf b).limbY = s.limbY := rfl
@[simp] theorem State.noteOvf_limbM (b : Bool) : (s.noteOvf b).limbM = s.limbM := rfl
@[simp] theorem State.noteOvf_lane (b : Bool) : (s.noteOvf b).lane = s.lane := rfl

/-! ### publish -/

@[simp] theorem State.publish_params (z : BitVec 64) (b : Bool) : (s.publish z b).params = s.params := rfl
@[simp] theorem State.publish_n (z : BitVec 64) (b : Bool) : (s.publish z b).n = s.n := rfl
@[simp] theorem State.publish_tiled (z : BitVec 64) (b : Bool) : (s.publish z b).tiled = s.tiled := rfl
@[simp] theorem State.publish_minv (z : BitVec 64) (b : Bool) : (s.publish z b).minv = s.minv := rfl
@[simp] theorem State.publish_done (z : BitVec 64) (b : Bool) : (s.publish z b).done = true := rfl
@[simp] theorem State.publish_ovf (z : BitVec 64) (b : Bool) : (s.publish z b).ovf = s.ovf := rfl
@[simp] theorem State.publish_zovf (z : BitVec 64) (b : Bool) : (s.publish z b).zovf = b := rfl
@[simp] theorem State.publish_err (z : BitVec 64) (b : Bool) : (s.publish z b).err = s.err := rfl
@[simp] theorem State.publish_iter (z : BitVec 64) (b : Bool) : (s.publish z b).iter = s.iter := rfl
@[simp] theorem State.publish_q (z : BitVec 64) (b : Bool) : (s.publish z b).q = s.q := rfl
@[simp] theorem State.publish_cy (z : BitVec 64) (b : Bool) : (s.publish z b).cy = s.cy := rfl
@[simp] theorem State.publish_cq (z : BitVec 64) (b : Bool) : (s.publish z b).cq = s.cq := rfl
@[simp] theorem State.publish_zhi (z : BitVec 64) (b : Bool) : (s.publish z b).zhi = z := rfl
@[simp] theorem State.publish_acc (z : BitVec 64) (b : Bool) : (s.publish z b).acc = s.acc := rfl
@[simp] theorem State.publish_xbuf (z : BitVec 64) (b : Bool) : (s.publish z b).xbuf = s.xbuf := rfl
@[simp] theorem State.publish_ybuf (z : BitVec 64) (b : Bool) : (s.publish z b).ybuf = s.ybuf := rfl
@[simp] theorem State.publish_mbuf (z : BitVec 64) (b : Bool) : (s.publish z b).mbuf = s.mbuf := rfl
@[simp] theorem State.publish_zbuf (z : BitVec 64) (b : Bool) : (s.publish z b).zbuf = s.zbuf := rfl
@[simp] theorem State.publish_pend (z : BitVec 64) (b : Bool) : (s.publish z b).pend = s.pend := rfl
@[simp] theorem State.publish_host (z : BitVec 64) (b : Bool) : (s.publish z b).host = s.host := rfl
@[simp] theorem State.publish_reads (z : BitVec 64) (b : Bool) : (s.publish z b).reads = s.reads := rfl
@[simp] theorem State.publish_binds (z : BitVec 64) (b : Bool) : (s.publish z b).binds = s.binds := rfl
@[simp] theorem State.publish_stall (z : BitVec 64) (b : Bool) : (s.publish z b).stall = s.stall := rfl
@[simp] theorem State.publish_sched (z : BitVec 64) (b : Bool) : (s.publish z b).sched = s.sched := rfl
@[simp] theorem State.publish_draws (z : BitVec 64) (b : Bool) : (s.publish z b).draws = s.draws := rfl
@[simp] theorem State.publish_limbs (z : BitVec 64) (b : Bool) : (s.publish z b).limbs = s.limbs := rfl
@[simp] theorem State.publish_radix (z : BitVec 64) (b : Bool) : (s.publish z b).radix = s.radix := rfl
@[simp] theorem State.publish_tiles (z : BitVec 64) (b : Bool) : (s.publish z b).tiles = s.tiles := rfl
@[simp] theorem State.publish_active (z : BitVec 64) (b : Bool) : (s.publish z b).active = s.active := rfl
@[simp] theorem State.publish_tileLo (z : BitVec 64) (b : Bool) (t : Nat) : (s.publish z b).tileLo t = s.tileLo t := rfl
@[simp] theorem State.publish_tileEnd (z : BitVec 64) (b : Bool) (t : Nat) : (s.publish z b).tileEnd t = s.tileEnd t := rfl
@[simp] theorem State.publish_limbX (z : BitVec 64) (b : Bool) : (s.publish z b).limbX = s.limbX := rfl
@[simp] theorem State.publish_limbY (z : BitVec 64) (b : Bool) : (s.publish z b).limbY = s.limbY := rfl
@[simp] theorem State.publish_limbM (z : BitVec 64) (b : Bool) : (s.publish z b).limbM = s.limbM := rfl
@[simp] theorem State.publish_lane (z : BitVec 64) (b : Bool) : (s.publish z b).lane = s.lane := rfl

/-! ### raise -/

@[simp] theorem State.raise_params (e : ErrorCode) : (s.raise e).params = s.params := rfl
@[simp] theorem State.raise_n (e : ErrorCode) : (s.raise e).n = s.n := rfl
@[simp] theorem State.raise_tiled (e : ErrorCode) : (s.raise e).tiled = s.tiled := rfl
@[simp] theorem State.raise_minv (e : ErrorCode) : (s.raise e).minv = s.minv := rfl
@[simp] theorem State.raise_done (e : ErrorCode) : (s.raise e).done = s.done := rfl
@[simp] theorem State.raise_ovf (e : ErrorCode) : (s.raise e).ovf = s.ovf := rfl
@[simp] theorem State.raise_zovf (e : ErrorCode) : (s.raise e).zovf = s.zovf := rfl
@[simp] theorem State.raise_err (e : ErrorCode) : (s.raise e).err = e := rfl
@[simp] theorem State.raise_iter (e : ErrorCode) : (s.raise e).iter = s.iter := rfl
@[simp] theorem State.raise_q (e : ErrorCode) : (s.raise e).q = s.q := rfl
@[simp] theorem State.raise_cy (e : ErrorCode) : (s.raise e).cy = s.cy := rfl
@[simp] theorem State.raise_cq (e : ErrorCode) : (s.raise e).cq = s.cq := rfl
@[simp] theorem State.raise_zhi (e : ErrorCode) : (s.raise e).zhi = s.zhi := rfl
@[simp] theorem State.raise_acc (e : ErrorCode) : (s.raise e).acc = s.acc := rfl
@[simp] theorem State.raise_xbuf (e : ErrorCode) : (s.raise e).xbuf = s.xbuf := rfl
@[simp] theorem State.raise_ybuf (e : ErrorCode) : (s.raise e).ybuf = s.ybuf := rfl
@[simp] theorem State.raise_mbuf (e : ErrorCode) : (s.raise e).mbuf = s.mbuf := rfl
@[simp] theorem State.raise_zbuf (e : ErrorCode) : (s.raise e).zbuf = s.zbuf := rfl
@[simp] theorem State.raise_pend (e : ErrorCode) : (s.raise e).pend = s.pend := rfl
@[simp] theorem State.raise_host (e : ErrorCode) : (s.raise e).host = s.host := rfl
@[simp] theorem State.raise_reads (e : ErrorCode) : (s.raise e).reads = s.reads := rfl
@[simp] theorem State.raise_binds (e : ErrorCode) : (s.raise e).binds = s.binds := rfl
@[simp] theorem State.raise_stall (e : ErrorCode) : (s.raise e).stall = s.stall := rfl
@[simp] theorem State.raise_sched (e : ErrorCode) : (s.raise e).sched = s.sched := rfl
@[simp] theorem State.raise_draws (e : ErrorCode) : (s.raise e).draws = s.draws := rfl
@[simp] theorem State.raise_limbs (e : ErrorCode) : (s.raise e).limbs = s.limbs := rfl
@[simp] theorem State.raise_radix (e : ErrorCode) : (s.raise e).radix = s.radix := rfl
@[simp] theorem State.raise_tiles (e : ErrorCode) : (s.raise e).tiles = s.tiles := rfl
@[simp] theorem State.raise_active (e : ErrorCode) : (s.raise e).active = s.active := rfl
@[simp] theorem State.raise_tileLo (e : ErrorCode) (t : Nat) : (s.raise e).tileLo t = s.tileLo t := rfl
@[simp] theorem State.raise_tileEnd (e : ErrorCode) (t : Nat) : (s.raise e).tileEnd t = s.tileEnd t := rfl
@[simp] theorem State.raise_limbX (e : ErrorCode) : (s.raise e).limbX = s.limbX := rfl
@[simp] theorem State.raise_limbY (e : ErrorCode) : (s.raise e).limbY = s.limbY := rfl
@[simp] theorem State.raise_limbM (e : ErrorCode) : (s.raise e).limbM = s.limbM := rfl
@[simp] theorem State.raise_lane (e : ErrorCode) : (s.raise e).lane = s.lane := rfl

/-! ### respond -/

@[simp] theorem State.respond_params (v : Data) : (s.respond v).params = s.params := rfl
@[simp] theorem State.respond_n (v : Data) : (s.respond v).n = s.n := rfl
@[simp] theorem State.respond_tiled (v : Data) : (s.respond v).tiled = s.tiled := rfl
@[simp] theorem State.respond_minv (v : Data) : (s.respond v).minv = s.minv := rfl
@[simp] theorem State.respond_done (v : Data) : (s.respond v).done = s.done := rfl
@[simp] theorem State.respond_ovf (v : Data) : (s.respond v).ovf = s.ovf := rfl
@[simp] theorem State.respond_zovf (v : Data) : (s.respond v).zovf = s.zovf := rfl
@[simp] theorem State.respond_err (v : Data) : (s.respond v).err = s.err := rfl
@[simp] theorem State.respond_iter (v : Data) : (s.respond v).iter = s.iter := rfl
@[simp] theorem State.respond_q (v : Data) : (s.respond v).q = s.q := rfl
@[simp] theorem State.respond_cy (v : Data) : (s.respond v).cy = s.cy := rfl
@[simp] theorem State.respond_cq (v : Data) : (s.respond v).cq = s.cq := rfl
@[simp] theorem State.respond_zhi (v : Data) : (s.respond v).zhi = s.zhi := rfl
@[simp] theorem State.respond_acc (v : Data) : (s.respond v).acc = s.acc := rfl
@[simp] theorem State.respond_xbuf (v : Data) : (s.respond v).xbuf = s.xbuf := rfl
@[simp] theorem State.respond_ybuf (v : Data) : (s.respond v).ybuf = s.ybuf := rfl
@[simp] theorem State.respond_mbuf (v : Data) : (s.respond v).mbuf = s.mbuf := rfl
@[simp] theorem State.respond_zbuf (v : Data) : (s.respond v).zbuf = s.zbuf := rfl
@[simp] theorem State.respond_pend (v : Data) : (s.respond v).pend = s.pend := rfl
@[simp] theorem State.respond_host (v : Data) : (s.respond v).host = s.host := rfl
@[simp] theorem State.respond_reads (v : Data) : (s.respond v).reads = s.reads ++ [v] := rfl
@[simp] theorem State.respond_binds (v : Data) : (s.respond v).binds = s.binds := rfl
@[simp] theorem State.respond_stall (v : Data) : (s.respond v).stall = s.stall := rfl
@[simp] theorem State.respond_sched (v : Data) : (s.respond v).sched = s.sched := rfl
@[simp] theorem State.respond_draws (v : Data) : (s.respond v).draws = s.draws := rfl
@[simp] theorem State.respond_limbs (v : Data) : (s.respond v).limbs = s.limbs := rfl
@[simp] theorem State.respond_radix (v : Data) : (s.respond v).radix = s.radix := rfl
@[simp] theorem State.respond_tiles (v : Data) : (s.respond v).tiles = s.tiles := rfl
@[simp] theorem State.respond_active (v : Data) : (s.respond v).active = s.active := rfl
@[simp] theorem State.respond_tileLo (v : Data) (t : Nat) : (s.respond v).tileLo t = s.tileLo t := rfl
@[simp] theorem State.respond_tileEnd (v : Data) (t : Nat) : (s.respond v).tileEnd t = s.tileEnd t := rfl
@[simp] theorem State.respond_limbX (v : Data) : (s.respond v).limbX = s.limbX := rfl
@[simp] theorem State.respond_limbY (v : Data) : (s.respond v).limbY = s.limbY := rfl
@[simp] theorem State.respond_limbM (v : Data) : (s.respond v).limbM = s.limbM := rfl
@[simp] theorem State.respond_lane (v : Data) : (s.respond v).lane = s.lane := rfl

/-! ### hold -/

@[simp] theorem State.hold_params (u : BusWord) : (s.hold u).params = s.params := rfl
@[simp] theorem State.hold_n (u : BusWord) : (s.hold u).n = s.n := rfl
@[simp] theorem State.hold_tiled (u : BusWord) : (s.hold u).tiled = s.tiled := rfl
@[simp] theorem State.hold_minv (u : BusWord) : (s.hold u).minv = s.minv := rfl
@[simp] theorem State.hold_done (u : BusWord) : (s.hold u).done = s.done := rfl
@[simp] theorem State.hold_ovf (u : BusWord) : (s.hold u).ovf = s.ovf := rfl
@[simp] theorem State.hold_zovf (u : BusWord) : (s.hold u).zovf = s.zovf := rfl
@[simp] theorem State.hold_err (u : BusWord) : (s.hold u).err = s.err := rfl
@[simp] theorem State.hold_iter (u : BusWord) : (s.hold u).iter = s.iter := rfl
@[simp] theorem State.hold_q (u : BusWord) : (s.hold u).q = s.q := rfl
@[simp] theorem State.hold_cy (u : BusWord) : (s.hold u).cy = s.cy := rfl
@[simp] theorem State.hold_cq (u : BusWord) : (s.hold u).cq = s.cq := rfl
@[simp] theorem State.hold_zhi (u : BusWord) : (s.hold u).zhi = s.zhi := rfl
@[simp] theorem State.hold_acc (u : BusWord) : (s.hold u).acc = s.acc := rfl
@[simp] theorem State.hold_xbuf (u : BusWord) : (s.hold u).xbuf = s.xbuf := rfl
@[simp] theorem State.hold_ybuf (u : BusWord) : (s.hold u).ybuf = s.ybuf := rfl
@[simp] theorem State.hold_mbuf (u : BusWord) : (s.hold u).mbuf = s.mbuf := rfl
@[simp] theorem State.hold_zbuf (u : BusWord) : (s.hold u).zbuf = s.zbuf := rfl
@[simp] theorem State.hold_pend (u : BusWord) : (s.hold u).pend = s.pend := rfl
@[simp] theorem State.hold_host (u : BusWord) : (s.hold u).host = .txn none u :: s.host := rfl
@[simp] theorem State.hold_reads (u : BusWord) : (s.hold u).reads = s.reads := rfl
@[simp] theorem State.hold_binds (u : BusWord) : (s.hold u).binds = s.binds := rfl
@[simp] theorem State.hold_stall (u : BusWord) : (s.hold u).stall = s.stall := rfl
@[simp] theorem State.hold_sched (u : BusWord) : (s.hold u).sched = s.sched := rfl
@[simp] theorem State.hold_draws (u : BusWord) : (s.hold u).draws = s.draws := rfl
@[simp] theorem State.hold_limbs (u : BusWord) : (s.hold u).limbs = s.limbs := rfl
@[simp] theorem State.hold_radix (u : BusWord) : (s.hold u).radix = s.radix := rfl
@[simp] theorem State.hold_tiles (u : BusWord) : (s.hold u).tiles = s.tiles := rfl
@[simp] theorem State.hold_active (u : BusWord) : (s.hold u).active = s.active := rfl
@[simp] theorem State.hold_tileLo (u : BusWord) (t : Nat) : (s.hold u).tileLo t = s.tileLo t := rfl
@[simp] theorem State.hold_tileEnd (u : BusWord) (t : Nat) : (s.hold u).tileEnd t = s.tileEnd t := rfl
@[simp] theorem State.hold_limbX (u : BusWord) : (s.hold u).limbX = s.limbX := rfl
@[simp] theorem State.hold_limbY (u : BusWord) : (s.hold u).limbY = s.limbY := rfl
@[simp] theorem State.hold_limbM (u : BusWord) : (s.hold u).limbM = s.limbM := rfl
@[simp] theorem State.hold_lane (u : BusWord) : (s.hold u).lane = s.lane := rfl

/-! ### setHost -/

@[simp] theorem State.setHost_params (items : List HostItem) : (s.setHost items).params = s.params := rfl
@[simp] theorem State.setHost_n (items : List HostItem) : (s.setHost items).n = s.n := rfl
@[simp] theorem State.setHost_tiled (items : List HostItem) : (s.setHost items).tiled = s.tiled := rfl
@[simp] theorem State.setHost_minv (items : List HostItem) : (s.setHost items).minv = s.minv := rfl
@[simp] theorem State.setHost_done (items : List HostItem) : (s.setHost items).done = s.done := rfl
@[simp] theorem State.setHost_ovf (items : List HostItem) : (s.setHost items).ovf = s.ovf := rfl
@[simp] theorem State.setHost_zovf (items : List HostItem) : (s.setHost items).zovf = s.zovf := rfl
@[simp] theorem State.setHost_err (items : List HostItem) : (s.setHost items).err = s.err := rfl
@[simp] theorem State.setHost_iter (items : List HostItem) : (s.setHost items).iter = s.iter := rfl
@[simp] theorem State.setHost_q (items : List HostItem) : (s.setHost items).q = s.q := rfl
@[simp] theorem State.setHost_cy (items : List HostItem) : (s.setHost items).cy = s.cy := rfl
@[simp] theorem State.setHost_cq (items : List HostItem) : (s.setHost items).cq = s.cq := rfl
@[simp] theorem State.setHost_zhi (items : List HostItem) : (s.setHost items).zhi = s.zhi := rfl
@[simp] theorem State.setHost_acc (items : List HostItem) : (s.setHost items).acc = s.acc := rfl
@[simp] theorem State.setHost_xbuf (items : List HostItem) : (s.setHost items).xbuf = s.xbuf := rfl
@[simp] theorem State.setHost_ybuf (items : List HostItem) : (s.setHost items).ybuf = s.ybuf := rfl
@[simp] theorem State.setHost_mbuf (items : List HostItem) : (s.setHost items).mbuf = s.mbuf := rfl
@[simp] theorem State.setHost_zbuf (items : List HostItem) : (s.setHost items).zbuf = s.zbuf := rfl
@[simp] theorem State.setHost_pend (items : List HostItem) : (s.setHost items).pend = s.pend := rfl
@[simp] theorem State.setHost_host (items : List HostItem) : (s.setHost items).host = items := rfl
@[simp] theorem State.setHost_reads (items : List HostItem) : (s.setHost items).reads = s.reads := rfl
@[simp] theorem State.setHost_binds (items : List HostItem) : (s.setHost items).binds = s.binds := rfl
@[simp] theorem State.setHost_stall (items : List HostItem) : (s.setHost items).stall = s.stall := rfl
@[simp] theorem State.setHost_sched (items : List HostItem) : (s.setHost items).sched = s.sched := rfl
@[simp] theorem State.setHost_draws (items : List HostItem) : (s.setHost items).draws = s.draws := rfl
@[simp] theorem State.setHost_limbs (items : List HostItem) : (s.setHost items).limbs = s.limbs := rfl
@[simp] theorem State.setHost_radix (items : List HostItem) : (s.setHost items).radix = s.radix := rfl
@[simp] theorem State.setHost_tiles (items : List HostItem) : (s.setHost items).tiles = s.tiles := rfl
@[simp] theorem State.setHost_active (items : List HostItem) : (s.setHost items).active = s.active := rfl
@[simp] theorem State.setHost_tileLo (items : List HostItem) (t : Nat) : (s.setHost items).tileLo t = s.tileLo t := rfl
@[simp] theorem State.setHost_tileEnd (items : List HostItem) (t : Nat) : (s.setHost items).tileEnd t = s.tileEnd t := rfl
@[simp] theorem State.setHost_limbX (items : List HostItem) : (s.setHost items).limbX = s.limbX := rfl
@[simp] theorem State.setHost_limbY (items : List HostItem) : (s.setHost items).limbY = s.limbY := rfl
@[simp] theorem State.setHost_limbM (items : List HostItem) : (s.setHost items).limbM = s.limbM := rfl
@[simp] theorem State.setHost_lane (items : List HostItem) : (s.setHost items).lane = s.lane := rfl

/-! ### retire -/

@[simp] theorem State.retire_params : (s.retire).params = s.params := rfl
@[simp] theorem State.retire_n : (s.retire).n = s.n := rfl
@[simp] theorem State.retire_tiled : (s.retire).tiled = s.tiled := rfl
@[simp] theorem State.retire_minv : (s.retire).minv = s.minv := rfl
@[simp] theorem State.retire_done : (s.retire).done = s.done := rfl
@[simp] theorem State.retire_ovf : (s.retire).ovf = s.ovf := rfl
@[simp] theorem State.retire_zovf : (s.retire).zovf = s.zovf := rfl
@[simp] theorem State.retire_err : (s.retire).err = s.err := rfl
@[simp] theorem State.retire_iter : (s.retire).iter = s.iter := rfl
@[simp] theorem State.retire_q : (s.retire).q = s.q := rfl
@[simp] theorem State.retire_cy : (s.retire).cy = s.cy := rfl
@[simp] theorem State.retire_cq : (s.retire).cq = s.cq := rfl
@[simp] theorem State.retire_zhi : (s.retire).zhi = s.zhi := rfl
@[simp] theorem State.retire_acc : (s.retire).acc = s.acc := rfl
@[simp] theorem State.retire_xbuf : (s.retire).xbuf = s.xbuf := rfl
@[simp] theorem State.retire_ybuf : (s.retire).ybuf = s.ybuf := rfl
@[simp] theorem State.retire_mbuf : (s.retire).mbuf = s.mbuf := rfl
@[simp] theorem State.retire_zbuf : (s.retire).zbuf = s.zbuf := rfl
@[simp] theorem State.retire_pend : (s.retire).pend = none := rfl
@[simp] theorem State.retire_host : (s.retire).host = s.host := rfl
@[simp] theorem State.retire_reads : (s.retire).reads = s.reads := rfl
@[simp] theorem State.retire_binds : (s.retire).binds = s.binds := rfl
@[simp] theorem State.retire_stall : (s.retire).stall = 0 := rfl
@[simp] theorem State.retire_sched : (s.retire).sched = s.sched := rfl
@[simp] theorem State.retire_draws : (s.retire).draws = s.draws := rfl
@[simp] theorem State.retire_limbs : (s.retire).limbs = s.limbs := rfl
@[simp] theorem State.retire_radix : (s.retire).radix = s.radix := rfl
@[simp] theorem State.retire_tiles : (s.retire).tiles = s.tiles := rfl
@[simp] theorem State.retire_active : (s.retire).active = s.active := rfl
@[simp] theorem State.retire_tileLo (t : Nat) : (s.retire).tileLo t = s.tileLo t := rfl
@[simp] theorem State.retire_tileEnd (t : Nat) : (s.retire).tileEnd t = s.tileEnd t := rfl
@[simp] theorem State.retire_limbX : (s.retire).limbX = s.limbX := rfl
@[simp] theorem State.retire_limbY : (s.retire).limbY = s.limbY := rfl
@[simp] theorem State.retire_limbM : (s.retire).limbM = s.limbM := rfl
@[simp] theorem State.retire_lane : (s.retire).lane = s.lane := rfl

/-! ### letPass -/

@[simp] theorem State.letPass_params : (s.letPass).params = s.params := rfl
@[simp] theorem State.letPass_n : (s.letPass).n = s.n := rfl
@[simp] theorem State.letPass_tiled : (s.letPass).tiled = s.tiled := rfl
@[simp] theorem State.letPass_minv : (s.letPass).minv = s.minv := rfl
@[simp] theorem State.letPass_done : (s.letPass).done = s.done := rfl
@[simp] theorem State.letPass_ovf : (s.letPass).ovf = s.ovf := rfl
@[simp] theorem State.letPass_zovf : (s.letPass).zovf = s.zovf := rfl
@[simp] theorem State.letPass_err : (s.letPass).err = s.err := rfl
@[simp] theorem State.letPass_iter : (s.letPass).iter = s.iter := rfl
@[simp] theorem State.letPass_q : (s.letPass).q = s.q := rfl
@[simp] theorem State.letPass_cy : (s.letPass).cy = s.cy := rfl
@[simp] theorem State.letPass_cq : (s.letPass).cq = s.cq := rfl
@[simp] theorem State.letPass_zhi : (s.letPass).zhi = s.zhi := rfl
@[simp] theorem State.letPass_acc : (s.letPass).acc = s.acc := rfl
@[simp] theorem State.letPass_xbuf : (s.letPass).xbuf = s.xbuf := rfl
@[simp] theorem State.letPass_ybuf : (s.letPass).ybuf = s.ybuf := rfl
@[simp] theorem State.letPass_mbuf : (s.letPass).mbuf = s.mbuf := rfl
@[simp] theorem State.letPass_zbuf : (s.letPass).zbuf = s.zbuf := rfl
@[simp] theorem State.letPass_pend : (s.letPass).pend = s.pend := rfl
@[simp] theorem State.letPass_host : (s.letPass).host = s.host := rfl
@[simp] theorem State.letPass_reads : (s.letPass).reads = s.reads := rfl
@[simp] theorem State.letPass_binds : (s.letPass).binds = s.binds := rfl
@[simp] theorem State.letPass_stall : (s.letPass).stall = s.stall - 1 := rfl
@[simp] theorem State.letPass_sched : (s.letPass).sched = s.sched := rfl
@[simp] theorem State.letPass_draws : (s.letPass).draws = s.draws := rfl
@[simp] theorem State.letPass_limbs : (s.letPass).limbs = s.limbs := rfl
@[simp] theorem State.letPass_radix : (s.letPass).radix = s.radix := rfl
@[simp] theorem State.letPass_tiles : (s.letPass).tiles = s.tiles := rfl
@[simp] theorem State.letPass_active : (s.letPass).active = s.active := rfl
@[simp] theorem State.letPass_tileLo (t : Nat) : (s.letPass).tileLo t = s.tileLo t := rfl
@[simp] theorem State.letPass_tileEnd (t : Nat) : (s.letPass).tileEnd t = s.tileEnd t := rfl
@[simp] theorem State.letPass_limbX : (s.letPass).limbX = s.limbX := rfl
@[simp] theorem State.letPass_limbY : (s.letPass).limbY = s.limbY := rfl
@[simp] theorem State.letPass_limbM : (s.letPass).limbM = s.limbM := rfl
@[simp] theorem State.letPass_lane : (s.letPass).lane = s.lane := rfl

/-! ### latch -/

@[simp] theorem State.latch_params (d : CmdWord) : (s.latch d).params = s.params := rfl
@[simp] theorem State.latch_n (d : CmdWord) : (s.latch d).n = s.n := rfl
@[simp] theorem State.latch_tiled (d : CmdWord) : (s.latch d).tiled = s.tiled := rfl
@[simp] theorem State.latch_minv (d : CmdWord) : (s.latch d).minv = s.minv := rfl
@[simp] theorem State.latch_done (d : CmdWord) : (s.latch d).done = s.done := rfl
@[simp] theorem State.latch_ovf (d : CmdWord) : (s.latch d).ovf = s.ovf := rfl
@[simp] theorem State.latch_zovf (d : CmdWord) : (s.latch d).zovf = s.zovf := rfl
@[simp] theorem State.latch_err (d : CmdWord) : (s.latch d).err = s.err := rfl
@[simp] theorem State.latch_iter (d : CmdWord) : (s.latch d).iter = s.iter := rfl
@[simp] theorem State.latch_q (d : CmdWord) : (s.latch d).q = s.q := rfl
@[simp] theorem State.latch_cy (d : CmdWord) : (s.latch d).cy = s.cy := rfl
@[simp] theorem State.latch_cq (d : CmdWord) : (s.latch d).cq = s.cq := rfl
@[simp] theorem State.latch_zhi (d : CmdWord) : (s.latch d).zhi = s.zhi := rfl
@[simp] theorem State.latch_acc (d : CmdWord) : (s.latch d).acc = s.acc := rfl
@[simp] theorem State.latch_xbuf (d : CmdWord) : (s.latch d).xbuf = s.xbuf := rfl
@[simp] theorem State.latch_ybuf (d : CmdWord) : (s.latch d).ybuf = s.ybuf := rfl
@[simp] theorem State.latch_mbuf (d : CmdWord) : (s.latch d).mbuf = s.mbuf := rfl
@[simp] theorem State.latch_zbuf (d : CmdWord) : (s.latch d).zbuf = s.zbuf := rfl
@[simp] theorem State.latch_pend (d : CmdWord) : (s.latch d).pend = some d := rfl
@[simp] theorem State.latch_host (d : CmdWord) : (s.latch d).host = s.host := rfl
@[simp] theorem State.latch_reads (d : CmdWord) : (s.latch d).reads = s.reads := rfl
@[simp] theorem State.latch_binds (d : CmdWord) : (s.latch d).binds = s.binds := rfl
@[simp] theorem State.latch_stall (d : CmdWord) : (s.latch d).stall = nextStall s := rfl
@[simp] theorem State.latch_sched (d : CmdWord) : (s.latch d).sched = s.sched.tail := rfl
@[simp] theorem State.latch_draws (d : CmdWord) : (s.latch d).draws = s.draws + if s.sched.isEmpty then 1 else 0 := rfl
@[simp] theorem State.latch_limbs (d : CmdWord) : (s.latch d).limbs = s.limbs := rfl
@[simp] theorem State.latch_radix (d : CmdWord) : (s.latch d).radix = s.radix := rfl
@[simp] theorem State.latch_tiles (d : CmdWord) : (s.latch d).tiles = s.tiles := rfl
@[simp] theorem State.latch_active (d : CmdWord) : (s.latch d).active = s.active := rfl
@[simp] theorem State.latch_tileLo (d : CmdWord) (t : Nat) : (s.latch d).tileLo t = s.tileLo t := rfl
@[simp] theorem State.latch_tileEnd (d : CmdWord) (t : Nat) : (s.latch d).tileEnd t = s.tileEnd t := rfl
@[simp] theorem State.latch_limbX (d : CmdWord) : (s.latch d).limbX = s.limbX := rfl
@[simp] theorem State.latch_limbY (d : CmdWord) : (s.latch d).limbY = s.limbY := rfl
@[simp] theorem State.latch_limbM (d : CmdWord) : (s.latch d).limbM = s.limbM := rfl
@[simp] theorem State.latch_lane (d : CmdWord) : (s.latch d).lane = s.lane := rfl

/-! ### bindRead -/

@[simp] theorem State.bindRead_params (x : Option String) : (s.bindRead x).params = s.params := rfl
@[simp] theorem State.bindRead_n (x : Option String) : (s.bindRead x).n = s.n := rfl
@[simp] theorem State.bindRead_tiled (x : Option String) : (s.bindRead x).tiled = s.tiled := rfl
@[simp] theorem State.bindRead_minv (x : Option String) : (s.bindRead x).minv = s.minv := rfl
@[simp] theorem State.bindRead_done (x : Option String) : (s.bindRead x).done = s.done := rfl
@[simp] theorem State.bindRead_ovf (x : Option String) : (s.bindRead x).ovf = s.ovf := rfl
@[simp] theorem State.bindRead_zovf (x : Option String) : (s.bindRead x).zovf = s.zovf := rfl
@[simp] theorem State.bindRead_err (x : Option String) : (s.bindRead x).err = s.err := rfl
@[simp] theorem State.bindRead_iter (x : Option String) : (s.bindRead x).iter = s.iter := rfl
@[simp] theorem State.bindRead_q (x : Option String) : (s.bindRead x).q = s.q := rfl
@[simp] theorem State.bindRead_cy (x : Option String) : (s.bindRead x).cy = s.cy := rfl
@[simp] theorem State.bindRead_cq (x : Option String) : (s.bindRead x).cq = s.cq := rfl
@[simp] theorem State.bindRead_zhi (x : Option String) : (s.bindRead x).zhi = s.zhi := rfl
@[simp] theorem State.bindRead_acc (x : Option String) : (s.bindRead x).acc = s.acc := rfl
@[simp] theorem State.bindRead_xbuf (x : Option String) : (s.bindRead x).xbuf = s.xbuf := rfl
@[simp] theorem State.bindRead_ybuf (x : Option String) : (s.bindRead x).ybuf = s.ybuf := rfl
@[simp] theorem State.bindRead_mbuf (x : Option String) : (s.bindRead x).mbuf = s.mbuf := rfl
@[simp] theorem State.bindRead_zbuf (x : Option String) : (s.bindRead x).zbuf = s.zbuf := rfl
@[simp] theorem State.bindRead_pend (x : Option String) : (s.bindRead x).pend = s.pend := rfl
@[simp] theorem State.bindRead_host (x : Option String) : (s.bindRead x).host = s.host := rfl
@[simp] theorem State.bindRead_reads (x : Option String) : (s.bindRead x).reads = s.reads := rfl
@[simp] theorem State.bindRead_binds (x : Option String) : (s.bindRead x).binds = s.binds ++ (x.map fun y => (y, s.reads.getLastD 0)).toList := rfl
@[simp] theorem State.bindRead_stall (x : Option String) : (s.bindRead x).stall = s.stall := rfl
@[simp] theorem State.bindRead_sched (x : Option String) : (s.bindRead x).sched = s.sched := rfl
@[simp] theorem State.bindRead_draws (x : Option String) : (s.bindRead x).draws = s.draws := rfl
@[simp] theorem State.bindRead_limbs (x : Option String) : (s.bindRead x).limbs = s.limbs := rfl
@[simp] theorem State.bindRead_radix (x : Option String) : (s.bindRead x).radix = s.radix := rfl
@[simp] theorem State.bindRead_tiles (x : Option String) : (s.bindRead x).tiles = s.tiles := rfl
@[simp] theorem State.bindRead_active (x : Option String) : (s.bindRead x).active = s.active := rfl
@[simp] theorem State.bindRead_tileLo (x : Option String) (t : Nat) : (s.bindRead x).tileLo t = s.tileLo t := rfl
@[simp] theorem State.bindRead_tileEnd (x : Option String) (t : Nat) : (s.bindRead x).tileEnd t = s.tileEnd t := rfl
@[simp] theorem State.bindRead_limbX (x : Option String) : (s.bindRead x).limbX = s.limbX := rfl
@[simp] theorem State.bindRead_limbY (x : Option String) : (s.bindRead x).limbY = s.limbY := rfl
@[simp] theorem State.bindRead_limbM (x : Option String) : (s.bindRead x).limbM = s.limbM := rfl
@[simp] theorem State.bindRead_lane (x : Option String) : (s.bindRead x).lane = s.lane := rfl

/-! ### clearBody -/

@[simp] theorem clearBody_params : (clearBody s).params = s.params := rfl
@[simp] theorem clearBody_n : (clearBody s).n = s.n := rfl
@[simp] theorem clearBody_tiled : (clearBody s).tiled = s.tiled := rfl
@[simp] theorem clearBody_minv : (clearBody s).minv = s.minv := rfl
@[simp] theorem clearBody_done : (clearBody s).done = false := rfl
@[simp] theorem clearBody_ovf : (clearBody s).ovf = false := rfl
@[simp] theorem clearBody_zovf : (clearBody s).zovf = false := rfl
@[simp] theorem clearBody_err : (clearBody s).err = .none := rfl
@[simp] theorem clearBody_iter : (clearBody s).iter = 0 := rfl
@[simp] theorem clearBody_q : (clearBody s).q = 0 := rfl
@[simp] theorem clearBody_cy : (clearBody s).cy = 0 := rfl
@[simp] theorem clearBody_cq : (clearBody s).cq = 0 := rfl
@[simp] theorem clearBody_zhi : (clearBody s).zhi = 0 := rfl
@[simp] theorem clearBody_acc : (clearBody s).acc = List.replicate s.params.nMax 0 := rfl
@[simp] theorem clearBody_xbuf : (clearBody s).xbuf = s.xbuf := rfl
@[simp] theorem clearBody_ybuf : (clearBody s).ybuf = s.ybuf := rfl
@[simp] theorem clearBody_mbuf : (clearBody s).mbuf = s.mbuf := rfl
@[simp] theorem clearBody_zbuf : (clearBody s).zbuf = s.zbuf := rfl
@[simp] theorem clearBody_pend : (clearBody s).pend = s.pend := rfl
@[simp] theorem clearBody_host : (clearBody s).host = s.host := rfl
@[simp] theorem clearBody_reads : (clearBody s).reads = s.reads := rfl
@[simp] theorem clearBody_binds : (clearBody s).binds = s.binds := rfl
@[simp] theorem clearBody_stall : (clearBody s).stall = s.stall := rfl
@[simp] theorem clearBody_sched : (clearBody s).sched = s.sched := rfl
@[simp] theorem clearBody_draws : (clearBody s).draws = s.draws := rfl
@[simp] theorem clearBody_limbs : (clearBody s).limbs = s.limbs := rfl
@[simp] theorem clearBody_radix : (clearBody s).radix = s.radix := rfl
@[simp] theorem clearBody_tiles : (clearBody s).tiles = s.tiles := rfl
@[simp] theorem clearBody_active : (clearBody s).active = s.active := rfl
@[simp] theorem clearBody_limbX : (clearBody s).limbX = s.limbX := rfl
@[simp] theorem clearBody_limbY : (clearBody s).limbY = s.limbY := rfl
@[simp] theorem clearBody_limbM : (clearBody s).limbM = s.limbM := rfl

end Sys2Proof.Machine
end

