-- ==== Sys2Proof/Laws/Words.lean ====
section
/-! SUPPORT. Arrays: a read after a write, what a write leaves alone, and that a write keeps the array's one form. -/

namespace Sys2Proof.Machine

variable {ws : Words}

theorem wordAt_of_length_le {k : Nat} (h : ws.length ≤ k) : wordAt ws k = 0 := by
  simp [wordAt, List.getD_eq_getElem?_getD, List.getElem?_eq_none h]

theorem wordAt_mem {k : Nat} (h : k < ws.length) : wordAt ws k ∈ ws := by
  simp [wordAt, List.getD_eq_getElem?_getD, List.getElem?_eq_getElem h]

theorem wordAt_replicate (count k : Nat) : wordAt (List.replicate count 0) k = 0 := by
  simp only [wordAt, List.getD_eq_getElem?_getD, List.getElem?_replicate]
  split <;> rfl

/-- Two arrays of one length that read the same everywhere are equal. -/
theorem words_ext {ws' : Words} (hlen : ws.length = ws'.length) (h : ∀ k, wordAt ws k = wordAt ws' k) :
    ws = ws' := by
  refine List.ext_getElem hlen fun k h₁ h₂ => ?_
  have := h k
  simpa [wordAt, List.getD_eq_getElem?_getD, List.getElem?_eq_getElem h₁, List.getElem?_eq_getElem h₂] using this

@[simp] theorem length_writeWord (k v : Nat) : (writeWord ws k v).length = ws.length := by
  simp [writeWord]

/-- Reading after writing one word. -/
theorem wordAt_writeWord (k v j : Nat) :
    wordAt (writeWord ws k v) j = if j = k ∧ k < ws.length then v else wordAt ws j := by
  simp only [wordAt, writeWord, List.getD_eq_getElem?_getD, List.getElem?_set]
  by_cases hj : k = j
  · subst hj
    by_cases hk : k < ws.length <;> simp [hk]
  · simp [hj, Ne.symm hj]

@[simp] theorem length_writeRange (lo stop : Nat) (f : Nat → Nat) : (writeRange lo stop f ws).length = ws.length := by
  simp [writeRange]

/-- Reading after writing a range of words. -/
theorem wordAt_writeRange (lo stop : Nat) (f : Nat → Nat) (g : Nat) :
    wordAt (writeRange lo stop f ws) g =
      if (lo ≤ g ∧ g < stop) ∧ g < ws.length then f g else wordAt ws g := by
  simp only [wordAt, writeRange, List.getD_eq_getElem?_getD, List.getElem?_mapIdx]
  by_cases hg : g < ws.length
  · simp only [List.getElem?_eq_getElem hg, Option.map_some, Option.getD_some, hg, and_true]
  · simp [hg]

/-- A range inside the array reads as written, and the rest as before. -/
theorem wordAt_writeRange_of_le {lo stop : Nat} (f : Nat → Nat) (h : stop ≤ ws.length) (g : Nat) :
    wordAt (writeRange lo stop f ws) g = if lo ≤ g ∧ g < stop then f g else wordAt ws g := by
  rw [wordAt_writeRange]
  by_cases hg : lo ≤ g ∧ g < stop
  · simp [hg, lt_of_lt_of_le hg.2 h]
  · simp [hg]

/-- A word of a well-formed array fits its width. -/
theorem wordAt_lt {count width : Nat} (h : Words.wf count width ws) (k : Nat) : wordAt ws k < 2 ^ width := by
  by_cases hk : k < ws.length
  · exact h.2 _ (wordAt_mem hk)
  · rw [wordAt_of_length_le (Nat.le_of_not_lt hk)]
    positivity

theorem wf_writeWord {count width k v : Nat} (h : Words.wf count width ws) (hv : v < 2 ^ width) :
    Words.wf count width (writeWord ws k v) := by
  refine ⟨by simpa using h.1, fun x hx => ?_⟩
  rcases List.mem_or_eq_of_mem_set hx with hx | rfl
  · exact h.2 x hx
  · exact hv

theorem wf_writeRange {count width lo stop : Nat} {f : Nat → Nat} (h : Words.wf count width ws)
    (hf : ∀ g, lo ≤ g → g < stop → f g < 2 ^ width) : Words.wf count width (writeRange lo stop f ws) := by
  refine ⟨by simpa using h.1, fun x hx => ?_⟩
  obtain ⟨g, hg, rfl⟩ := List.mem_iff_getElem.mp hx
  simp only [writeRange, List.getElem_mapIdx]
  split
  · next hr => exact hf g hr.1 hr.2
  · exact h.2 _ (List.getElem_mem _)

theorem wf_replicate (count width : Nat) : Words.wf count width (List.replicate count 0) := by
  refine ⟨List.length_replicate, fun x hx => ?_⟩
  rw [List.eq_of_mem_replicate hx]
  positivity

theorem wf_resetWords (draw : Nat → Nat) (base count width : Nat) :
    Words.wf count width (resetWords draw base count width) := by
  refine ⟨by simp [resetWords], fun x hx => ?_⟩
  obtain ⟨k, -, rfl⟩ := List.mem_map.mp hx
  exact Nat.mod_lt _ (by positivity)

end Sys2Proof.Machine
end

