-- ==== Sys2Proof/Laws/Operands.lean ====
section
/-! SUPPORT. The quantities of 00_scope R10: where the tiles and the active lanes lie, the bounds of limbs, and the value a digit
vector represents. -/

namespace Sys2Proof.Machine

/-! ## Tiles and lanes -/

/-- The parameters of the build are in range, whatever the free values are. -/
theorem config_params_valid : Config.params.Valid := by
  have hd : 1 + Config.rawWay % 4096 ≤ 4096 := by omega
  have hpos : 0 < 4096 / (1 + Config.rawWay % 4096) := Nat.div_pos hd (by omega)
  have hs : 1 + Config.rawSMax % (4096 / (1 + Config.rawWay % 4096)) ≤ 4096 / (1 + Config.rawWay % 4096) := by
    have := Nat.mod_lt Config.rawSMax hpos
    omega
  refine ⟨?_, ?_, ?_, ?_, ?_⟩ <;> simp only [Config.params, Params.nMax]
  · omega
  · omega
  · omega
  · omega
  · exact le_trans (Nat.mul_le_mul_left _ hs) (Nat.mul_div_le _ _)

variable {s : State}

theorem tiles_untiled (h : s.tiled = false) : s.tiles = 1 := by simp [State.tiles, h]

theorem active_untiled (h : s.tiled = false) : s.active = s.limbs := by simp [State.active, h]

theorem active_tiled (h : s.tiled = true) : s.active = s.tiles * s.params.way := by simp [State.active, h]

/-- With TILED = 1 the tiles cover the limbs: N ≤ S · WAY. -/
theorem limbs_le_tiles_mul (hway : 0 < s.params.way) (h : s.tiled = true) : s.limbs ≤ s.tiles * s.params.way := by
  have := Nat.lt_div_mul_add (a := s.limbs + s.params.way - 1) hway
  simp only [State.tiles, h, if_true]
  omega

theorem limbs_le_active (hway : 0 < s.params.way) : s.limbs ≤ s.active := by
  cases h : s.tiled
  · exact (active_untiled h).ge
  · rw [active_tiled h]
    exact limbs_le_tiles_mul hway h

/-- The active lanes lie inside the accumulator. -/
theorem active_le_nMax (hp : s.params.Valid) (hc : s.Configured) : s.active ≤ s.params.nMax := by
  cases h : s.tiled
  · rw [active_untiled h, Params.nMax]
    exact le_trans (hc.2.1 h) (Nat.le_mul_of_pos_right _ hp.2.2.2.1)
  · rw [active_tiled h, Params.nMax, Nat.mul_comm]
    refine Nat.mul_le_mul_left _ ?_
    have hN := hc.2.2 h
    simp only [State.tiles, h, if_true]
    rw [Nat.div_le_iff_le_mul_add_pred hp.2.2.1, Nat.mul_comm]
    have : s.params.sMax * s.params.way = s.params.way * s.params.sMax := Nat.mul_comm _ _
    omega

theorem limbs_le_nMax (hp : s.params.Valid) (hc : s.Configured) : s.limbs ≤ s.params.nMax :=
  le_trans (limbs_le_active hp.2.2.1) (active_le_nMax hp hc)

theorem active_pos (hway : 0 < s.params.way) (hc : s.Configured) : 0 < s.active :=
  lt_of_lt_of_le hc.1 (limbs_le_active hway)

theorem tiles_pos (hway : 0 < s.params.way) (hc : s.Configured) : 0 < s.tiles := by
  cases h : s.tiled
  · simp [tiles_untiled h]
  · have := limbs_le_tiles_mul hway h
    have := hc.1
    by_contra h0
    simp only [Nat.not_lt, Nat.le_zero] at h0
    simp_all

theorem tileEnd_le_active (s : State) (t : Nat) : s.tileEnd t ≤ s.active := Nat.min_le_right _ _

/-- A tile of the current configuration has a lane. -/
theorem tileLo_lt_tileEnd (hway : 0 < s.params.way) (hc : s.Configured) {t : Nat} (ht : t < s.tiles) :
    s.tileLo t < s.tileEnd t := by
  refine Nat.lt_min.mpr ⟨by simp only [State.tileLo]; omega, ?_⟩
  cases h : s.tiled
  · rw [tiles_untiled h] at ht
    obtain rfl : t = 0 := by omega
    simpa [State.tileLo] using active_pos hway hc
  · rw [active_tiled h, State.tileLo]
    exact Nat.mul_lt_mul_of_pos_right ht hway

/-- With the configuration accepted, a tile's lanes lie inside the accumulator. -/
theorem tileEnd_le_length (hm : Memory.wf s) (hp : s.params.Valid) (hc : s.Configured) (t : Nat) :
    s.tileEnd t ≤ s.acc.length := by
  rw [hm.1.1]
  exact le_trans (tileEnd_le_active s t) (active_le_nMax hp hc)

/-! ## Limbs -/

theorem limbOf_of_le {limbs g : Nat} (buf : Words) (h : limbs ≤ g) : limbOf limbs buf g = 0 := by
  simp [limbOf, Nat.not_lt.mpr h]

theorem limbOf_lt {count width limbs : Nat} {buf : Words} (h : Words.wf count width buf) (g : Nat) :
    limbOf limbs buf g < 2 ^ width := by
  unfold limbOf
  split
  · exact wordAt_lt h _
  · positivity

/-! ## The value of a digit vector -/

@[simp] theorem valueOf_zero (w : Nat) (d : Nat → Nat) : valueOf w d 0 = 0 := rfl

theorem valueOf_succ (w : Nat) (d : Nat → Nat) (k : Nat) :
    valueOf w d (k + 1) = valueOf w d k + d k * 2 ^ (w * k) := rfl

theorem valueOf_congr {w k : Nat} {d e : Nat → Nat} (h : ∀ g < k, d g = e g) : valueOf w d k = valueOf w e k := by
  induction k with
  | zero => rfl
  | succ k ih =>
    rw [valueOf_succ, valueOf_succ, ih fun g hg => h g (by omega), h k (by omega)]

theorem valueOf_add (w : Nat) (d e : Nat → Nat) (k : Nat) :
    valueOf w (fun g => d g + e g) k = valueOf w d k + valueOf w e k := by
  induction k with
  | zero => rfl
  | succ k ih => simp only [valueOf_succ, ih]; ring

theorem valueOf_mul (w : Nat) (d : Nat → Nat) (c k : Nat) :
    valueOf w (fun g => d g * c) k = valueOf w d k * c := by
  induction k with
  | zero => simp
  | succ k ih => simp only [valueOf_succ, ih]; ring

/-- Taking the lowest digit off: the rest has one power of r less. -/
theorem valueOf_succ_bottom (w : Nat) (d : Nat → Nat) (k : Nat) :
    valueOf w d (k + 1) = d 0 + 2 ^ w * valueOf w (fun g => d (g + 1)) k := by
  induction k with
  | zero => simp [valueOf_succ]
  | succ k ih =>
    rw [valueOf_succ, ih, valueOf_succ, Nat.mul_add, Nat.mul_succ, pow_add]
    ring

/-- Digits below r represent a value below r^k. -/
theorem valueOf_lt {w k : Nat} {d : Nat → Nat} (h : ∀ g < k, d g < 2 ^ w) : valueOf w d k < 2 ^ (w * k) := by
  induction k with
  | zero => simp
  | succ k ih =>
    have h₁ := ih fun g hg => h g (by omega)
    have h₂ : (d k + 1) * 2 ^ (w * k) ≤ 2 ^ w * 2 ^ (w * k) := Nat.mul_le_mul_right _ (h k (by omega))
    rw [valueOf_succ, Nat.mul_succ, Nat.add_comm, pow_add]
    linarith [h₁, h₂]

/-- The base-r digits of `v` represent `v` modulo r^k. -/
theorem valueOf_digitOf (w v k : Nat) : valueOf w (digitOf w v) k = v % 2 ^ (w * k) := by
  induction k with
  | zero => simp [Nat.mod_one]
  | succ k ih =>
    rw [valueOf_succ, ih, digitOf, Nat.mul_comm k w, Nat.mul_succ, pow_add, Nat.mod_mul]
    ring

theorem digitOf_lt (w v g : Nat) : digitOf w v g < 2 ^ w := Nat.mod_lt _ (by positivity)

end Sys2Proof.Machine
end

