-- ==== Sys2Proof/Laws/Ops.lean ====
section
/-! SUPPORT. One lemma for each shared operation that says what it can do, so that proofs cite it instead of unfolding it. -/

namespace Sys2Proof.Machine

variable {s : State}

/-! ## Checks -/

/-- The configuration check passes exactly on the configurations the commands accept. -/
theorem checkConfig_eq_none : checkConfig s = none ↔ s.Configured := by
  unfold checkConfig State.Configured
  by_cases h0 : s.limbs = 0
  · simp [h0]
  · cases ht : s.tiled <;> by_cases hc : s.params.way < s.limbs <;>
      by_cases hc' : s.params.way * s.params.sMax < s.limbs <;> simp [h0, hc, hc'] <;> omega

theorem checkTile_eq_none {t : Nat} : checkTile t s = none ↔ t < s.tiles := by
  simp [checkTile]

theorem checkIter_eq_none : checkIter s = none ↔ s.iter.toNat < s.limbs := by
  simp [checkIter]

@[simp] theorem firstError_nil : firstError [] s = none := rfl

@[simp] theorem firstError_cons (c : State → Option ErrorCode) (cs : List (State → Option ErrorCode)) :
    firstError (c :: cs) s = (c s).or (firstError cs s) := by
  unfold firstError
  rw [List.findSome?_cons]
  cases c s <;> rfl

/-- What a command can do: it fails and writes STATUS.ERR only, or its checks pass and its body runs. -/
theorem command_cases (checks : List (State → Option ErrorCode)) (body : State → State) :
    (∃ e, firstError checks s = some e ∧ s.command checks body = s.raise e) ∨
      (firstError checks s = none ∧ s.command checks body = body s) := by
  unfold State.command
  cases h : firstError checks s with
  | some e => exact .inl ⟨e, rfl, rfl⟩
  | none => exact .inr ⟨rfl, rfl⟩

/-- A command whose checks pass runs its body. -/
theorem command_of_passes {checks : List (State → Option ErrorCode)} {body : State → State}
    (h : firstError checks s = none) : s.command checks body = body s := by
  simp [State.command, h]

/-- A command with a failing check writes STATUS.ERR only. -/
theorem command_of_fails {checks : List (State → Option ErrorCode)} {body : State → State} {e : ErrorCode}
    (h : firstError checks s = some e) : s.command checks body = s.raise e := by
  simp [State.command, h]

/-! ## Multiply-accumulate -/

/-- A lane wraps exactly when some lane of the tile has an exact sum of 2^LANE or more. -/
theorem macWraps_iff (limb : Nat → Nat) (digit t : Nat) :
    macWraps s limb digit t = true ↔ ∃ g, s.inTile t g ∧ 2 ^ s.params.lane ≤ macSum s limb digit g := by
  simp only [macWraps, List.any_eq_true, List.mem_range, Bool.and_eq_true, decide_eq_true_eq, State.inTile]
  exact ⟨fun ⟨g, h, h₁, h₂⟩ => ⟨g, ⟨h₁, h⟩, h₂⟩, fun ⟨g, ⟨h₁, h⟩, h₂⟩ => ⟨g, h, h₁, h₂⟩⟩

/-- A multiply-accumulate writes the accumulator and STATUS.OVF, and nothing else. -/
theorem macTile_eq (limb : Nat → Nat) (digit t : Nat) :
    macTile limb digit t s =
      { s with acc := (macTile limb digit t s).acc, ovf := s.ovf || macWraps s limb digit t } := rfl

/-- Every lane after a multiply-accumulate on a tile inside the accumulator. -/
theorem macTile_lane {limb : Nat → Nat} {digit t : Nat} (h : s.tileEnd t ≤ s.acc.length) (g : Nat) :
    (macTile limb digit t s).lane g =
      if s.inTile t g then macSum s limb digit g % 2 ^ s.params.lane else s.lane g := by
  simp only [macTile, State.noteOvf_lane, State.setAcc_lane, wordAt_writeRange_of_le _ h, State.inTile]
  rfl

@[simp] theorem macTile_length (limb : Nat → Nat) (digit t : Nat) :
    (macTile limb digit t s).acc.length = s.acc.length := by
  simp [macTile]

/-! ## Carry propagation -/

@[simp] theorem carryIn_zero (c : Nat) : carryIn 0 c = 0 := rfl

theorem carryIn_pos {t : Nat} (h : t ≠ 0) (c : Nat) : carryIn t c = c := by simp [carryIn, h]

/-- Every lane after a propagation on a tile inside the accumulator. -/
theorem wordAt_cpropAcc {t cin : Nat} (h : s.tileEnd t ≤ s.acc.length) (g : Nat) :
    wordAt (cpropAcc s t cin) g = if s.inTile t g then cpropLane s t cin g else s.lane g := by
  simp only [cpropAcc, wordAt_writeRange_of_le _ h, State.inTile]
  rfl

@[simp] theorem length_cpropAcc (t cin : Nat) : (cpropAcc s t cin).length = s.acc.length := by
  simp [cpropAcc]

/-- The outgoing carry of a tile of LANE-bit lanes fits W bits (41_carry_propagation R131). -/
theorem cpropOut_lt (hm : Memory.wf s) (t : Nat) : cpropOut s t < 2 ^ s.params.w := by
  have h := wordAt_lt hm.1 (s.tileEnd t - 1)
  rw [Params.lane, Nat.two_mul, pow_add] at h
  exact Nat.div_lt_of_lt_mul h

/-- A propagated lane is at most 2r − 2 (41_carry_propagation R131). -/
theorem cpropLane_lt (hm : Memory.wf s) {cin : Nat} (hc : cin < 2 ^ s.params.w) (t g : Nat) :
    cpropLane s t cin g + 2 ≤ 2 * 2 ^ s.params.w := by
  have hlow : s.lane g % 2 ^ s.params.w < 2 ^ s.params.w := Nat.mod_lt _ (by positivity)
  have hup : (if g = s.tileLo t then carryIn t cin else s.lane (g - 1) / 2 ^ s.params.w) < 2 ^ s.params.w := by
    split
    · unfold carryIn
      split
      · positivity
      · exact hc
    · have h := wordAt_lt hm.1 (g - 1)
      rw [Params.lane, Nat.two_mul, pow_add] at h
      exact Nat.div_lt_of_lt_mul h
  unfold cpropLane
  omega

/-- 2r − 2 fits a lane: 2^(W+1) ≤ 2^(2W) for W ≥ 1 (41_carry_propagation R131). -/
theorem two_mul_radix_le (hw : 1 ≤ s.params.w) : 2 * 2 ^ s.params.w ≤ 2 ^ s.params.lane := by
  rw [Params.lane, ← pow_succ']
  exact Nat.pow_le_pow_right (by omega) (by omega)

/-! ## Shift -/

/-- Every lane after the Montgomery shift of an active vector inside the accumulator. -/
theorem wordAt_shiftAcc (h : s.active ≤ s.acc.length) (g : Nat) :
    wordAt (shiftAcc s) g =
      if g < s.active then (if g + 1 < s.active then s.lane (g + 1) else s.cy + s.cq) else s.lane g := by
  simp only [shiftAcc, wordAt_writeRange_of_le _ h, Nat.zero_le, true_and]
  rfl

@[simp] theorem length_shiftAcc : (shiftAcc s).length = s.acc.length := by simp [shiftAcc]

/-- ITER counts a shift, up to 0xFFFF. -/
theorem nextIter_toNat (i : BitVec 16) : (nextIter i).toNat = min (i.toNat + 1) 0xFFFF := by
  rw [nextIter, BitVec.toNat_ofNat, Nat.mod_eq_of_lt]
  omega

/-! ## Repetition -/

/-- What one run of a body keeps, any number of runs keeps. -/
theorem repeatBody_keeps {P : State → Prop} {body : State → State} (h : ∀ s, P s → P (body s)) (k : Nat) :
    ∀ s, P s → P (repeatBody k body s) := by
  induction k with
  | zero => exact fun _ hs => hs
  | succ k ih => exact fun s hs => ih _ (h s hs)

/-- What the body keeps on each tile of a range, the walk over the range keeps. -/
theorem forTiles_keeps {P : State → Prop} {body : Nat → State → State} (k : Nat) :
    ∀ t s, (∀ u s, t ≤ u → u < t + k → P s → P (body u s)) → P s → P (forTiles k t body s) := by
  induction k with
  | zero => exact fun _ _ _ hs => hs
  | succ k ih =>
    refine fun t s h hs => ih (t + 1) _ (fun u s hu hu' => h u s (by omega) (by omega)) ?_
    exact h t s (Nat.le_refl t) (by omega) hs

/-- The walk over tiles, split at its last tile. -/
theorem forTiles_succ_last (k : Nat) (body : Nat → State → State) :
    ∀ t s, forTiles (k + 1) t body s = body (t + k) (forTiles k t body s) := by
  induction k with
  | zero => exact fun _ _ => rfl
  | succ k ih =>
    intro t s
    rw [forTiles, ih (t + 1) (body t s), forTiles]
    congr 1
    omega

/-- Repetition, split at its last run. -/
theorem repeatBody_succ_last (k : Nat) (body : State → State) :
    ∀ s, repeatBody (k + 1) body s = body (repeatBody k body s) := by
  induction k with
  | zero => exact fun _ => rfl
  | succ k ih => exact fun s => ih (body s)

/-! ## The host port -/

/-- Every address of the array regions below N_MAX names its array word, and no other address of the regions names anything. -/
theorem decodeRegion_cases (p : Params) (a : Addr) :
    (indexOf a < p.nMax ∧
        ((regionOf a = 1 ∧ decodeRegion p a = .xbuf (indexOf a)) ∨ (regionOf a = 2 ∧ decodeRegion p a = .ybuf (indexOf a)) ∨
          (regionOf a = 3 ∧ decodeRegion p a = .mbuf (indexOf a)) ∨ (regionOf a = 4 ∧ decodeRegion p a = .zbuf (indexOf a)) ∨
          (regionOf a = 5 ∧ decodeRegion p a = .acc (indexOf a)))) ∨
      decodeRegion p a = .unmapped := by
  unfold decodeRegion
  split
  · next h => split <;> simp_all
  · exact .inr rfl

/-- Region and index make up the address. -/
theorem toNat_eq_region_index (a : Addr) : a.toNat = regionOf a * 4096 + indexOf a := by
  simp only [regionOf, indexOf, BitVec.extractLsb'_toNat, Nat.shiftRight_eq_div_pow]
  have := a.isLt
  omega

/-- A write effect that is no write of CMD leaves the latch and the schedule alone. -/
theorem writeTarget_pend {d : Data} {x : PortTarget} (h : x ≠ .cmd) :
    (writeTarget s d x).pend = s.pend ∧ (writeTarget s d x).stall = s.stall ∧
      (writeTarget s d x).sched = s.sched ∧ (writeTarget s d x).draws = s.draws := by
  cases x <;> simp_all [writeTarget]

/-- No write effect touches what only commands write (40_host_access R106, R107, R112). -/
theorem writeTarget_engine {d : Data} (x : PortTarget) :
    let u := writeTarget s d x
    u.params = s.params ∧ u.done = s.done ∧ u.ovf = s.ovf ∧ u.zovf = s.zovf ∧ u.err = s.err ∧ u.iter = s.iter ∧ u.q = s.q ∧
      u.cy = s.cy ∧ u.cq = s.cq ∧ u.zhi = s.zhi ∧ u.acc = s.acc ∧ u.zbuf = s.zbuf ∧ u.host = s.host ∧ u.reads = s.reads ∧
      u.binds = s.binds := by
  cases x <;> simp [writeTarget]

theorem lowLimb_lt (s : State) (d : Data) : lowLimb s d < 2 ^ s.params.w := Nat.mod_lt _ (by positivity)

end Sys2Proof.Machine
end

