-- ==== Sys2Proof/Laws/Memory.lean ====
section
/-! SUPPORT. Every operation keeps the one form of the arrays (Memory.wf), and the reset state has it. -/

namespace Sys2Proof.Machine

variable {s : State}

/-- The arrays after reset have their form, for every build and every draw. -/
theorem memory_wf_resetWith (p : Params) (draw : Nat → Nat) : Memory.wf (State.resetWith p draw) :=
  ⟨wf_resetWords _ _ _ _, wf_resetWords _ _ _ _, wf_resetWords _ _ _ _, wf_resetWords _ _ _ _, wf_resetWords _ _ _ _⟩

theorem memory_wf_reset : Memory.wf State.reset := memory_wf_resetWith _ _

theorem memory_wf_resetEvent (s : State) (draw : Nat → Nat) : Memory.wf (s.resetEvent draw) :=
  memory_wf_resetWith s.params draw

/-- Replacing the accumulator by one of the same form keeps the form. -/
theorem memory_wf_of_acc {u : State} (h : Memory.wf s) (hp : u.params = s.params)
    (ha : Words.wf s.params.nMax s.params.lane u.acc) (hx : u.xbuf = s.xbuf) (hy : u.ybuf = s.ybuf)
    (hm : u.mbuf = s.mbuf) (hz : u.zbuf = s.zbuf) : Memory.wf u := by
  refine ⟨?_, ?_, ?_, ?_, ?_⟩ <;> simp only [hp, hx, hy, hm, hz]
  exacts [ha, h.2.1, h.2.2.1, h.2.2.2.1, h.2.2.2.2]

theorem memory_wf_writeTarget (h : Memory.wf s) (d : Data) (x : PortTarget) : Memory.wf (writeTarget s d x) := by
  cases x with
  | xbuf k => exact ⟨h.1, wf_writeWord h.2.1 (lowLimb_lt s d), h.2.2⟩
  | ybuf k => exact ⟨h.1, h.2.1, wf_writeWord h.2.2.1 (lowLimb_lt s d), h.2.2.2⟩
  | mbuf k => exact ⟨h.1, h.2.1, h.2.2.1, wf_writeWord h.2.2.2.1 (lowLimb_lt s d), h.2.2.2.2⟩
  | id | param | ctrl | minv | cmd | status | iter | q | cy | cq | zhi | zbuf | acc | unmapped => exact h

theorem memory_wf_clearBody (h : Memory.wf s) : Memory.wf (clearBody s) :=
  memory_wf_of_acc h rfl (wf_replicate _ _) rfl rfl rfl rfl

theorem memory_wf_macTile (h : Memory.wf s) (limb : Nat → Nat) (digit t : Nat) : Memory.wf (macTile limb digit t s) :=
  memory_wf_of_acc h rfl (wf_writeRange h.1 fun _ _ _ => Nat.mod_lt _ (by positivity)) rfl rfl rfl rfl

/-- A propagation writes lanes of at most 2r − 2 (41_carry_propagation R131). -/
theorem wf_cpropAcc (h : Memory.wf s) (hw : 1 ≤ s.params.w) {cin : Nat} (hc : cin < 2 ^ s.params.w) (t : Nat) :
    Words.wf s.params.nMax s.params.lane (cpropAcc s t cin) := by
  refine wf_writeRange h.1 fun g _ _ => ?_
  have h₁ := cpropLane_lt h hc t g
  have h₂ := two_mul_radix_le hw
  omega

theorem memory_wf_cpyBody (h : Memory.wf s) (hw : 1 ≤ s.params.w) (hc : s.cy < 2 ^ s.params.w) (t : Nat) :
    Memory.wf (cpyBody t s) :=
  memory_wf_of_acc h rfl (wf_cpropAcc h hw hc t) rfl rfl rfl rfl

theorem memory_wf_cpqBody (h : Memory.wf s) (hw : 1 ≤ s.params.w) (hc : s.cq < 2 ^ s.params.w) (t : Nat) :
    Memory.wf (cpqBody t s) :=
  memory_wf_of_acc h rfl (wf_cpropAcc h hw hc t) rfl rfl rfl rfl

theorem memory_wf_qgenBody (h : Memory.wf s) : Memory.wf (qgenBody s) := h

/-- A shift moves lanes down and writes CY + CQ into the top one (42_redc_microops R162). -/
theorem memory_wf_shiftBody (h : Memory.wf s) (hw : 1 ≤ s.params.w) (hy : s.cy < 2 ^ s.params.w)
    (hq : s.cq < 2 ^ s.params.w) : Memory.wf (shiftBody s) := by
  refine memory_wf_of_acc h rfl (wf_writeRange h.1 fun g _ _ => ?_) rfl rfl rfl rfl
  split
  · exact wordAt_lt h.1 _
  · have := two_mul_radix_le hw
    omega

/-- A canonical lane is below r, so it fits a lane. -/
theorem memory_wf_finalBody (h : Memory.wf s) : Memory.wf (finalBody s) := by
  have hd : ∀ v g, digitOf s.params.w v g < 2 ^ s.params.lane := fun v g =>
    lt_of_lt_of_le (digitOf_lt _ _ _) (Nat.pow_le_pow_right (by omega) (by simp [Params.lane]; omega))
  exact ⟨wf_writeRange h.1 fun g _ _ => hd _ g, h.2.1, h.2.2.1, h.2.2.2.1,
    wf_writeRange h.2.2.2.2 fun k _ _ => digitOf_lt _ _ _⟩

/-! ## The state invariant on the bodies of the micro-operations -/

theorem wf_clearBody (h : s.Wf) : (clearBody s).Wf := by
  have hr : 0 < 2 ^ s.params.w := by positivity
  exact ⟨h.1, h.2.1, hr, hr, hr, memory_wf_clearBody h.2.2.2.2.2⟩

theorem wf_macTile (h : s.Wf) (limb : Nat → Nat) (digit t : Nat) : (macTile limb digit t s).Wf :=
  ⟨h.1, h.2.1, h.2.2.1, h.2.2.2.1, h.2.2.2.2.1, memory_wf_macTile h.2.2.2.2.2 limb digit t⟩

theorem wf_cpyBody (h : s.Wf) (t : Nat) : (cpyBody t s).Wf :=
  ⟨h.1, h.2.1, h.2.2.1, cpropOut_lt h.2.2.2.2.2 t, h.2.2.2.2.1, memory_wf_cpyBody h.2.2.2.2.2 h.1.1 h.2.2.2.1 t⟩

theorem wf_cpqBody (h : s.Wf) (t : Nat) : (cpqBody t s).Wf :=
  ⟨h.1, h.2.1, h.2.2.1, h.2.2.2.1, cpropOut_lt h.2.2.2.2.2 t, memory_wf_cpqBody h.2.2.2.2.2 h.1.1 h.2.2.2.2.1 t⟩

theorem wf_qgenBody (h : s.Wf) : (qgenBody s).Wf :=
  ⟨h.1, h.2.1, Nat.mod_lt _ (by positivity), h.2.2.2.1, h.2.2.2.2.1, memory_wf_qgenBody h.2.2.2.2.2⟩

theorem wf_shiftBody (h : s.Wf) : (shiftBody s).Wf :=
  ⟨h.1, h.2.1, h.2.2.1, h.2.2.2.1, h.2.2.2.2.1, memory_wf_shiftBody h.2.2.2.2.2 h.1.1 h.2.2.2.1 h.2.2.2.2.1⟩

theorem wf_finalBody (h : s.Wf) : (finalBody s).Wf :=
  ⟨h.1, h.2.1, h.2.2.1, h.2.2.2.1, h.2.2.2.2.1, memory_wf_finalBody h.2.2.2.2.2⟩

end Sys2Proof.Machine
end

