-- ==== Sys2Proof/Laws/PerInstr.lean ====
section
/-! SUPPORT. Statements made once for each instruction. MatchesTable: the encoding of an instruction lies in its row of
opcode_table.json. -/

namespace Sys2Proof.Laws

/-- The mask of an instruction's row (opcode_table.json). -/
def tableMask : Instr → Nat
  | .rd _ => 0x100000000000000000000
  | .wr _ _ => 0x100000000000000000000
  | .nop => 0xFFFFFFFFFFFFFFFF
  | .clear => 0xFFFFFFFFFFFFFFFF
  | .macy _ => 0xFFFFFFFFFFF000FF
  | .cpy _ => 0xFFFFFFFFFFF000FF
  | .qgen => 0xFFFFFFFFFFFFFFFF
  | .macq _ => 0xFFFFFFFFFFF000FF
  | .cpq _ => 0xFFFFFFFFFFF000FF
  | .shift => 0xFFFFFFFFFFFFFFFF
  | .step => 0xFFFFFFFFFFFFFFFF
  | .final => 0xFFFFFFFFFFFFFFFF
  | .run => 0xFFFFFFFFFFFFFFFF

/-- The match value of an instruction's row (opcode_table.json). -/
def tableMatch : Instr → Nat
  | .rd _ => 0
  | .wr _ _ => 0x100000000000000000000
  | .nop => 0x0
  | .clear => 0x1
  | .macy _ => 0x2
  | .cpy _ => 0x3
  | .qgen => 0x4
  | .macq _ => 0x5
  | .cpq _ => 0x6
  | .shift => 0x7
  | .step => 0x8
  | .final => 0x9
  | .run => 0xA

/-- The encoding of `i`, cut by the mask of its row, is the row's match value. -/
def MatchesTable.Statement (i : Instr) : Prop := (encode i).toNat &&& tableMask i = tableMatch i

/-- A command word as a number: OP in bits 7:0, TILE in bits 19:8. -/
theorem commandWord_toNat (op : BitVec 8) (t : Nat) : (commandWord op t).toNat = t % 4096 * 256 + op.toNat := by
  rw [commandWord, BitVec.toNat_append, BitVec.toNat_append, BitVec.toNat_ofNat, ← Nat.shiftLeft_add_eq_or_of_lt op.isLt]
  simp [Nat.shiftLeft_eq]

/-- A bus tuple as a number: WE in bit 80, A in bits 79:64, D in bits 63:0. -/
theorem busWord_toNat (we : Bool) (a : Addr) (d : Data) :
    (busWord we a d).toNat = we.toNat * 2 ^ 80 + (a.toNat * 2 ^ 64 + d.toNat) := by
  rw [busWord, BitVec.toNat_append, BitVec.toNat_append, ← Nat.shiftLeft_add_eq_or_of_lt d.isLt,
    ← Nat.shiftLeft_add_eq_or_of_lt a.isLt]
  simp only [Nat.shiftLeft_eq, BitVec.toNat_ofBool]
  ring

/-- Through the mask of a tile command a command word shows its OP. -/
theorem commandWord_tileMask (op : BitVec 8) (t : Nat) :
    (commandWord op t).toNat &&& 0xFFFFFFFFFFF000FF = op.toNat := by
  have hop := op.isLt
  have hx : (commandWord op t).toNat < 2 ^ 20 := by rw [commandWord_toNat]; omega
  have hle := Nat.and_le_left (n := (commandWord op t).toNat) (m := 0xFFFFFFFFFFF000FF)
  have hmask : 0xFFFFFFFFFFF000FF % 2 ^ 20 = 2 ^ 8 - 1 := by norm_num
  rw [← Nat.mod_eq_of_lt (lt_of_le_of_lt hle hx), Nat.and_mod_two_pow, hmask, Nat.and_two_pow_sub_one_eq_mod,
    Nat.mod_eq_of_lt hx, commandWord_toNat]
  omega

/-- Through the mask of the bus rows a bus tuple shows its WE. -/
theorem busWord_mask (we : Bool) (a : Addr) (d : Data) :
    (busWord we a d).toNat &&& 0x100000000000000000000 = we.toNat * 2 ^ 80 := by
  have ha := a.isLt
  have hd := d.isLt
  have hlt : a.toNat * 2 ^ 64 + d.toNat < 2 ^ 80 := by omega
  have hm : (0x100000000000000000000 : Nat) = 2 ^ 80 := by norm_num
  have hdiv : (we.toNat * 2 ^ 80 + (a.toNat * 2 ^ 64 + d.toNat)) / 2 ^ 80 = we.toNat := by omega
  rw [busWord_toNat, hm, Nat.and_two_pow, Nat.testBit_eq_decide_div_mod_eq, hdiv]
  cases we <;> simp

theorem MatchesTable.rd (a : Addr) : MatchesTable.Statement (.rd a) := by
  have h := busWord_mask false a 0
  rw [Bool.toNat_false, Nat.zero_mul] at h
  exact h

theorem MatchesTable.wr (a : Addr) (d : Data) : MatchesTable.Statement (.wr a d) := by
  have h := busWord_mask true a d
  rw [Bool.toNat_true, Nat.one_mul] at h
  exact h

theorem MatchesTable.nop : MatchesTable.Statement .nop := by unfold MatchesTable.Statement; decide

theorem MatchesTable.clear : MatchesTable.Statement .clear := by unfold MatchesTable.Statement; decide

theorem MatchesTable.macy (t : Nat) : MatchesTable.Statement (.macy t) := commandWord_tileMask 0x02 t

theorem MatchesTable.cpy (t : Nat) : MatchesTable.Statement (.cpy t) := commandWord_tileMask 0x03 t

theorem MatchesTable.qgen : MatchesTable.Statement .qgen := by unfold MatchesTable.Statement; decide

theorem MatchesTable.macq (t : Nat) : MatchesTable.Statement (.macq t) := commandWord_tileMask 0x05 t

theorem MatchesTable.cpq (t : Nat) : MatchesTable.Statement (.cpq t) := commandWord_tileMask 0x06 t

theorem MatchesTable.shift : MatchesTable.Statement .shift := by unfold MatchesTable.Statement; decide

theorem MatchesTable.step : MatchesTable.Statement .step := by unfold MatchesTable.Statement; decide

theorem MatchesTable.final : MatchesTable.Statement .final := by unfold MatchesTable.Statement; decide

theorem MatchesTable.run : MatchesTable.Statement .run := by unfold MatchesTable.Statement; decide

end Sys2Proof.Laws
end

