-- ==== Sys2Proof/Laws/Step.lean ====
section
/-! SUPPORT. What one step can do: one lemma for the HOST's port, one for the ENGINE, and the inversion of the step. -/

namespace Sys2Proof.Machine

variable {s : State}

@[simp] theorem mapNext_next (f : State → State) (s : State) : mapNext f (.next s) = .next (f s) := rfl

/-- A mapped outcome is a next state exactly when the outcome is. -/
theorem mapNext_eq_next {f : State → State} {o : Host.Outcome State Fault Refusal} {t : State} :
    mapNext f o = .next t ↔ ∃ u, o = .next u ∧ t = f u := by
  cases o <;> simp [mapNext, eq_comm]

@[simp] theorem step_eq_agentStep (s : State) : step s = agentStep s := rfl

/-! ## The HOST's port -/

/-- With nothing pending a read returns the word at its address. -/
theorem execRd_idle (h : s.pend = none) (a : Addr) : execRd a s = .next (s.respond (readValue s a)) := by
  simp [execRd, State.holds, State.busy, h]

/-- A read of STATUS is never held. -/
theorem execRd_status : execRd addrStatus s = .next (s.respond (readValue s addrStatus)) := by
  simp [execRd, State.holds]

/-- With nothing pending a write has the write effect of its address. -/
theorem execWr_idle (h : s.pend = none) (a : Addr) (d : Data) : execWr a d s = .next (writeEffect s a d) := by
  simp [execWr, State.holds, State.busy, h]

/-- With a command pending a read of anything but STATUS is held. -/
theorem execRd_held {w : CmdWord} (h : s.pend = some w) {a : Addr} (ha : a ≠ addrStatus) :
    execRd a s = .next (s.hold (busRead a)) := by
  simp [execRd, State.holds, State.busy, h, ha]

/-- With a command pending a write is held. -/
theorem execWr_held {w : CmdWord} (h : s.pend = some w) (a : Addr) (d : Data) :
    execWr a d s = .next (s.hold (busWrite a d)) := by
  simp [execWr, State.holds, State.busy, h]

/-! ## The ENGINE -/

/-- The decoder of command words never reads a bus transaction. -/
theorem decodeCommand_isCommand {w : CmdWord} {i : Instr} (h : decodeCommand w = .ok i) : i.isCommand = true := by
  simp only [decodeCommand, decodeOp, untiled] at h
  repeat' split at h
  all_goals first
    | (injection h with h; subst h; rfl)
    | exact absurd h (by simp)

/-- What an ENGINE step can do: raise ILLEGAL on a word that is no command, or execute the command it decodes to; PEND becomes
none in both. -/
theorem engineStep_cases {w : CmdWord} {t : State} (h : engineStep w s = .next t) :
    (∃ e, decodeCommand w = .error e ∧ t = (s.raise .illegal).retire) ∨
      (∃ i u, decodeCommand w = .ok i ∧ exec i s = .next u ∧ t = u.retire) := by
  unfold engineStep at h
  cases hd : decodeCommand w with
  | error e =>
    rw [hd] at h
    exact .inl ⟨e, rfl, by simpa using h.symm⟩
  | ok i =>
    rw [hd] at h
    obtain ⟨u, hu, rfl⟩ := mapNext_eq_next.mp h
    exact .inr ⟨i, u, rfl, hu, rfl⟩

/-! ## The step -/

/-- What a step can do: nothing is left to do; or the HOST performs its next item, with nothing pending or as a read of STATUS that
the schedule lets pass; or the ENGINE executes the pending command. -/
theorem step_cases {t : State} (h : step s = .next t) :
    (s.pend = none ∧ s.host = [] ∧ t = s) ∨
      (∃ it rest, s.pend = none ∧ s.host = it :: rest ∧ hostItemStep it (s.setHost rest) = .next t) ∨
      (∃ w it rest, s.pend = some w ∧ s.host = it :: rest ∧ readsStatus it = true ∧ s.stall ≠ 0 ∧
        hostItemStep it (s.letPass.setHost rest) = .next t) ∨
      (∃ w, s.pend = some w ∧ (s.host = [] ∨ ∃ it rest, s.host = it :: rest ∧ hostFirst s it = false) ∧
        engineStep w s = .next t) := by
  rw [step_eq_agentStep, agentStep] at h
  split at h
  · next hp hh => exact .inl ⟨hp, hh, by simpa using h.symm⟩
  · next it rest hp hh => exact .inr (.inl ⟨it, rest, hp, hh, h⟩)
  · next w hp hh => exact .inr (.inr (.inr ⟨w, hp, .inl hh, h⟩))
  · next w it rest hp hh =>
    split at h
    · next hf =>
      simp only [hostFirst, Bool.and_eq_true, decide_eq_true_eq] at hf
      exact .inr (.inr (.inl ⟨w, it, rest, hp, hh, hf.1, hf.2, h⟩))
    · next hf => exact .inr (.inr (.inr ⟨w, hp, .inr ⟨it, rest, hh, by simpa using hf⟩, h⟩))

/-- With a command pending and no read of STATUS let pass, the ENGINE steps. -/
theorem step_engine {w : CmdWord} (hp : s.pend = some w) (h : ∀ it rest, s.host = it :: rest → hostFirst s it = false) :
    step s = engineStep w s := by
  rw [step_eq_agentStep, agentStep, hp]
  cases hh : s.host with
  | nil => rfl
  | cons it rest => simp [h it rest hh]

end Sys2Proof.Machine
end

