-- ==== Sys2Proof/Tests/Slice0.lean ====
section
/-! SUPPORT. Small tests. Expected values come from spec/95_test_vectors.md (the vector is named in each docstring) or from the encoding
tables of spec/30_encoding.md; a witness theorem shows that the hypotheses of the statement it names can be met. -/

namespace Sys2Proof.Tests

open Sys2Proof Sys2Proof.Machine

/-! ## Helpers -/

/-- The next state of an outcome, if it is one. -/
def nextOf (o : Host.Outcome State Fault Refusal) : Option State :=
  match o with
  | .next s => some s
  | .fault _ => none
  | .refused _ => none

/-- The block of build W/WAY/S_MAX after reset, its arrays 0, with CTRL = (n, tiled). -/
def block (w way sMax : Nat) (n : BitVec 16) (tiled : Bool) : State :=
  { State.resetWith ⟨w, way, sMax⟩ (fun _ => 0) with n := n, tiled := tiled }

/-- The operands of V-GOLD on the build 16/4/1. -/
def gold : State :=
  { block 16 4 1 4 false with
    minv := 0x47f5
    xbuf := [0xb13e, 0x117a, 0x2de9, 0x3bd1]
    ybuf := [0x383a, 0x338e, 0x3f19, 0xa39b]
    mbuf := [0xc125, 0x7b23, 0xe38a, 0x13a3] }

/-- V-GOLD's state before the first MACQ 0. -/
def goldMid : State := { gold with acc := [0x4a8b, 0x4d4d, 0x6035, 0xd5b5], cy := 0x7145, q := 0xe407 }

/-- V-GOLD's state before the first CPQ 0. -/
def goldMacq : State := { goldMid with acc := [0x117e0000, 0xcaad6e13, 0x6daeea2a, 0xac0b11b8] }

/-- V-GOLD's state after RUN, as far as the vector lists it. -/
def goldDone : State :=
  { gold with
    acc := [0x185a, 0x3140, 0x219f, 0x77cc], zbuf := [0x77cc, 0x219f, 0x3140, 0x185a], iter := 4, q := 0x6b2f, cy := 0x26ed,
    cq := 0x50de, done := true }

/-- A small build with two tiles, 4/2/2, and operands of three limbs: M = 0x123 with MINV = 5 (3 · 5 ≡ −1 mod 16). -/
def twoTiles : State :=
  { block 4 2 2 3 true with minv := 5, xbuf := [0, 2, 1, 9], ybuf := [0, 1, 7, 9], mbuf := [1, 2, 3, 9] }

/-! ## WellFormed: one ill-formed term for each check -/

theorem test_wellFormed_refuses_macy_4096 : (Instr.macy 4096).wellFormed = false := by decide
theorem test_wellFormed_refuses_cpy_4096 : (Instr.cpy 4096).wellFormed = false := by decide
theorem test_wellFormed_refuses_macq_4096 : (Instr.macq 4096).wellFormed = false := by decide
theorem test_wellFormed_refuses_cpq_4096 : (Instr.cpq 4096).wellFormed = false := by decide
theorem test_wellFormed_refuses_bus_as_command : (HostLine.cmd (.rd 0)).wellFormed = false := by decide
theorem test_wellFormed_refuses_illFormed_command : (HostLine.cmd (.macq 4096)).wellFormed = false := by decide
theorem test_wellFormed_refuses_long_load : (HostLine.load .x (List.replicate 4097 0)).wellFormed = false := by
  rw [HostLine.wellFormed, List.length_replicate]; decide
theorem test_wellFormed_refuses_long_readZ : (HostLine.readZ (List.replicate 4097 "z")).wellFormed = false := by
  rw [HostLine.wellFormed, List.length_replicate]; decide

/-! ## Decoding: words written out from 30_encoding R71, R75, R77, R81 -/

theorem test_decode_rd : decodeTableWord 88 0x0000A0000000000000000 = some (.rd 0x000A) := by decide
theorem test_decode_rd_ignores_data : decodeTableWord 88 0x05007000000000000FFFF = some (.rd 0x5007) := by decide
theorem test_decode_wr : decodeTableWord 88 0x11000000000000000B13E = some (.wr 0x1000 0xB13E) := by decide
theorem test_decode_nop : decodeTableWord 64 0x0000000000000000 = some .nop := by decide
theorem test_decode_clear : decodeTableWord 64 0x0000000000000001 = some .clear := by decide
theorem test_decode_macy : decodeTableWord 64 0x0000000000000302 = some (.macy 3) := by decide
theorem test_decode_cpy : decodeTableWord 64 0x0000000000000103 = some (.cpy 1) := by decide
theorem test_decode_qgen : decodeTableWord 64 0x0000000000000004 = some .qgen := by decide
theorem test_decode_macq : decodeTableWord 64 0x0000000000000205 = some (.macq 2) := by decide
theorem test_decode_cpq : decodeTableWord 64 0x00000000000FFF06 = some (.cpq 4095) := by decide
theorem test_decode_shift : decodeTableWord 64 0x0000000000000007 = some .shift := by decide
theorem test_decode_step : decodeTableWord 64 0x0000000000000008 = some .step := by decide
theorem test_decode_final : decodeTableWord 64 0x0000000000000009 = some .final := by decide
theorem test_decode_run : decodeTableWord 64 0x000000000000000A = some .run := by decide
/-- V-ENC-3 to V-ENC-8. -/
theorem test_decode_illegal :
    [0x104, 0x0B, 0xFF, 0x10000A, 0x8000000000000001, 0x100].map (decodeTableWord 64) = List.replicate 6 none := by decide
/-- P1, transactions 2 and 16. -/
theorem test_encode_bus :
    busWrite 0x0003 0x47F5 = 0x1000300000000000047F5 ∧ busRead 0x0005 = 0x000050000000000000000 := by decide
/-- P1, lines 1, 3 (its second word) and 15. -/
theorem test_expand :
    (HostLine.config 4 false).expand = [.txn none 0x100020000000000000004] ∧
      (HostLine.load .x [0xb13e, 0x117a]).expand[1]? = some (.txn none 0x11001000000000000117A) ∧
      (HostLine.cmd .run).expand = [.txn none 0x10004000000000000000A] := by decide

/-! ## The very next step runs the placed instruction -/

theorem test_fetch_command : step (State.reset.withFetchWord 64 0x302) = .next { State.reset with err := .nZero } := rfl
theorem test_fetch_bus :
    step (State.reset.withFetchWord 88 0x0) = .next { State.reset with reads := [0x4D4D5631] } := rfl

/-! ## RD and WR -/

/-- V-HA-2: PARAM of the build 16/4/2. -/
theorem test_rd_param :
    (nextOf (exec (.rd 0x0001) (block 16 4 2 0 false))).map (·.reads) = some [0x2000410] := by decide
/-- V-HA-8: index 8 = N_MAX is unmapped, and P4's e8: STATUS = 0x502. -/
theorem test_rd_unmapped_and_status :
    (nextOf (exec (.rd 0x1008) { block 16 4 2 0 false with xbuf := List.replicate 9 1 })).map (·.reads) = some [0x0] ∧
      (nextOf (exec (.rd 0x0005) { goldDone with err := .iterRange })).map (·.reads) = some [0x502] := by decide
/-- V-HA-4: CTRL keeps bits 16:0. -/
theorem test_wr_ctrl :
    (nextOf (exec (.wr 0x0002 0xFFFFFFFFFFFFFFFF) (block 16 4 2 0 false))).map (fun s => (s.n, s.tiled)) =
      some (0xFFFF, true) := by decide
/-- V-HA-6: W bits are stored, in the addressed word. -/
theorem test_wr_xbuf :
    (nextOf (exec (.wr 0x1003 0xABCDE) gold)).map (·.xbuf) = some [0xb13e, 0x117a, 0x2de9, 0xbcde] := by decide

/-! ## Commands -/

/-- V-NOP-1: STATUS stays 0x2, and the ENGINE's step retires the word. -/
theorem test_nop :
    (nextOf (step { goldDone with pend := some 0 })).map (fun s => (s.statusWord, s.pend)) = some (0x2, none) := by decide
/-- V-CLR-1 and R152: ITER, CY and the lanes are 0, ZBUF stays. -/
theorem test_clear :
    (nextOf (exec .clear { goldDone with err := .illegal })).map (fun s => (s.acc, s.cy, s.iter, s.zbuf, s.statusWord)) =
      some ([0, 0, 0, 0], 0, 0, [0x77cc, 0x219f, 0x3140, 0x185a], 0x0) := by decide
/-- V-GOLD, digit 0. -/
theorem test_macy :
    (nextOf (exec (.macy 0) gold)).map (·.acc) = some [0x263a4a8b, 0x1d572713, 0xb2b42de, 0x7145ca8a] := by decide
/-- V-MAC-2b: 9 + 9 wraps a 4-bit lane and sets OVF. -/
theorem test_macy_wraps :
    (nextOf (exec (.macy 0) { block 2 4 1 1 false with xbuf := [3, 0, 0, 0], ybuf := [3, 0, 0, 0], acc := [9, 0, 0, 0] })).map
      (fun s => (s.acc, s.statusWord)) = some ([2, 0, 0, 0], 0x4) := by decide
/-- V-CP-2: one pass leaves lane 1 = r. -/
theorem test_cpy :
    (nextOf (exec (.cpy 0) { block 16 4 1 3 false with acc := [0x1FFFF, 0xFFFF, 0x0, 0x5] })).map (fun s => (s.acc, s.cy)) =
      some ([0xffff, 0x10000, 0x0, 0x5], 0) := by decide
/-- V-CP-4b: the carry in enters lane 2, the carry out is 2. -/
theorem test_cpy_tile_1 :
    (nextOf (exec (.cpy 1) { block 16 2 2 4 true with acc := [0x30001, 0x2, 0x10005, 0x20006], cy := 0x1234 })).map
      (fun s => (s.acc, s.cy)) = some ([0x30001, 0x2, 0x1239, 0x7], 0x2) := by decide
/-- V-GOLD, digit 0. -/
theorem test_qgen : (nextOf (exec .qgen { goldMid with q := 0 })).map (·.q) = some 0xe407 := by decide
/-- V-Q-3: QGEN does not check N. -/
theorem test_qgen_unconfigured :
    (nextOf (exec .qgen { goldMid with n := 0, q := 0 })).map (fun s => (s.q, s.statusWord)) = some (0xe407, 0x0) := by decide
/-- V-GOLD, digit 0. -/
theorem test_macq :
    (nextOf (exec (.macq 0) goldMid)).map (·.acc) = some [0x117e0000, 0xcaad6e13, 0x6daeea2a, 0xac0b11b8] := by decide
/-- R217: TILE_RANGE on tile 1 of a single-tile configuration, nothing else written. -/
theorem test_macq_tileRange :
    (nextOf (exec (.macq 1) goldMid)).map (fun s => (s.acc, s.err)) = some (goldMid.acc, .tileRange) := by decide
/-- V-GOLD, digit 0. -/
theorem test_cpq :
    (nextOf (exec (.cpq 0) goldMacq)).map (fun s => (s.acc, s.cq)) = some ([0x0, 0x7f91, 0x1b4d7, 0x7f66], 0xac0b) := by decide
/-- V-CP-5q: a single lane; CY unchanged. -/
theorem test_cpq_one_lane :
    (nextOf (exec (.cpq 0) { block 16 4 1 1 false with acc := [0x12345678, 0, 0, 0] })).map (fun s => (s.acc, s.cq, s.cy)) =
      some ([0x5678, 0, 0, 0], 0x1234, 0) := by decide
/-- V-SH-4: a lane crosses from tile 1 to tile 0; CY + CQ enters lane L − 1. -/
theorem test_shift :
    (nextOf (exec .shift { block 16 2 2 3 true with acc := [0x0, 0xa, 0xb, 0xc], cy := 1, cq := 2 })).map
      (fun s => (s.acc, s.iter)) = some ([0xa, 0xb, 0xc, 0x3], 1) := by decide
/-- V-SH-5: ITER saturates. -/
theorem test_shift_saturates :
    (nextOf (exec .shift { block 16 4 1 1 false with iter := 0xFFFF })).map (·.iter) = some 0xFFFF := by decide
/-- V-STEP-1. -/
theorem test_step :
    (nextOf (exec .step gold)).map (fun s => (s.acc, s.q, s.cy, s.cq, s.iter)) =
      some ([0x7f91, 0x1b4d7, 0x7f66, 0x11d50], 0xe407, 0x7145, 0xac0b, 1) := by decide +kernel
/-- V-STEP-4: STEP after the last digit. -/
theorem test_step_iterRange : (nextOf (exec .step goldDone)).map (·.statusWord) = some 0x502 := by decide
/-- V-F-1. -/
theorem test_final :
    (nextOf (exec .final { gold with acc := [0x185a, 0x13140, 0x1219e, 0x77cb] })).map (fun s => (s.acc, s.zbuf, s.zhi, s.statusWord)) =
      some ([0x185a, 0x3140, 0x219f, 0x77cc], [0x77cc, 0x219f, 0x3140, 0x185a], 0, 0x2) := by decide +kernel
/-- V-F-5. -/
theorem test_final_excess :
    (nextOf (exec .final { block 4 4 1 2 false with acc := [0x10, 0xFF, 0, 0] })).map (fun s => (s.acc, s.zhi, s.statusWord)) =
      some ([0, 0, 0, 0], 0x10, 0xA) := by decide +kernel
/-- V-GOLD. -/
theorem test_run : nextOf (exec .run gold) = some goldDone := by decide +kernel
/-- V-F-2: the result reaches R. -/
theorem test_run_above_radix :
    (nextOf (exec .run { block 4 4 1 2 false with minv := 0xf, xbuf := [9, 0xE, 0, 0], ybuf := [9, 0xE, 0, 0], mbuf := [0xA, 1, 0, 0] })).map
      (fun s => (s.zbuf, s.zhi, s.statusWord)) = some ([0, 0, 0, 0], 1, 0xA) := by decide +kernel
/-- V-GOLD-T on the build 16/3/2. -/
theorem test_run_tiled :
    (nextOf (exec .run { block 16 3 2 4 true with
      minv := 0x47f5, xbuf := gold.xbuf ++ [0, 0], ybuf := gold.ybuf ++ [0, 0], mbuf := gold.mbuf ++ [0, 0] })).map
      (fun s => s.zbuf.take 4) = some [0x77cc, 0x219f, 0x3140, 0x185a] := by decide +kernel

/-! ## Witnesses: a state and operands that meet all the hypotheses of the statement named -/

theorem witness_DecodeInvertsEncode :
    (Instr.macy 4095).wellFormed = true ∧ (Instr.wr 0xFFFF 0xFFFFFFFFFFFFFFFF).wellFormed = true := by decide
theorem witness_LegalWordsAreEncodings : decodeCommand 0x00000000000FFF06 = .ok (.cpq 4095) := rfl

theorem reservedOpcode_illegal : ¬ ∃ i, decodeCommand 0x000000000000000B = .ok i := by
  rintro ⟨i, h⟩
  rw [show decodeCommand 0x000000000000000B = .error .reservedOpcode from rfl] at h
  nomatch h

/-- `gold` with a word pending, a HOST program and a number of reads of STATUS let pass. -/
def goldBusy (w : CmdWord) (items : List HostItem) (stall : Nat) : State :=
  { gold with pend := some w, host := items, stall := stall }

/-- One witness for each way the ENGINE comes to move: a WAIT first and `stall` 0; a held transaction, or nothing, first and `stall`
not 0. -/
theorem witness_IllegalWordsRaiseIllegal :
    (¬ ∃ i, decodeCommand 0x000000000000000B = .ok i) ∧
      ((goldBusy 0x0B [.wait] 0).pend = some 0x0B ∧ (goldBusy 0x0B [.wait] 0).stall = 0) ∧
      ((goldBusy 0x0B [.txn none (busRead 0x4000)] 1).pend = some 0x0B ∧
        readsStatus (.txn none (busRead 0x4000)) = false) ∧
      ((goldBusy 0x0B [] 1).pend = some 0x0B ∧ (goldBusy 0x0B [] 1).host = []) :=
  ⟨reservedOpcode_illegal, ⟨rfl, rfl⟩, ⟨rfl, by decide⟩, rfl, rfl⟩

theorem witness_HostNotationExpands : encode (.cpq 4095) = .command 0x00000000000FFF06 := by decide

/-- One witness for each of its five clauses. -/
theorem witness_StepRunsTheDecodedInstruction :
    ((goldBusy 0x0A [.txn none (busRead 0x4000)] 3).pend = some 0x0A ∧ decodeCommand 0x0A = .ok .run ∧
      readsStatus (.txn none (busRead 0x4000)) = false) ∧
    (({ gold with host := [.txn (some "z") (busRead 0x4000)] } : State).pend = none ∧
      ({ gold with host := [.txn (some "z") (busRead 0x4000)] } : State).host = .txn (some "z") (busRead 0x4000) :: []) ∧
    (({ gold with host := [.wait] } : State).pend = none ∧ ({ gold with host := [.wait] } : State).host = .wait :: []) ∧
    ((goldBusy 0x0A [.txn none (busRead 0x0005)] 1).stall ≠ 0 ∧
      (goldBusy 0x0A [.txn none (busRead 0x0005)] 1).host = .txn none (busRead 0x0005) :: [] ∧
      decodeBus (busRead 0x0005) = .rd 0x0005) ∧
    ((goldBusy 0x0A [.wait] 1).pend = some 0x0A ∧ (goldBusy 0x0A [.wait] 1).stall ≠ 0 ∧
      (goldBusy 0x0A [.wait] 1).host = .wait :: []) := by
  refine ⟨⟨rfl, rfl, ?_⟩, ⟨rfl, rfl⟩, ⟨rfl, rfl⟩, ⟨?_, rfl, ?_⟩, rfl, ?_, rfl⟩ <;> decide

theorem witness_HeldTransactionsWait :
    ((goldBusy 0x0A [.txn none (busRead 0x0004)] 9).pend = some 0x0A ∧
      (goldBusy 0x0A [.txn none (busRead 0x0004)] 9).host = .txn none (busRead 0x0004) :: [] ∧
      decodeBus (busRead 0x0004) ≠ .rd 0x0005) ∧
    (({ gold with host := [.txn none (busWrite 0x0004 1)] } : State).pend = none ∧
      ({ gold with host := [.txn none (busWrite 0x0004 1)] } : State).host = .txn none (busWrite 0x0004 1) :: []) ∧
    ∃ u, step (goldBusy 0x0A [.txn none (busRead 0x0004)] 9) = .next u :=
  ⟨⟨rfl, rfl, by decide⟩, ⟨rfl, rfl⟩, _, rfl⟩

theorem witness_PendingCommandIsExecuted : (goldBusy 0x0A [.wait] 2).pend = some 0x0A := rfl
theorem witness_WaitEnds : (goldBusy 0x0A [.wait] 2).host = .wait :: [] := rfl

theorem witness_CommandRunsBeforeTheNextTransaction :
    let s : State := { gold with host := [.txn none (busWrite 0x0004 0x0A), .txn none (busRead 0x4000)] }
    s.pend = none ∧ s.host = .txn none (busWrite 0x0004 0x0A) :: [.txn none (busRead 0x4000)] ∧
      (∀ it more, ([.txn none (busRead 0x4000)] : List HostItem) = it :: more →
        ∃ name t, it = .txn name t ∧ decodeBus t ≠ .rd 0x0005) ∧
      decodeCommand 0x0A = .ok .run ∧ ∃ u, exec .run (s.setHost [.txn none (busRead 0x4000)]) = .next u := by
  refine ⟨rfl, rfl, fun it more h => ?_, rfl, _, rfl⟩
  obtain ⟨rfl, rfl⟩ := List.cons.inj h
  exact ⟨none, busRead 0x4000, rfl, by decide⟩

/-- One boundary address for each clause, on a build with N_MAX = 4. -/
theorem witness_ReadReturnsTheAddressedWord :
    gold.Wf ∧ gold.pend = none ∧ gold.params.nMax = 4 ∧
      (0x1003#16).toNat = 0x1000 + 3 ∧ (0x2003#16).toNat = 0x2000 + 3 ∧ (0x3003#16).toNat = 0x3000 + 3 ∧
      (0x4003#16).toNat = 0x4000 + 3 ∧ (0x5003#16).toNat = 0x5000 + 3 ∧ 0x000B ≤ (0x000B#16).toNat ∧
      (0x0FFF#16).toNat ≤ 0x0FFF ∧ 0x6000 ≤ (0x6000#16).toNat ∧ 4 ≤ (0x1004#16).toNat % 0x1000 ∧
      4 ≤ (0x5FFF#16).toNat % 0x1000 := by decide
/-- The same with a command pending, for STATUS alone. -/
theorem witness_ReadReturnsTheAddressedWord_busy : (goldBusy 0x0A [] 0).Wf ∧ (0x0005 : Addr) = 0x0005 := by decide

theorem witness_HeldAccessIsNotPerformed : (goldBusy 0x0A [] 0).pend = some 0x0A ∧ (0x0004 : Addr) ≠ 0x0005 := by decide
theorem witness_RegisterWritesStore : gold.pend = none := rfl
theorem witness_OperandWritesStoreALimb :
    gold.Wf ∧ gold.pend = none ∧ 3 < gold.params.nMax ∧ (0x1003#16).toNat = 0x1000 + 3 ∧
      (0x2003#16).toNat = 0x2000 + 3 ∧ (0x3003#16).toNat = 0x3000 + 3 := by decide
theorem witness_OtherWritesAreIgnored :
    gold.pend = none ∧ (0x0001#16).toNat ≤ 0x0001 ∧ 0x0005 ≤ (0x0005#16).toNat ∧ (0x000A#16).toNat ≤ 0x000A ∧
      0x4000 ≤ (0x4000#16).toNat ∧ (0x5FFF#16).toNat < 0x6000 ∧ 0x000B ≤ (0x000B#16).toNat ∧ (0x0FFF#16).toNat ≤ 0x0FFF ∧
      0x6000 ≤ (0x6000#16).toNat ∧ gold.params.nMax ≤ (0x1004#16).toNat % 0x1000 := by decide
theorem witness_PortReadAfterWrite :
    gold.Wf ∧ gold.pend = none ∧ 0x1000 ≤ (0x1000#16).toNat ∧ (0x3003#16).toNat < 0x4000 ∧
      (0x3003#16).toNat % 0x1000 < gold.params.nMax ∧ (0x1003#16) ≠ 0x3003#16 := by decide

theorem witness_TilesPartitionTheActiveLanes :
    (gold.params.Valid ∧ gold.Configured ∧ gold.tiled = false ∧ 3 < gold.active) ∧
      (twoTiles.params.Valid ∧ twoTiles.Configured ∧ twoTiles.tiled = true ∧ 1 < twoTiles.tiles ∧ 3 < twoTiles.active) := by
  decide
/-- One witness for each clause: N = 0; N above each path's capacity; t = S; ITER = N; and the passing cases. -/
theorem witness_FirstFailingCheckGivesTheCode :
    (block 16 4 2 0 false).limbs = 0 ∧
      (0 < (block 16 4 2 5 false).limbs ∧ ¬ (block 16 4 2 5 false).Configured) ∧
      (0 < (block 16 4 2 9 true).limbs ∧ ¬ (block 16 4 2 9 true).Configured) ∧
      (twoTiles.Configured ∧ twoTiles.tiles ≤ 2) ∧
      (goldDone.Configured ∧ 0 < goldDone.tiles ∧ goldDone.limbs ≤ goldDone.iter.toNat) ∧
      (twoTiles.Configured ∧ 1 < twoTiles.tiles ∧ twoTiles.iter.toNat < twoTiles.limbs) := by decide
theorem witness_FirstFailingCheckGivesTheCode_illegal :
    (¬ ∃ i, decodeCommand 0x000000000000000B = .ok i) ∧
      ((goldBusy 0x0B [.wait] 0).pend = some 0x0B ∧ (goldBusy 0x0B [.wait] 0).stall = 0) ∧
      ((goldBusy 0x0B [.txn none (busWrite 0x0004 1)] 1).pend = some 0x0B ∧
        readsStatus (.txn none (busWrite 0x0004 1)) = false) ∧
      ((goldBusy 0x0B [] 1).pend = some 0x0B ∧ (goldBusy 0x0B [] 1).host = []) :=
  ⟨reservedOpcode_illegal, ⟨rfl, rfl⟩, ⟨rfl, by decide⟩, rfl, rfl⟩
theorem witness_FailedCommandsArePrecise :
    exec .step goldDone = .next { goldDone with err := .iterRange } ∧ ErrorCode.iterRange ≠ .none ∧
      ErrorCode.iterRange ≠ goldDone.err := ⟨rfl, by decide, by decide⟩

theorem witness_NopChangesNothing : (goldBusy 0 [] 0).pend = some 0 ∧ (goldBusy 0 [] 0).stall = 0 := by decide
theorem witness_MacyAccumulates :
    twoTiles.Wf ∧ twoTiles.Configured ∧ 1 < twoTiles.tiles ∧ twoTiles.iter.toNat < twoTiles.limbs := by decide
theorem witness_MacqAccumulates : twoTiles.Wf ∧ twoTiles.Configured ∧ 1 < twoTiles.tiles := by decide
theorem witness_CpyPropagates : goldMacq.Wf ∧ goldMacq.Configured ∧ 0 < goldMacq.tiles := by decide
theorem witness_CpqPropagates : goldMacq.Wf ∧ goldMacq.Configured ∧ 0 < goldMacq.tiles := by decide
theorem witness_PropagationPreservesValue :
    twoTiles.Wf ∧ twoTiles.Configured ∧ 1 < twoTiles.tiles ∧ (∃ u, exec (.cpy 1) twoTiles = .next u) ∧
      ∃ u, exec (.cpq 1) twoTiles = .next u := ⟨by decide, by decide, by decide, ⟨_, rfl⟩, _, rfl⟩
theorem witness_PropagationBoundsTheLanes :
    goldMacq.Wf ∧ goldMacq.Configured ∧ 0 < goldMacq.tiles ∧ ∃ u, exec (.cpq 0) goldMacq = .next u :=
  ⟨by decide, by decide, by decide, _, rfl⟩
theorem witness_ChainedPassIsOnePass : twoTiles.Wf ∧ twoTiles.Configured := by decide
theorem witness_QuotientDigitClearsLaneZero : gold.ModulusReady ∧ ∃ u, exec .qgen gold = .next u := ⟨by decide, _, rfl⟩
theorem witness_ShiftMovesTheLanes : twoTiles.Wf ∧ twoTiles.Configured := by decide
theorem witness_ShiftDividesTheValue :
    twoTiles.Wf ∧ twoTiles.Configured ∧ twoTiles.lane 0 = 0 ∧ ∃ u, exec .shift twoTiles = .next u :=
  ⟨by decide, by decide, by decide, _, rfl⟩
theorem witness_StepIsItsMicroOperations :
    twoTiles.Wf ∧ twoTiles.Configured ∧ twoTiles.iter.toNat < twoTiles.limbs := by decide
theorem witness_StepIsTheWholeVectorIteration :
    twoTiles.Wf ∧ twoTiles.Configured ∧ twoTiles.iter.toNat < twoTiles.limbs := by decide
theorem witness_StepKeepsTheLanesBounded :
    gold.Wf ∧ gold.Configured ∧ gold.iter.toNat < gold.limbs ∧ gold.LanesBounded ∧ ∃ u, exec .step gold = .next u :=
  ⟨by decide, by decide, by decide, by decide, _, rfl⟩
theorem witness_OrderedCommandsNeverOverflow :
    gold.Wf ∧ ∀ i ∈ [Instr.step, .final, .run, .clear], i = .clear ∨ i = .step ∨ i = .final ∨ i = .run := by decide
theorem witness_StepValueRecurrence :
    gold.Wf ∧ gold.Configured ∧ gold.iter.toNat < gold.limbs ∧ (∃ u, exec .step gold = .next u) ∧ gold.LanesBounded ∧
      gold.MinvCorrect := ⟨by decide, by decide, by decide, ⟨_, rfl⟩, by decide, by decide⟩
theorem witness_LaneZeroIsZeroBeforeTheShift :
    twoTiles.Wf ∧ twoTiles.Configured ∧ twoTiles.iter.toNat < twoTiles.limbs ∧ twoTiles.ModulusReady := by decide
theorem witness_FinalNormalizes : twoTiles.Wf ∧ twoTiles.Configured := by decide
theorem witness_SecondFinalChangesNothingBelowCapacity :
    goldMid.Wf ∧ goldMid.Configured ∧ goldMid.vacc < goldMid.radix ^ goldMid.active := by decide
theorem witness_IteratedPassesReachFinal : goldMacq.Wf ∧ goldMacq.Configured ∧ goldMacq.active ≤ 4 := by decide
theorem witness_RunIsItsCommands : twoTiles.Wf ∧ twoTiles.Configured := by decide
theorem witness_RunComputesTheMontgomeryProduct :
    gold.Wf ∧ gold.Configured ∧ gold.ModulusReady ∧ gold.xval < gold.mval ∧ gold.yval < gold.mval := by decide
theorem witness_RunResultIsBelowTwiceTheModulus :
    twoTiles.Wf ∧ twoTiles.Configured ∧ twoTiles.ModulusReady ∧ twoTiles.xval < twoTiles.mval := by decide
theorem witness_ZeroOperandGivesZero :
    ({ gold with xbuf := [0, 0, 0, 0] } : State).Wf ∧ ({ gold with xbuf := [0, 0, 0, 0] } : State).Configured ∧
      ({ gold with xbuf := [0, 0, 0, 0] } : State).xval = 0 := by decide
theorem witness_TiledAndSingleTilePathsAgree : gold.Wf ∧ 0 < gold.limbs ∧ gold.limbs ≤ gold.params.way := by decide
theorem witness_RunDependsOnItsOperandsAlone :
    gold.Wf ∧ goldDone.Wf ∧ gold.Configured ∧ goldDone.Configured ∧ gold.params.w = goldDone.params.w ∧
      gold.params.way = goldDone.params.way ∧ gold.n = goldDone.n ∧ gold.tiled = goldDone.tiled ∧ gold.minv = goldDone.minv ∧
      ∀ k < gold.limbs, wordAt gold.xbuf k = wordAt goldDone.xbuf k ∧ wordAt gold.ybuf k = wordAt goldDone.ybuf k ∧
        wordAt gold.mbuf k = wordAt goldDone.mbuf k :=
  ⟨by decide, by decide, by decide, by decide, rfl, rfl, rfl, rfl, rfl, by decide⟩

/-- P5's operands: the Montgomery forms of V-GOLD's X and Y. -/
def roundTrip1 : State :=
  { gold with xbuf := [0x561, 0xb637, 0x2434, 0x3db5], ybuf := [0xa389, 0xc6c5, 0xf10b, 0xeb29] }

/-- P5's second phase: the product of the first, and 1. -/
def roundTrip2 : State := { gold with xbuf := [0x1cb0, 0x6af5, 0x8337, 0x1596], ybuf := [0, 0, 0, 1] }

theorem witness_RoundTripThroughMontgomeryForm :
    roundTrip1.Wf ∧ roundTrip1.Configured ∧ roundTrip1.ModulusReady ∧
      roundTrip1.xval = gold.xval * roundTrip1.radix ^ roundTrip1.limbs % roundTrip1.mval ∧
      roundTrip1.yval = gold.yval * roundTrip1.radix ^ roundTrip1.limbs % roundTrip1.mval ∧
      roundTrip2.Wf ∧ roundTrip2.Configured ∧ roundTrip2.ModulusReady ∧ roundTrip2.mval = roundTrip1.mval ∧
      roundTrip2.limbs = roundTrip1.limbs ∧ roundTrip2.radix = roundTrip1.radix ∧ roundTrip2.yval = 1 ∧
      (nextOf (exec .run roundTrip1)).map (fun u => u.result % roundTrip1.mval) = some roundTrip2.xval := by
  refine ⟨?_, ?_, ?_, ?_, ?_, ?_, ?_, ?_, ?_, ?_, ?_, ?_, ?_⟩ <;> decide +kernel

theorem witness_RunCompletesOnAnyOperands : twoTiles.Wf ∧ twoTiles.Configured := by decide
theorem witness_CommandsLeaveTheHostsRegisters :
    Instr.run.isCommand = true ∧ ∃ u, exec .run gold = .next u := ⟨rfl, _, rfl⟩
/-- One command outside each clause's exceptions, and a word at N. -/
theorem witness_OnlyTheNamedCommandsWrite :
    (∃ u, exec (.macy 0) twoTiles = .next u) ∧ Instr.macy 0 ≠ .clear ∧ Instr.macy 0 ≠ .final ∧ Instr.macy 0 ≠ .run ∧
      Instr.macy 0 ≠ .shift ∧ Instr.macy 0 ≠ .step ∧ Instr.macy 0 ≠ .qgen ∧ (∀ t, Instr.macy 0 ≠ .cpy t) ∧
      (∀ t, Instr.macy 0 ≠ .cpq t) ∧ twoTiles.limbs ≤ 3 :=
  ⟨⟨_, rfl⟩, by decide, by decide, by decide, by decide, by decide, by decide, nofun, nofun, by decide⟩
theorem witness_InactiveLanesAreKept :
    (∃ u, exec .final (block 4 2 2 1 false) = .next u) ∧ Instr.final ≠ .clear ∧ Instr.final ≠ .run ∧
      (block 4 2 2 1 false).active ≤ 1 := ⟨⟨_, rfl⟩, by decide, by decide, by decide⟩
theorem witness_StepKeepsTheInvariant :
    (goldBusy 0x0A [] 0).Wf ∧ ∃ u, step (goldBusy 0x0A [] 0) = .next u := ⟨by decide, _, rfl⟩
theorem witness_ResetMeetsTheInvariant : (⟨32, 1, 4096⟩ : Params).Valid := by decide
theorem witness_ResetValues :
    (⟨1, 1, 1⟩ : Params).Valid ∧ Words.wf 1 2 [3] ∧ Words.wf 1 1 [1] := by decide

end Sys2Proof.Tests
end

