-- ==== Sys2Proof/Proofs/Scope.lean ====
section
/-! PROOFS. How the tiles lie over the active lanes (00_scope R10): lane `g` belongs to tile `g / WAY`, and to no other. -/

namespace Sys2Proof.Machine

variable {s : State}

/-- With TILED = 1, S is the least number of tiles that covers the limbs: one tile fewer leaves a limb out. -/
theorem pred_tiles_mul_lt_limbs (hN : 0 < s.limbs) (h : s.tiled = true) : (s.tiles - 1) * s.params.way < s.limbs := by
  have hle : s.tiles * s.params.way ≤ s.limbs + s.params.way - 1 := by
    simpa only [State.tiles, h, if_true] using Nat.div_mul_le_self (s.limbs + s.params.way - 1) s.params.way
  rw [Nat.sub_one_mul]
  omega

/-- The tile of an active lane is the quotient of its index by WAY. -/
theorem inTile_iff_div_eq (hway : 0 < s.params.way) {t g : Nat} :
    s.inTile t g ↔ g / s.params.way = t ∧ g < s.active := by
  rw [State.inTile, State.tileLo, State.tileEnd, Nat.lt_min, ← and_assoc, Nat.div_eq_iff hway]
  exact and_congr_left fun _ => by omega

theorem inTile_tileLo (hway : 0 < s.params.way) (hc : s.Configured) {t : Nat} (ht : t < s.tiles) :
    s.inTile t (s.tileLo t) :=
  ⟨le_rfl, tileLo_lt_tileEnd hway hc ht⟩

/-- The tile of an active lane is one of the S tiles. -/
theorem div_way_lt_tiles (hway : 0 < s.params.way) (hc : s.Configured) {g : Nat} (hg : g < s.active) :
    g / s.params.way < s.tiles := by
  obtain ⟨-, hfits, -⟩ := hc
  rw [Nat.div_lt_iff_lt_mul hway]
  cases h : s.tiled
  · rw [active_untiled h] at hg
    rw [tiles_untiled h, Nat.one_mul]
    exact lt_of_lt_of_le hg (hfits h)
  · rwa [active_tiled h] at hg

end Sys2Proof.Machine

namespace Sys2Proof.Proofs

open Sys2Proof Sys2Proof.Machine

/-- Settles O19: the tile of an active lane is its index divided by WAY, which names exactly one of the S tiles. -/
theorem tilesPartitionTheActiveLanes : Obligations.TilesPartitionTheActiveLanes := by
  intro s hp hc
  have ⟨_, _, hway, _, _⟩ := hp
  refine ⟨fun h => ⟨tiles_untiled h, active_untiled h⟩, fun h => ⟨?least, limbs_le_tiles_mul hway h, active_tiled h⟩,
    active_le_nMax hp hc, fun t ht => inTile_tileLo hway hc ht, fun g hg => ?exactlyOne⟩
  case least => exact pred_tiles_mul_lt_limbs hc.1 h
  case exactlyOne =>
    refine ⟨g / s.params.way, div_way_lt_tiles hway hc hg, (inTile_iff_div_eq hway).mpr ⟨rfl, hg⟩, fun u _ hu => ?_⟩
    exact ((inTile_iff_div_eq hway).mp hu).1.symm

end Sys2Proof.Proofs
end

/-! PROOFS. The state of the block (10_state): what each command leaves alone, the state invariant over every step, the bound on the
active lanes under which no multiply-accumulate wraps, FINAL, and the state after reset. -/

namespace Sys2Proof.Machine

variable {s u : State}

/-! ## Every command in one form: checks, then a body -/

/-- The checks an instruction makes before its first write, in the order of 60_exceptions R217. A bus transaction makes none. -/
def commandChecks : Instr → List (State → Option ErrorCode)
  | .macy t => [checkConfig, checkTile t, checkIter]
  | .cpy t | .macq t | .cpq t => [checkConfig, checkTile t]
  | .shift | .final | .run => [checkConfig]
  | .step => [checkConfig, checkIter]
  | .rd _ | .wr _ _ | .nop | .clear | .qgen => []

/-- What a command writes once its checks have passed. A bus transaction is no command and has the identity here. -/
def commandBody : Instr → State → State
  | .clear => clearBody
  | .macy t => macyBody t
  | .cpy t => cpyBody t
  | .qgen => qgenBody
  | .macq t => macqBody t
  | .cpq t => cpqBody t
  | .shift => shiftBody
  | .step => stepBody
  | .final => finalBody
  | .run => runBody
  | .rd _ | .wr _ _ | .nop => id

theorem exec_eq_command {i : Instr} (hi : i.isCommand = true) (s : State) :
    exec i s = .next (s.command (commandChecks i) (commandBody i)) := by
  cases i with
  | rd | wr => contradiction
  | nop | clear | macy | cpy | qgen | macq | cpq | shift | step | final | run => rfl

/-- What a command can do: write STATUS.ERR only, or what its body writes. -/
theorem exec_command_cases {i : Instr} (hi : i.isCommand = true) (h : exec i s = .next u) :
    (∃ e, u = s.raise e) ∨ u = commandBody i s := by
  rw [exec_eq_command hi] at h
  obtain rfl := Host.Outcome.next.inj h
  obtain ⟨e, -, he⟩ | ⟨-, hb⟩ := command_cases (s := s) (commandChecks i) (commandBody i)
  · exact .inl ⟨e, he⟩
  · exact .inr hb

/-- What a bus transaction can do: return a word, be held, or have a write effect. -/
theorem exec_bus_cases {i : Instr} (hi : i.isCommand = false) (h : exec i s = .next u) :
    (∃ v, u = s.respond v) ∨ (∃ t, u = s.hold t) ∨ ∃ d x, u = writeTarget s d x := by
  cases i with
  | rd a =>
    obtain rfl := Host.Outcome.next.inj h
    split
    · exact .inr (.inl ⟨_, rfl⟩)
    · exact .inl ⟨_, rfl⟩
  | wr a d =>
    obtain rfl := Host.Outcome.next.inj h
    split
    · exact .inr (.inl ⟨_, rfl⟩)
    · exact .inr (.inr ⟨_, _, rfl⟩)
  | nop | clear | macy | cpy | qgen | macq | cpq | shift | step | final | run => contradiction

/-! ## Frames

What a group of operations leaves alone, as the state with the registers it may write blanked: two states agree outside the group when
their blanked forms are equal. -/

/-- Everything but what a digit iteration writes: ACC, STATUS.OVF, ITER, Q, CY and CQ are blanked. -/
def State.outsideIteration (s : State) : State :=
  { s with acc := [], ovf := false, iter := 0, q := 0, cy := 0, cq := 0 }

/-- Everything but what the ENGINE writes: the registers of the host, the latch and the agents' bookkeeping. -/
def State.outsideEngine (s : State) : State :=
  { s.outsideIteration with done := false, zovf := false, err := .none, zhi := 0, zbuf := [] }

/-- What does not read the blanked registers is the same for two states with equal blanked forms. -/
theorem eq_of_blanked {α : Type} (f : State → α) {blank : State → State} (h : blank u = blank s)
    (hf : ∀ v, f (blank v) = f v) : f u = f s := by
  rw [← hf u, h, hf s]

theorem outsideEngine_of_outsideIteration (h : u.outsideIteration = s.outsideIteration) :
    u.outsideEngine = s.outsideEngine :=
  eq_of_blanked State.outsideEngine h fun _ => rfl

theorem eq_of_outsideEngine (h : u.outsideEngine = s.outsideEngine) :
    u = { s with done := u.done, ovf := u.ovf, zovf := u.zovf, err := u.err, iter := u.iter, q := u.q, cy := u.cy, cq := u.cq,
                 zhi := u.zhi, acc := u.acc, zbuf := u.zbuf } := by
  cases u
  cases s
  simp_all [State.outsideEngine, State.outsideIteration]

theorem limbs_of_outsideEngine (h : u.outsideEngine = s.outsideEngine) : u.limbs = s.limbs :=
  eq_of_blanked State.limbs h fun _ => rfl

theorem active_of_outsideIteration (h : u.outsideIteration = s.outsideIteration) : u.active = s.active :=
  eq_of_blanked State.active h fun _ => rfl

@[simp] theorem outsideIteration_macyBody (t : Nat) (s : State) : (macyBody t s).outsideIteration = s.outsideIteration := rfl

@[simp] theorem outsideIteration_macqBody (t : Nat) (s : State) : (macqBody t s).outsideIteration = s.outsideIteration := rfl

@[simp] theorem outsideIteration_cpyBody (t : Nat) (s : State) : (cpyBody t s).outsideIteration = s.outsideIteration := rfl

@[simp] theorem outsideIteration_cpqBody (t : Nat) (s : State) : (cpqBody t s).outsideIteration = s.outsideIteration := rfl

@[simp] theorem outsideIteration_qgenBody (s : State) : (qgenBody s).outsideIteration = s.outsideIteration := rfl

@[simp] theorem outsideIteration_shiftBody (s : State) : (shiftBody s).outsideIteration = s.outsideIteration := rfl

theorem qgenOfTile_keeps {P : State → Prop} (t : Nat) (hq : P (qgenBody s)) (hs : P s) : P (qgenOfTile t s) := by
  unfold qgenOfTile
  split
  · exact hq
  · exact hs

@[simp] theorem outsideIteration_stepTile (t : Nat) (s : State) :
    (stepTile t s).outsideIteration = s.outsideIteration := by
  simp only [stepTile, outsideIteration_cpqBody, outsideIteration_macqBody]
  exact qgenOfTile_keeps (P := fun v => v.outsideIteration = s.outsideIteration) t (by simp) (by simp)

@[simp] theorem outsideIteration_forTiles_stepTile (k t : Nat) (s : State) :
    (forTiles k t stepTile s).outsideIteration = s.outsideIteration :=
  forTiles_keeps (P := fun v => v.outsideIteration = s.outsideIteration) k t s
    (fun t v _ _ hv => (outsideIteration_stepTile t v).trans hv) rfl

@[simp] theorem outsideIteration_stepBody (s : State) : (stepBody s).outsideIteration = s.outsideIteration := by
  simp [stepBody]

@[simp] theorem outsideIteration_repeatBody_stepBody (k : Nat) (s : State) :
    (repeatBody k stepBody s).outsideIteration = s.outsideIteration :=
  repeatBody_keeps (P := fun v => v.outsideIteration = s.outsideIteration)
    (fun v hv => (outsideIteration_stepBody v).trans hv) k s rfl

/-- Every command but CLEAR, FINAL and RUN writes at most what a digit iteration writes. -/
theorem outsideIteration_commandBody {i : Instr} (hc : i ≠ .clear) (hf : i ≠ .final) (hr : i ≠ .run) (s : State) :
    (commandBody i s).outsideIteration = s.outsideIteration := by
  cases i with
  | clear | final | run => contradiction
  | step => exact outsideIteration_stepBody s
  | rd | wr | nop | macy | cpy | qgen | macq | cpq | shift => rfl

theorem outsideEngine_beforeFinal (s : State) :
    (repeatBody s.limbs stepBody (clearBody s)).outsideEngine = s.outsideEngine :=
  outsideEngine_of_outsideIteration (s := clearBody s) (outsideIteration_repeatBody_stepBody _ _)

theorem outsideEngine_commandBody (i : Instr) (s : State) : (commandBody i s).outsideEngine = s.outsideEngine := by
  cases i with
  | clear | final => rfl
  | run => exact outsideEngine_beforeFinal s
  | rd | wr | nop | macy | cpy | qgen | macq | cpq | shift | step =>
    exact outsideEngine_of_outsideIteration (outsideIteration_commandBody (by nofun) (by nofun) (by nofun) s)

/-! ## Which commands write ITER, Q, CY, CQ and ZBUF -/

theorem commandBody_iter {i : Instr} (hc : i ≠ .clear) (hsh : i ≠ .shift) (hst : i ≠ .step) (hr : i ≠ .run) :
    (commandBody i s).iter = s.iter := by
  cases i with
  | clear | shift | step | run => contradiction
  | rd | wr | nop | macy | cpy | qgen | macq | cpq | final => rfl

theorem commandBody_q {i : Instr} (hc : i ≠ .clear) (hq : i ≠ .qgen) (hst : i ≠ .step) (hr : i ≠ .run) :
    (commandBody i s).q = s.q := by
  cases i with
  | clear | qgen | step | run => contradiction
  | rd | wr | nop | macy | cpy | macq | cpq | shift | final => rfl

theorem commandBody_cy {i : Instr} (hc : i ≠ .clear) (hp : ∀ t, i ≠ .cpy t) (hst : i ≠ .step) (hr : i ≠ .run) :
    (commandBody i s).cy = s.cy := by
  cases i with
  | clear | step | run => contradiction
  | cpy t => exact absurd rfl (hp t)
  | rd | wr | nop | macy | qgen | macq | cpq | shift | final => rfl

theorem commandBody_cq {i : Instr} (hc : i ≠ .clear) (hp : ∀ t, i ≠ .cpq t) (hst : i ≠ .step) (hr : i ≠ .run) :
    (commandBody i s).cq = s.cq := by
  cases i with
  | clear | step | run => contradiction
  | cpq t => exact absurd rfl (hp t)
  | rd | wr | nop | macy | cpy | qgen | macq | shift | final => rfl

theorem commandBody_zbuf {i : Instr} (hf : i ≠ .final) (hr : i ≠ .run) : (commandBody i s).zbuf = s.zbuf := by
  by_cases hc : i = .clear
  · subst hc
    rfl
  · exact eq_of_blanked State.zbuf (outsideIteration_commandBody hc hf hr s) fun _ => rfl

/-- A range write leaves the words from its end on alone. -/
theorem wordAt_writeRange_of_stop_le {ws : Words} {stop g : Nat} (lo : Nat) (f : Nat → Nat) (h : stop ≤ g) :
    wordAt (writeRange lo stop f ws) g = wordAt ws g := by
  rw [wordAt_writeRange, if_neg (by omega)]

theorem wordAt_finalBody_zbuf_of_le {k : Nat} (h : s.limbs ≤ k) : wordAt (finalBody s).zbuf k = wordAt s.zbuf k :=
  wordAt_writeRange_of_stop_le 0 _ h

/-- No command writes a word of ZBUF at N or above (10_state R39). -/
theorem wordAt_commandBody_zbuf_of_le (i : Instr) {k : Nat} (h : s.limbs ≤ k) :
    wordAt (commandBody i s).zbuf k = wordAt s.zbuf k := by
  by_cases hf : i = .final
  · subst hf
    exact wordAt_finalBody_zbuf_of_le h
  by_cases hr : i = .run
  · subst hr
    have hzbuf : (repeatBody s.limbs stepBody (clearBody s)).zbuf = s.zbuf :=
      eq_of_blanked (s := clearBody s) State.zbuf (outsideIteration_repeatBody_stepBody s.limbs _) fun _ => rfl
    have hlimbs := limbs_of_outsideEngine (outsideEngine_beforeFinal s)
    rw [← hzbuf]
    exact wordAt_finalBody_zbuf_of_le (hlimbs.trans_le h)
  · rw [commandBody_zbuf hf hr]

/-! ## Lanes at or above L -/

theorem macTile_lane_of_active_le (limb : Nat → Nat) (digit t : Nat) {g : Nat} (h : s.active ≤ g) :
    (macTile limb digit t s).lane g = s.lane g :=
  wordAt_writeRange_of_stop_le _ _ ((tileEnd_le_active s t).trans h)

theorem wordAt_cpropAcc_of_active_le (t cin : Nat) {g : Nat} (h : s.active ≤ g) :
    wordAt (cpropAcc s t cin) g = s.lane g :=
  wordAt_writeRange_of_stop_le _ _ ((tileEnd_le_active s t).trans h)

theorem cpyBody_macyBody_lane_of_active_le (t : Nat) {g : Nat} (h : s.active ≤ g) :
    (cpyBody t (macyBody t s)).lane g = s.lane g :=
  (wordAt_cpropAcc_of_active_le (s := macyBody t s) t _ h).trans (macTile_lane_of_active_le _ _ t h)

theorem cpqBody_macqBody_lane_of_active_le (t : Nat) {g : Nat} (h : s.active ≤ g) :
    (cpqBody t (macqBody t s)).lane g = s.lane g :=
  (wordAt_cpropAcc_of_active_le (s := macqBody t s) t _ h).trans (macTile_lane_of_active_le _ _ t h)

theorem stepTile_lane_of_active_le (t : Nat) {g : Nat} (h : s.active ≤ g) : (stepTile t s).lane g = s.lane g := by
  have hcpy := cpyBody_macyBody_lane_of_active_le t h
  obtain ⟨hlane, hactive⟩ : (qgenOfTile t (cpyBody t (macyBody t s))).lane g = s.lane g ∧
      (qgenOfTile t (cpyBody t (macyBody t s))).active = s.active :=
    qgenOfTile_keeps (P := fun v => v.lane g = s.lane g ∧ v.active = s.active) t ⟨hcpy, rfl⟩ ⟨hcpy, rfl⟩
  exact (cpqBody_macqBody_lane_of_active_le t (hactive.trans_le h)).trans hlane

theorem shiftBody_lane_of_active_le {g : Nat} (h : s.active ≤ g) : (shiftBody s).lane g = s.lane g :=
  wordAt_writeRange_of_stop_le _ _ h

theorem stepBody_lane_of_active_le {g : Nat} (h : s.active ≤ g) : (stepBody s).lane g = s.lane g := by
  obtain ⟨hactive, hlane⟩ : (forTiles s.tiles 0 stepTile s).active = s.active ∧
      (forTiles s.tiles 0 stepTile s).lane g = s.lane g := by
    refine forTiles_keeps (P := fun v => v.active = s.active ∧ v.lane g = s.lane g) s.tiles 0 s
      (fun t v _ _ ⟨hactive, hlane⟩ => ⟨?_, ?_⟩) ⟨rfl, rfl⟩
    · exact (active_of_outsideIteration (outsideIteration_stepTile t v)).trans hactive
    · exact (stepTile_lane_of_active_le t (hactive.trans_le h)).trans hlane
  exact (shiftBody_lane_of_active_le (hactive.trans_le h)).trans hlane

/-- Every command but CLEAR and RUN leaves the lanes at or above L alone (10_state R37). -/
theorem commandBody_lane_of_active_le {i : Instr} (hc : i ≠ .clear) (hr : i ≠ .run) {g : Nat} (h : s.active ≤ g) :
    (commandBody i s).lane g = s.lane g := by
  cases i with
  | clear | run => contradiction
  | rd | wr | nop | qgen => rfl
  | macy t | macq t => exact macTile_lane_of_active_le _ _ t h
  | cpy t | cpq t => exact wordAt_cpropAcc_of_active_le t _ h
  | shift => exact shiftBody_lane_of_active_le h
  | step => exact stepBody_lane_of_active_le h
  | final => exact wordAt_writeRange_of_stop_le 0 _ h

/-! ## The state invariant over every step -/

theorem wf_stepTile (t : Nat) (h : s.Wf) : (stepTile t s).Wf := by
  have hcpy := wf_cpyBody (wf_macTile h s.limbX (s.limbY s.iter.toNat) t) t
  exact wf_cpqBody (wf_macTile (qgenOfTile_keeps t (wf_qgenBody hcpy) hcpy) _ _ t) t

theorem wf_stepBody (h : s.Wf) : (stepBody s).Wf :=
  wf_shiftBody (forTiles_keeps s.tiles 0 s (fun t _ _ _ hv => wf_stepTile t hv) h)

theorem wf_runBody (h : s.Wf) : (runBody s).Wf :=
  wf_finalBody (repeatBody_keeps (P := State.Wf) (fun _ => wf_stepBody) s.limbs _ (wf_clearBody h))

theorem wf_commandBody (i : Instr) (h : s.Wf) : (commandBody i s).Wf := by
  cases i with
  | rd | wr | nop => exact h
  | clear => exact wf_clearBody h
  | macy t | macq t => exact wf_macTile h _ _ t
  | cpy t => exact wf_cpyBody h t
  | cpq t => exact wf_cpqBody h t
  | qgen => exact wf_qgenBody h
  | shift => exact wf_shiftBody h
  | step => exact wf_stepBody h
  | final => exact wf_finalBody h
  | run => exact wf_runBody h

theorem wf_writeTarget (h : s.Wf) (d : Data) (x : PortTarget) : (writeTarget s d x).Wf := by
  obtain ⟨hp, hminv, hq, hcy, hcq, hm⟩ := h
  have hm' := memory_wf_writeTarget hm d x
  cases x with
  | minv => exact ⟨hp, lowLimb_lt s d, hq, hcy, hcq, hm'⟩
  | id | param | ctrl | cmd | status | iter | q | cy | cq | zhi | xbuf | ybuf | mbuf | zbuf | acc | unmapped =>
    exact ⟨hp, hminv, hq, hcy, hcq, hm'⟩

theorem wf_exec {i : Instr} (h : s.Wf) (hu : exec i s = .next u) : u.Wf := by
  cases hi : i.isCommand with
  | true =>
    obtain ⟨e, rfl⟩ | rfl := exec_command_cases hi hu
    · exact h
    · exact wf_commandBody i h
  | false =>
    obtain ⟨v, rfl⟩ | ⟨t, rfl⟩ | ⟨d, x, rfl⟩ := exec_bus_cases hi hu
    · exact h
    · exact h
    · exact wf_writeTarget h d x

theorem wf_bindAfter (name : Option String) (i : Instr) (h : s.Wf) : (bindAfter name i s).Wf := by
  cases i <;> exact h

theorem wf_waitAgain (h : s.Wf) : (waitAgain s).Wf := by
  unfold waitAgain
  split <;> exact h

theorem wf_hostItemStep {it : HostItem} (h : s.Wf) (hu : hostItemStep it s = .next u) : u.Wf := by
  cases it with
  | txn name t =>
    obtain ⟨v, hv, rfl⟩ := mapNext_eq_next.mp hu
    exact wf_bindAfter name _ (wf_exec h hv)
  | wait =>
    obtain ⟨v, hv, rfl⟩ := mapNext_eq_next (o := exec (.rd addrStatus) s).mp hu
    exact wf_waitAgain (wf_exec h hv)

theorem wf_engineStep {w : CmdWord} (h : s.Wf) (hu : engineStep w s = .next u) : u.Wf := by
  obtain ⟨e, -, rfl⟩ | ⟨i, v, -, hv, rfl⟩ := engineStep_cases hu
  · exact h
  · have hv : v.Wf := wf_exec h hv
    exact hv

theorem wf_step (h : s.Wf) (hu : step s = .next u) : u.Wf := by
  obtain ⟨-, -, rfl⟩ | ⟨it, rest, -, -, hit⟩ | ⟨w, it, rest, -, -, -, -, hit⟩ | ⟨w, -, -, hw⟩ := step_cases hu
  · exact h
  · exact wf_hostItemStep (s := s.setHost rest) h hit
  · exact wf_hostItemStep (s := s.letPass.setHost rest) h hit
  · exact wf_engineStep h hw

/-! ## Bounded lanes never wrap (43_sequences R190) -/

/-- The lane invariant of 43_sequences R190 with STATUS.OVF: a well-formed state whose active lanes are at most 2r − 2 and whose OVF
is `b`. Every body of the ordered commands keeps it, so none of them wraps. -/
structure State.Unwrapped (b : Bool) (s : State) : Prop where
  wf : s.Wf
  lanes : s.LanesBounded
  ovf : s.ovf = b

variable {b : Bool}

theorem two_le_radix (h : s.Wf) : 2 ≤ s.radix := by
  obtain ⟨⟨hw, -⟩, -⟩ := h
  exact Nat.pow_le_pow_right (Nat.succ_pos 1) hw

/-- A lane of at most 2r − 2 takes the product of two digits without wrapping: 2r − 2 + (r − 1)² < r². -/
theorem add_mul_lt_sq {r lane x y : Nat} (hlane : lane + 2 ≤ 2 * r) (hx : x < r) (hy : y < r) : lane + x * y < r * r := by
  obtain ⟨m, rfl⟩ : ∃ m, r = m + 1 := ⟨r - 1, by omega⟩
  have hprod : x * y ≤ m * m := Nat.mul_le_mul (by omega) (by omega)
  have hsq : (m + 1) * (m + 1) = m * m + 2 * m + 1 := by ring
  omega

/-- With the active lanes at most 2r − 2 a multiply-accumulate by a digit wraps no lane. -/
theorem macWraps_of_lanesBounded {limb : Nat → Nat} {digit : Nat} (hl : s.LanesBounded) (hlimb : ∀ g, limb g < s.radix)
    (hdigit : digit < s.radix) (t : Nat) : macWraps s limb digit t = false := by
  rw [← Bool.not_eq_true, macWraps_iff]
  rintro ⟨g, ⟨-, hg⟩, hwrap⟩
  have hlt := add_mul_lt_sq (hl g (hg.trans_le (tileEnd_le_active s t))) (hlimb g) hdigit
  have hsq : 2 ^ s.params.lane = s.radix * s.radix := by rw [Params.lane, Nat.two_mul, pow_add, State.radix]
  rw [hsq, macSum] at hwrap
  omega

theorem macTile_ovf_of_lanesBounded {limb : Nat → Nat} {digit : Nat} (hl : s.LanesBounded) (hlimb : ∀ g, limb g < s.radix)
    (hdigit : digit < s.radix) (t : Nat) : (macTile limb digit t s).ovf = s.ovf := by
  rw [macTile_eq, macWraps_of_lanesBounded hl hlimb hdigit, Bool.or_false]

/-- A multiply-accumulate on a tile and then a propagation on the same tile leave every active lane at most 2r − 2: the propagation
bounds the lanes of the tile, and the others are as before. -/
theorem cpropAcc_macTile_bounded {limb : Nat → Nat} {digit cin : Nat} (h : s.Wf) (hl : s.LanesBounded) (hcin : cin < s.radix)
    (t : Nat) {g : Nat} (hg : g < s.active) : wordAt (cpropAcc (macTile limb digit t s) t cin) g + 2 ≤ 2 * s.radix := by
  obtain ⟨-, -, -, -, -, hm⟩ := wf_macTile h limb digit t
  rw [cpropAcc, wordAt_writeRange]
  split
  · exact cpropLane_lt hm hcin t g
  · next hout =>
    have hlane : wordAt (macTile limb digit t s).acc g = s.lane g := by
      rw [macTile_length] at hout
      exact (wordAt_writeRange _ _ _ g).trans (if_neg hout)
    rw [hlane]
    exact hl g hg

theorem unwrapped_cpyBody_macTile {limb : Nat → Nat} {digit : Nat} (h : s.Unwrapped b) (hlimb : ∀ g, limb g < s.radix)
    (hdigit : digit < s.radix) (t : Nat) : (cpyBody t (macTile limb digit t s)).Unwrapped b where
  wf := wf_cpyBody (wf_macTile h.wf limb digit t) t
  lanes := by
    obtain ⟨-, -, -, hcy, -⟩ := h.wf
    exact fun _ hg => cpropAcc_macTile_bounded h.wf h.lanes hcy t hg
  ovf := (macTile_ovf_of_lanesBounded h.lanes hlimb hdigit t).trans h.ovf

theorem unwrapped_cpqBody_macTile {limb : Nat → Nat} {digit : Nat} (h : s.Unwrapped b) (hlimb : ∀ g, limb g < s.radix)
    (hdigit : digit < s.radix) (t : Nat) : (cpqBody t (macTile limb digit t s)).Unwrapped b where
  wf := wf_cpqBody (wf_macTile h.wf limb digit t) t
  lanes := by
    obtain ⟨-, -, -, -, hcq, -⟩ := h.wf
    exact fun _ hg => cpropAcc_macTile_bounded h.wf h.lanes hcq t hg
  ovf := (macTile_ovf_of_lanesBounded h.lanes hlimb hdigit t).trans h.ovf

theorem unwrapped_qgenBody (h : s.Unwrapped b) : (qgenBody s).Unwrapped b := ⟨wf_qgenBody h.wf, h.lanes, h.ovf⟩

theorem unwrapped_stepTile (t : Nat) (h : s.Unwrapped b) : (stepTile t s).Unwrapped b := by
  obtain ⟨-, -, -, -, -, -, hx, hy, -⟩ := h.wf
  have hcpy : (cpyBody t (macyBody t s)).Unwrapped b :=
    unwrapped_cpyBody_macTile h (fun g => limbOf_lt hx g) (limbOf_lt hy s.iter.toNat) t
  have hq := qgenOfTile_keeps t (unwrapped_qgenBody hcpy) hcpy
  obtain ⟨-, -, hdigit, -, -, -, -, -, hm, -⟩ := hq.wf
  exact unwrapped_cpqBody_macTile hq (fun g => limbOf_lt hm g) hdigit t

/-- A shift moves bounded lanes down, and the carry into the top lane is at most 2r − 2. -/
theorem unwrapped_shiftBody (h : s.Unwrapped b) : (shiftBody s).Unwrapped b where
  wf := wf_shiftBody h.wf
  ovf := h.ovf
  lanes := by
    intro g hg
    obtain ⟨-, -, -, hcy, hcq, -⟩ := h.wf
    change wordAt (shiftAcc s) g + 2 ≤ 2 * s.radix
    rw [shiftAcc, wordAt_writeRange]
    split
    · split
      · next hlow => exact h.lanes _ hlow
      · omega
    · exact h.lanes g hg

theorem unwrapped_stepBody (h : s.Unwrapped b) : (stepBody s).Unwrapped b :=
  unwrapped_shiftBody (forTiles_keeps s.tiles 0 s (fun t _ _ _ hv => unwrapped_stepTile t hv) h)

/-- FINAL writes canonical lanes, which are below r and so at most 2r − 2. -/
theorem unwrapped_finalBody (h : s.Unwrapped b) : (finalBody s).Unwrapped b where
  wf := wf_finalBody h.wf
  ovf := h.ovf
  lanes := by
    intro g hg
    have hr := two_le_radix h.wf
    change wordAt (canonicalAcc s s.vacc) g + 2 ≤ 2 * s.radix
    rw [canonicalAcc, wordAt_writeRange]
    split
    · have hdigit : digitOf s.params.w s.vacc g < s.radix := digitOf_lt _ _ _
      omega
    · exact h.lanes g hg

theorem unwrapped_clearBody (h : s.Wf) : (clearBody s).Unwrapped false where
  wf := wf_clearBody h
  ovf := rfl
  lanes := by
    intro g _
    have hr := two_le_radix h
    have hlane : (clearBody s).lane g = 0 := wordAt_replicate _ g
    rw [hlane, clearBody_radix]
    omega

theorem unwrapped_runBody (h : s.Wf) : (runBody s).Unwrapped false :=
  unwrapped_finalBody
    (repeatBody_keeps (P := State.Unwrapped false) (fun _ => unwrapped_stepBody) s.limbs _ (unwrapped_clearBody h))

/-- CLEAR, STEP, FINAL and RUN complete and keep the lane invariant with OVF = 0, whether their checks pass or fail. -/
theorem exec_ordered_unwrapped {i : Instr} (hi : i = .clear ∨ i = .step ∨ i = .final ∨ i = .run) (h : s.Unwrapped false) :
    ∃ u, exec i s = .next u ∧ u.Unwrapped false := by
  have hcmd : i.isCommand = true := by obtain rfl | rfl | rfl | rfl := hi <;> rfl
  have hexec := exec_eq_command hcmd s
  refine ⟨_, hexec, ?_⟩
  obtain ⟨e, hraise⟩ | hbody := exec_command_cases hcmd hexec
  · rw [hraise]
    exact ⟨h.wf, h.lanes, h.ovf⟩
  · rw [hbody]
    obtain rfl | rfl | rfl | rfl := hi
    · exact unwrapped_clearBody h.wf
    · exact unwrapped_stepBody h
    · exact unwrapped_finalBody h
    · exact unwrapped_runBody h.wf

theorem execAll_cons_of_next {i : Instr} (is : List Instr) (h : exec i s = .next u) : execAll (i :: is) s = execAll is u := by
  rw [execAll, h]

theorem execAll_ordered_unwrapped {is : List Instr} (his : ∀ i ∈ is, i = .clear ∨ i = .step ∨ i = .final ∨ i = .run)
    (h : s.Unwrapped false) : ∃ u, execAll is s = .next u ∧ u.Unwrapped false := by
  induction is generalizing s with
  | nil => exact ⟨s, rfl, h⟩
  | cons i is ih =>
    obtain ⟨hi, his⟩ := List.forall_mem_cons.mp his
    obtain ⟨v, hv, hinv⟩ := exec_ordered_unwrapped hi h
    rw [execAll_cons_of_next is hv]
    exact ih his hinv

/-! ## FINAL -/

theorem radix_pow (s : State) (g : Nat) : s.radix ^ g = 2 ^ (g * s.params.w) := by
  rw [State.radix, ← pow_mul, Nat.mul_comm]

theorem digitOf_eq_radix (s : State) (v g : Nat) : digitOf s.params.w v g = v / s.radix ^ g % s.radix := by
  rw [digitOf, radix_pow, State.radix]

theorem excess_eq_radix (s : State) (v : Nat) : s.excess v = v / s.radix ^ s.limbs := by
  rw [State.excess, radix_pow]

theorem finalBody_eq (s : State) :
    finalBody s = { s with acc := canonicalAcc s s.vacc, zbuf := resultZbuf s s.vacc, zhi := BitVec.ofNat 64 (s.excess s.vacc),
                           zovf := s.exceeds s.vacc, done := true } := rfl

theorem wordAt_canonicalAcc (h : s.active ≤ s.acc.length) (v g : Nat) :
    wordAt (canonicalAcc s v) g = if g < s.active then v / s.radix ^ g % s.radix else s.lane g := by
  simp only [canonicalAcc, wordAt_writeRange_of_le _ h, Nat.zero_le, true_and, digitOf_eq_radix]
  rfl

theorem wordAt_resultZbuf (h : s.limbs ≤ s.zbuf.length) (v k : Nat) :
    wordAt (resultZbuf s v) k =
      if k < s.limbs then v / s.radix ^ (s.limbs - 1 - k) % s.radix else wordAt s.zbuf k := by
  simp only [resultZbuf, wordAt_writeRange_of_le _ h, Nat.zero_le, true_and, digitOf_eq_radix]

theorem exceeds_iff (s : State) (v : Nat) : s.exceeds v = true ↔ v / s.radix ^ s.limbs ≠ 0 := by
  rw [State.exceeds, decide_eq_true_eq, excess_eq_radix]

theorem exec_final_of_configured (h : s.Configured) : exec .final s = .next (finalBody s) := by
  rw [exec_eq_command rfl]
  exact congrArg _ (command_of_passes (by simp [commandChecks, checkConfig_eq_none.mpr h]))

/-! ## STATUS -/

theorem errBits_le (e : ErrorCode) : (errBits e).toNat ≤ 5 := by
  cases e <;> decide

/-- The four flags are bits 3:0 of STATUS, so a field from bit 4 up is one of the zeros or of ERR above them. -/
theorem statusWord_extract (s : State) {start len : Nat} (hlo : 4 ≤ start) (hhi : start + len ≤ 64) :
    s.statusWord.extractLsb' start len = (errBits s.err ++ 0#4).extractLsb' (start - 4) len := by
  rw [State.statusWord, BitVec.extractLsb'_setWidth_of_le hhi, BitVec.extractLsb'_append_eq_of_le (by omega),
    BitVec.extractLsb'_append_eq_of_le (by omega), BitVec.extractLsb'_append_eq_of_le (by omega),
    BitVec.extractLsb'_append_eq_of_le (by omega)]
  congr 1

theorem statusWord_err (s : State) : s.statusWord.extractLsb' 8 4 = errBits s.err := by
  rw [statusWord_extract s (by decide) (by decide), BitVec.extractLsb'_append_eq_of_le (by decide), BitVec.extractLsb'_eq_self]

theorem statusWord_reserved_low (s : State) : s.statusWord.extractLsb' 4 4 = 0 := by
  rw [statusWord_extract s (by decide) (by decide), BitVec.extractLsb'_append_eq_of_add_le (by decide), BitVec.extractLsb'_eq_self]
  rfl

theorem statusWord_reserved_high (s : State) : s.statusWord.extractLsb' 12 52 = 0 := by
  rw [statusWord_extract s (by decide) (by decide)]
  ext i hi
  rw [BitVec.getElem_extractLsb', BitVec.getLsbD_of_ge _ _ (by omega)]
  simp

/-! ## Reset -/

theorem statusWord_resetWith (p : Params) (draw : Nat → Nat) : (State.resetWith p draw).statusWord = 0 := by
  simp [State.statusWord, State.resetWith, State.busy, errBits]

theorem wf_resetWith {p : Params} (hp : p.Valid) (draw : Nat → Nat) : (State.resetWith p draw).Wf := by
  have hr : 0 < 2 ^ p.w := by positivity
  exact ⟨hp, hr, hr, hr, hr, memory_wf_resetWith p draw⟩

theorem wordAt_resetWords {k count : Nat} (draw : Nat → Nat) (base width : Nat) (hk : k < count) :
    wordAt (resetWords draw base count width) k = draw (base + k) % 2 ^ width := by
  simp [wordAt, resetWords, List.getD_eq_getElem?_getD, hk]

/-- A draw that gives the words of an array at its host addresses resets the array to those words. -/
theorem resetWords_eq {draw : Nat → Nat} {base count width : Nat} {ws : Words} (h : Words.wf count width ws)
    (hdraw : ∀ k < count, draw (base + k) = wordAt ws k) : resetWords draw base count width = ws := by
  have hlen : (resetWords draw base count width).length = count := (wf_resetWords draw base count width).1
  refine words_ext (hlen.trans h.1.symm) fun k => ?_
  by_cases hk : k < count
  · rw [wordAt_resetWords draw base width hk, hdraw k hk, Nat.mod_eq_of_lt (wordAt_lt h k)]
  · rw [wordAt_of_length_le (hlen.trans_le (Nat.le_of_not_lt hk)), wordAt_of_length_le (h.1.trans_le (Nat.le_of_not_lt hk))]

/-- The draw under which the arrays hold the contents `array` after reset: region A[15:12] of a host address names the array, A[11:0]
the word (30_encoding R72). -/
def drawOf (array : Nat → Words) (a : Nat) : Nat := wordAt (array (a / 4096)) (a % 4096)

theorem drawOf_region (array : Nat → Words) (region : Nat) {k : Nat} (hk : k < 4096) :
    drawOf array (region * 4096 + k) = wordAt (array region) k := by
  have hdiv : (region * 4096 + k) / 4096 = region := by omega
  have hmod : (region * 4096 + k) % 4096 = k := by omega
  rw [drawOf, hdiv, hmod]

/-- The array of an address region (30_encoding R72); the regions that name no array are given ACC's contents. -/
def arrayOfRegion (acc xbuf ybuf mbuf zbuf : Words) : Nat → Words
  | 1 => xbuf
  | 2 => ybuf
  | 3 => mbuf
  | 4 => zbuf
  | _ => acc

/-- Under its draw an array of at most 4096 words, those of one region, has the given contents after reset. -/
theorem resetWords_drawOf {array : Nat → Words} {region count width : Nat} (hcount : count ≤ 4096)
    (h : Words.wf count width (array region)) : resetWords (drawOf array) (region * 4096) count width = array region :=
  resetWords_eq h fun _ hk => drawOf_region array region (hk.trans_le hcount)

end Sys2Proof.Machine

namespace Sys2Proof.Proofs

open Sys2Proof Sys2Proof.Machine

/-- Settles O39: an induction over the commands, each of which keeps the lane invariant that CLEAR establishes. -/
theorem orderedCommandsNeverOverflow : Obligations.OrderedCommandsNeverOverflow := by
  intro s is hs his
  rw [execAll_cons_of_next (u := clearBody s) is rfl]
  obtain ⟨u, hu, hinv⟩ := execAll_ordered_unwrapped his (unwrapped_clearBody hs)
  exact ⟨u, hu, hinv.ovf⟩

/-- Settles O56, by the inversion of the step. -/
theorem stepKeepsTheInvariant : Obligations.StepKeepsTheInvariant := fun _ _ => wf_step

/-- Settles O42: the digits of V are its canonical lanes, and both written ranges lie inside their arrays. -/
theorem finalNormalizes : Obligations.FinalNormalizes := by
  intro s hs hc
  obtain ⟨hp, -, -, -, -, ⟨hacc, -⟩, -, -, -, ⟨hzbuf, -⟩⟩ := hs
  refine ⟨finalBody s, exec_final_of_configured hc, finalBody_eq s, length_writeRange _ _ _, length_writeRange _ _ _,
    wordAt_canonicalAcc (hacc ▸ active_le_nMax hp hc) s.vacc, wordAt_resultZbuf (hzbuf ▸ limbs_le_nMax hp hc) s.vacc, ?_,
    exceeds_iff s s.vacc⟩
  rw [finalBody_eq, BitVec.toNat_ofNat, excess_eq_radix]

/-- Settles O53: a command changes nothing outside the registers of the ENGINE. -/
theorem commandsLeaveTheHostsRegisters : Obligations.CommandsLeaveTheHostsRegisters := by
  intro i s u hi hu
  obtain ⟨e, rfl⟩ | rfl := exec_command_cases hi hu
  · rfl
  · exact eq_of_outsideEngine (outsideEngine_commandBody i s)

/-- Settles O54: a bus transaction and a failed command write none of the registers, and a body only those of its rule. -/
theorem onlyTheNamedCommandsWrite : Obligations.OnlyTheNamedCommandsWrite := by
  intro i s u hu
  cases hi : i.isCommand with
  | false =>
    obtain ⟨v, rfl⟩ | ⟨t, rfl⟩ | ⟨d, x, rfl⟩ := exec_bus_cases hi hu
    · simp
    · simp
    · obtain ⟨-, hdone, -, hzovf, -, hiter, hq, hcy, hcq, hzhi, -, hzbuf, -⟩ := writeTarget_engine (s := s) (d := d) x
      simp [hdone, hzovf, hiter, hq, hcy, hcq, hzhi, hzbuf]
  | true =>
    obtain ⟨e, rfl⟩ | rfl := exec_command_cases hi hu
    · simp
    · refine ⟨fun hc hf hr => ?_, commandBody_iter, commandBody_q, commandBody_cy, commandBody_cq, commandBody_zbuf,
        fun _ => wordAt_commandBody_zbuf_of_le i⟩
      have h := outsideIteration_commandBody hc hf hr s
      exact ⟨eq_of_blanked State.done h fun _ => rfl, eq_of_blanked State.zovf h fun _ => rfl,
        eq_of_blanked State.zhi h fun _ => rfl⟩

/-- Settles O55: every range of ACC a body other than CLEAR's writes ends at or below L. -/
theorem inactiveLanesAreKept : Obligations.InactiveLanesAreKept := by
  intro i s u hu hc hr g hg
  cases hi : i.isCommand with
  | false =>
    obtain ⟨v, rfl⟩ | ⟨t, rfl⟩ | ⟨d, x, rfl⟩ := exec_bus_cases hi hu
    · rfl
    · rfl
    · obtain ⟨-, -, -, -, -, -, -, -, -, -, hacc, -⟩ := writeTarget_engine (s := s) (d := d) x
      rw [State.lane, hacc, State.lane]
  | true =>
    obtain ⟨e, rfl⟩ | rfl := exec_command_cases hi hu
    · rfl
    · exact commandBody_lane_of_active_le hc hr hg

/-- Settles O58: the draw that gives each array's contents at its own region of host addresses. -/
theorem resetValues : Obligations.ResetValues := by
  refine ⟨fun p draw => ?values, ⟨Config.params, Config.resetDraw, rfl⟩,
    fun p acc xbuf ybuf mbuf zbuf hp ha hx hy hm hz => ?contents⟩
  case values =>
    exact ⟨rfl, rfl, rfl, rfl, rfl, rfl, rfl, rfl, rfl, rfl, rfl, rfl, rfl, rfl, statusWord_resetWith p draw, rfl, rfl⟩
  case contents =>
    obtain ⟨-, -, -, -, hmax⟩ := hp
    exact ⟨drawOf (arrayOfRegion acc xbuf ybuf mbuf zbuf), resetWords_drawOf (region := 5) hmax ha,
      resetWords_drawOf (region := 1) hmax hx, resetWords_drawOf (region := 2) hmax hy,
      resetWords_drawOf (region := 3) hmax hm, resetWords_drawOf (region := 4) hmax hz⟩

/-- Settles O21: the fields of STATUS above its flags. -/
theorem errorCodesInStatus : Obligations.ErrorCodesInStatus :=
  ⟨rfl, rfl, rfl, rfl, rfl, rfl, fun s =>
    ⟨statusWord_err s, (statusWord_err s).symm ▸ errBits_le s.err, statusWord_reserved_low s, statusWord_reserved_high s⟩⟩

/-- Settles O57: the registers are 0 after reset, and every word of the draw is cut to its width. -/
theorem resetMeetsTheInvariant : Obligations.ResetMeetsTheInvariant :=
  ⟨wf_resetWith config_params_valid Config.resetDraw, fun _ draw hp => wf_resetWith hp draw⟩

end Sys2Proof.Proofs

/-! PROOFS. The memory of the block (20_memory): the address map reaches every mapped word by one address and a write of an operand
word changes that word alone; a command commutes with the latch, so it executes on the operands of the write that latched it. -/

namespace Sys2Proof.Machine

variable {s : State}

/-! ## The address map (30_encoding R72, R73) -/

/-- The one host address at which a register or an array word is reached; 0 stands for `unmapped`, which has none. -/
def targetAddr : PortTarget → Nat
  | .id => 0x0000
  | .param => 0x0001
  | .ctrl => 0x0002
  | .minv => 0x0003
  | .cmd => 0x0004
  | .status => 0x0005
  | .iter => 0x0006
  | .q => 0x0007
  | .cy => 0x0008
  | .cq => 0x0009
  | .zhi => 0x000A
  | .xbuf k => 0x1000 + k
  | .ybuf k => 0x2000 + k
  | .mbuf k => 0x3000 + k
  | .zbuf k => 0x4000 + k
  | .acc g => 0x5000 + g
  | .unmapped => 0

theorem targetAddr_decodeRegion {p : Params} {a : Addr} (h : decodeRegion p a ≠ .unmapped) :
    targetAddr (decodeRegion p a) = a.toNat := by
  have ha := toNat_eq_region_index a
  obtain ⟨-, ⟨hr, hd⟩ | ⟨hr, hd⟩ | ⟨hr, hd⟩ | ⟨hr, hd⟩ | ⟨hr, hd⟩⟩ | hd := decodeRegion_cases p a
  case inr => exact absurd hd h
  all_goals
    rw [hd, ha, hr]
    rfl

/-- What a mapped address names gives the address back. -/
theorem targetAddr_decodeAddr {p : Params} {a : Addr} (h : decodeAddr p a ≠ .unmapped) :
    targetAddr (decodeAddr p a) = a.toNat := by
  unfold decodeAddr at h ⊢
  split
  case h_12 => exact targetAddr_decodeRegion (by simpa only using h)
  all_goals
    next ha => exact ha.symm

/-- Nothing is reached by two addresses (30_encoding R72). -/
theorem decodeAddr_inj {p : Params} {a b : Addr} (ha : decodeAddr p a ≠ .unmapped) (h : decodeAddr p b = decodeAddr p a) :
    b = a :=
  BitVec.eq_of_toNat_eq <| by rw [← targetAddr_decodeAddr ha, ← h, targetAddr_decodeAddr (h ▸ ha)]

theorem decodeAddr_of_regions {p : Params} {a : Addr} (ha : 0x1000 ≤ a.toNat) : decodeAddr p a = decodeRegion p a := by
  unfold decodeAddr
  split
  case h_12 => rfl
  all_goals omega

theorem indexOf_lt (a : Addr) : indexOf a < 4096 := (a.extractLsb' 0 12).isLt

theorem toNat_mod_eq_indexOf (a : Addr) : a.toNat % 0x1000 = indexOf a := by
  have := toNat_eq_region_index a
  have := indexOf_lt a
  omega

/-- An address of the first three array regions below N_MAX names the word of its operand buffer. -/
theorem decodeAddr_operand {p : Params} {a : Addr} (hlo : 0x1000 ≤ a.toNat) (hhi : a.toNat < 0x4000)
    (hk : a.toNat % 0x1000 < p.nMax) :
    decodeAddr p a = .xbuf (indexOf a) ∨ decodeAddr p a = .ybuf (indexOf a) ∨ decodeAddr p a = .mbuf (indexOf a) := by
  have ha := toNat_eq_region_index a
  have hindex := indexOf_lt a
  have hregion : regionOf a = 1 ∨ regionOf a = 2 ∨ regionOf a = 3 := by omega
  have hmapped : indexOf a < p.nMax := by rwa [← toNat_mod_eq_indexOf]
  rw [decodeAddr_of_regions hlo, decodeRegion, if_pos hmapped]
  obtain hr | hr | hr := hregion <;> simp [hr]

/-! ## A write of an operand word (40_host_access R111) -/

theorem ofNat_wordAt_writeWord {ws : Words} {k : Nat} (hk : k < ws.length) (v j : Nat) :
    BitVec.ofNat 64 (wordAt (writeWord ws k v) j) =
      if j = k then BitVec.ofNat 64 v else BitVec.ofNat 64 (wordAt ws j) := by
  simp only [wordAt_writeWord, hk, and_true, apply_ite (BitVec.ofNat 64)]

/-- After a write of an operand word, the word reads as written and everything else reads as before. -/
theorem readTarget_writeTarget_operand (hm : Memory.wf s) {k : Nat} (hk : k < s.params.nMax) {x : PortTarget}
    (hx : x = .xbuf k ∨ x = .ybuf k ∨ x = .mbuf k) (d : Data) (y : PortTarget) :
    readTarget (writeTarget s d x) y = if y = x then BitVec.ofNat 64 (lowLimb s d) else readTarget s y := by
  obtain ⟨-, ⟨hxlen, -⟩, ⟨hylen, -⟩, ⟨hmlen, -⟩, -⟩ := hm
  obtain rfl | rfl | rfl := hx
  · cases y with
    | xbuf j => simpa [writeTarget, readTarget] using ofNat_wordAt_writeWord (hxlen ▸ hk) (lowLimb s d) j
    | _ => rfl
  · cases y with
    | ybuf j => simpa [writeTarget, readTarget] using ofNat_wordAt_writeWord (hylen ▸ hk) (lowLimb s d) j
    | _ => rfl
  · cases y with
    | mbuf j => simpa [writeTarget, readTarget] using ofNat_wordAt_writeWord (hmlen ▸ hk) (lowLimb s d) j
    | _ => rfl

/-- No write effect changes what an address names. -/
theorem readValue_writeEffect (s : State) (a b : Addr) (d : Data) :
    readValue (writeEffect s a d) b = readTarget (writeTarget s d (decodeAddr s.params a)) (decodeAddr s.params b) := by
  obtain ⟨hparams, -⟩ := writeTarget_engine (s := s) (d := d) (decodeAddr s.params a)
  rw [writeEffect, readValue, hparams]

/-! ## A command commutes with the latch (40_host_access R110) -/

/-- `s` with the latch and the schedule of `v`. -/
def State.withLatchOf (v s : State) : State :=
  { s with pend := v.pend, stall := v.stall, sched := v.sched, draws := v.draws }

theorem latch_eq_withLatchOf (s : State) (w : CmdWord) : s.latch w = (s.latch w).withLatchOf s := rfl

/-- A function that commutes with each tile's body commutes with the walk over the tiles. -/
theorem forTiles_comm {f : State → State} {body : Nat → State → State} (h : ∀ t s, body t (f s) = f (body t s)) (k : Nat) :
    ∀ t s, forTiles k t body (f s) = f (forTiles k t body s) := by
  induction k with
  | zero => exact fun _ _ => rfl
  | succ k ih =>
    intro t s
    rw [forTiles, h, ih, forTiles]

/-- A function that commutes with a body commutes with its repetition. -/
theorem repeatBody_comm {f body : State → State} (h : ∀ s, body (f s) = f (body s)) (k : Nat) :
    ∀ s, repeatBody k body (f s) = f (repeatBody k body s) := by
  induction k with
  | zero => exact fun _ => rfl
  | succ k ih =>
    intro s
    rw [repeatBody, h, ih, repeatBody]

variable (v : State)

theorem macyBody_withLatchOf (t : Nat) (s : State) : macyBody t (v.withLatchOf s) = v.withLatchOf (macyBody t s) := rfl

theorem cpyBody_withLatchOf (t : Nat) (s : State) : cpyBody t (v.withLatchOf s) = v.withLatchOf (cpyBody t s) := rfl

theorem macqBody_withLatchOf (t : Nat) (s : State) : macqBody t (v.withLatchOf s) = v.withLatchOf (macqBody t s) := rfl

theorem cpqBody_withLatchOf (t : Nat) (s : State) : cpqBody t (v.withLatchOf s) = v.withLatchOf (cpqBody t s) := rfl

theorem qgenOfTile_withLatchOf (t : Nat) (s : State) : qgenOfTile t (v.withLatchOf s) = v.withLatchOf (qgenOfTile t s) := by
  unfold qgenOfTile
  split <;> rfl

theorem stepTile_withLatchOf (t : Nat) (s : State) : stepTile t (v.withLatchOf s) = v.withLatchOf (stepTile t s) := by
  rw [stepTile, macyBody_withLatchOf, cpyBody_withLatchOf, qgenOfTile_withLatchOf, macqBody_withLatchOf, cpqBody_withLatchOf,
    stepTile]

theorem stepBody_withLatchOf (s : State) : stepBody (v.withLatchOf s) = v.withLatchOf (stepBody s) :=
  congrArg shiftBody (forTiles_comm (stepTile_withLatchOf v) s.tiles 0 s)

theorem runBody_withLatchOf (s : State) : runBody (v.withLatchOf s) = v.withLatchOf (runBody s) :=
  congrArg finalBody (repeatBody_comm (stepBody_withLatchOf v) s.limbs (clearBody s))

theorem commandBody_withLatchOf (i : Instr) (s : State) :
    commandBody i (v.withLatchOf s) = v.withLatchOf (commandBody i s) := by
  cases i with
  | step => exact stepBody_withLatchOf v s
  | run => exact runBody_withLatchOf v s
  | rd | wr | nop | clear | macy | cpy | qgen | macq | cpq | shift | final => rfl

theorem firstError_withLatchOf (i : Instr) (s : State) :
    firstError (commandChecks i) (v.withLatchOf s) = firstError (commandChecks i) s := by
  cases i <;> rfl

/-- A command neither reads nor writes the latch and the schedule: it executes on the operands and the configuration alone. -/
theorem exec_withLatchOf {i : Instr} (hi : i.isCommand = true) (s : State) :
    exec i (v.withLatchOf s) = mapNext v.withLatchOf (exec i s) := by
  rw [exec_eq_command hi, exec_eq_command hi, mapNext_next, State.command, firstError_withLatchOf, State.command]
  cases firstError (commandChecks i) s with
  | some e => rfl
  | none => rw [commandBody_withLatchOf]

/-! ## The HOST's write of CMD and the ENGINE's step after it (60_exceptions R210, R211) -/

/-- The decoder of bus transactions reads a write back (30_encoding R71). -/
theorem decodeBus_busWrite (a : Addr) (d : Data) : decodeBus (busWrite a d) = .wr a d := by
  have ha := a.isLt
  have hd := d.isLt
  have ht := Laws.busWord_toNat true a d
  rw [Bool.toNat_true] at ht
  have hwe : weField (busWrite a d) = true := by
    rw [weField, busWrite, BitVec.getLsbD, ht, Nat.testBit_eq_decide_div_mod_eq]
    simp only [decide_eq_true_eq]
    omega
  have haddr : addrField (busWrite a d) = a := BitVec.eq_of_toNat_eq <| by
    rw [addrField, busWrite, BitVec.extractLsb'_toNat, ht, Nat.shiftRight_eq_div_pow]
    omega
  have hdata : dataField (busWrite a d) = d := BitVec.eq_of_toNat_eq <| by
    rw [dataField, busWrite, BitVec.extractLsb'_toNat, ht, Nat.shiftRight_eq_div_pow]
    omega
  rw [decodeBus, hwe, haddr, hdata, if_pos rfl]

/-- The HOST's step on a write of CMD latches the word (40_host_access R108). -/
theorem step_cmdWrite {w : CmdWord} {rest : List HostItem} (hp : s.pend = none)
    (hh : s.host = .txn none (busWrite addrCmd w) :: rest) : step s = .next ((s.setHost rest).latch w) := by
  have hexec : exec (.wr addrCmd w) (s.setHost rest) = .next ((s.setHost rest).latch w) :=
    execWr_idle (s := s.setHost rest) hp addrCmd w
  rw [step_eq_agentStep, agentStep, hp, hh]
  simp only [hostItemStep, decodeBus_busWrite, hexec, mapNext_next, bindAfter]

/-- Before a transaction that is no read of STATUS, and at the end of the program, the ENGINE executes the pending command and retires
it. -/
theorem step_pendingCommand {w : CmdWord} {i : Instr} (hp : s.pend = some w) (hw : decodeCommand w = .ok i)
    (hhost : ∀ it rest, s.host = it :: rest → readsStatus it = false) : step s = mapNext State.retire (exec i s) := by
  rw [step_engine hp fun it rest h => by rw [hostFirst, hhost it rest h, Bool.false_and], engineStep, hw]

theorem readsStatus_txn {t : BusWord} (h : decodeBus t ≠ .rd addrStatus) (name : Option String) :
    readsStatus (.txn name t) = false := decide_eq_false h

end Sys2Proof.Machine

namespace Sys2Proof.Proofs

open Sys2Proof Sys2Proof.Machine

/-- Settles O18: the address names one operand word, which reads as written; every other address names something else or nothing. -/
theorem portReadAfterWrite : Obligations.PortReadAfterWrite := by
  intro s a d hs hp hlo hhi hk
  obtain ⟨-, -, -, -, -, hm⟩ := hs
  have hx := decodeAddr_operand hlo hhi hk
  have hindex : indexOf a < s.params.nMax := toNat_mod_eq_indexOf a ▸ hk
  have hread := fun b => (readValue_writeEffect s a b d).trans
    (readTarget_writeTarget_operand hm hindex hx d (decodeAddr s.params b))
  have hmapped : decodeAddr s.params a ≠ .unmapped := by
    obtain h | h | h := hx <;> simp [h]
  refine ⟨writeEffect s a d, execWr_idle hp a d, ?same, fun b hb => ?other⟩
  case same => rw [hread, if_pos rfl, lowLimb]
  case other => rw [hread, if_neg fun h => hb (decodeAddr_inj hmapped h), readValue]

/-- Settles O12: the first step latches the word, the second executes it, and the command commutes with the latch. -/
theorem commandRunsBeforeTheNextTransaction : Obligations.CommandRunsBeforeTheNextTransaction := by
  intro s w rest i u hp hh hrest hw hu
  have hlatch : step s = .next ((s.setHost rest).latch w) := step_cmdWrite hp hh
  have hnext : ∀ it more, ((s.setHost rest).latch w).host = it :: more → readsStatus it = false := fun it more h => by
    obtain ⟨name, t, rfl, ht⟩ := hrest it more h
    exact readsStatus_txn ht name
  have hrun : step ((s.setHost rest).latch w) = .next (((s.setHost rest).latch w).withLatchOf u).retire := by
    rw [step_pendingCommand rfl hw hnext, latch_eq_withLatchOf, exec_withLatchOf _ (decodeCommand_isCommand hw), hu]
    rfl
  refine ⟨(((s.setHost rest).latch w).withLatchOf u).retire, ?_, rfl⟩
  simp only [Host.Core.run, core, hlatch, hrun]

end Sys2Proof.Proofs

/-! PROOFS. The encoding (30_encoding): a command word is its three fields, the decoder is characterised by them in both directions,
and from that come the round trip, the legality of a word and what an illegal word does. -/

namespace Sys2Proof

variable {w : CmdWord} {i : Instr}

/-! ## The fields of a command word (30_encoding R75) -/

theorem opField_eq (w : CmdWord) : opField w = w.toNat % 256 := by
  simp [opField, BitVec.extractLsb'_toNat]

theorem tileField_eq (w : CmdWord) : tileField w = w.toNat / 256 % 4096 := by
  simp [tileField, BitVec.extractLsb'_toNat, Nat.shiftRight_eq_div_pow]

theorem resField_eq (w : CmdWord) : resField w = w.toNat / 2 ^ 20 := by
  have hw := w.isLt
  rw [resField, BitVec.extractLsb'_toNat, Nat.shiftRight_eq_div_pow]
  omega

theorem tileField_lt (w : CmdWord) : tileField w < 4096 := (w.extractLsb' 8 12).isLt

@[simp] theorem opField_commandWord (op : BitVec 8) (t : Nat) : opField (commandWord op t) = op.toNat := by
  have hop := op.isLt
  rw [opField_eq, Laws.commandWord_toNat]
  omega

@[simp] theorem tileField_commandWord (op : BitVec 8) (t : Nat) : tileField (commandWord op t) = t % 4096 := by
  have hop := op.isLt
  rw [tileField_eq, Laws.commandWord_toNat]
  omega

@[simp] theorem resField_commandWord (op : BitVec 8) (t : Nat) : resField (commandWord op t) = 0 := by
  have hop := op.isLt
  rw [resField_eq, Laws.commandWord_toNat]
  omega

/-- A word whose RES is 0 is made of its OP and its TILE. -/
theorem commandWord_eq_of_fields {op : BitVec 8} {t : Nat} (hres : resField w = 0) (hop : opField w = op.toNat)
    (htile : tileField w = t) : commandWord op t = w :=
  BitVec.eq_of_toNat_eq <| by
    rw [resField_eq] at hres
    rw [opField_eq] at hop
    rw [tileField_eq] at htile
    rw [Laws.commandWord_toNat]
    omega

/-! ## The fields of a command (30_encoding R77) -/

/-- The OP of a command. A bus transaction has none; 0 stands there. -/
def commandOp : Instr → BitVec 8
  | .clear => 0x01
  | .macy _ => 0x02
  | .cpy _ => 0x03
  | .qgen => 0x04
  | .macq _ => 0x05
  | .cpq _ => 0x06
  | .shift => 0x07
  | .step => 0x08
  | .final => 0x09
  | .run => 0x0A
  | .rd _ | .wr _ _ | .nop => 0x00

/-- The TILE of a command, 0 on a command that takes no tile. -/
def commandTile : Instr → Nat
  | .macy t | .cpy t | .macq t | .cpq t => t
  | .rd _ | .wr _ _ | .nop | .clear | .qgen | .shift | .step | .final | .run => 0

theorem encode_of_isCommand (hi : i.isCommand = true) : encode i = .command (commandWord (commandOp i) (commandTile i)) := by
  cases i with
  | rd | wr => contradiction
  | nop | clear | macy | cpy | qgen | macq | cpq | shift | step | final | run => rfl

/-- The field check bounds the tile index and nothing else. -/
theorem wellFormed_iff_commandTile_lt : i.wellFormed = true ↔ commandTile i < 4096 := by
  cases i <;> simp [Instr.wellFormed, commandTile]

/-! ## The decoder of command words (30_encoding R79, R80) -/

theorem untiled_eq_ok {j : Instr} : untiled w j = .ok i ↔ tileField w = 0 ∧ j = i := by
  by_cases h : tileField w = 0 <;> simp [untiled, h]

theorem exists_untiled_eq_ok {j : Instr} : (∃ i, untiled w j = .ok i) ↔ tileField w = 0 := by
  simp [untiled_eq_ok]

theorem decodeCommand_eq_ok : decodeCommand w = .ok i ↔ resField w = 0 ∧ decodeOp w = .ok i := by
  by_cases h : resField w = 0 <;> simp [decodeCommand, h]

/-- The opcode map reads exactly the command with the word's OP and TILE. -/
theorem decodeOp_eq_ok :
    decodeOp w = .ok i ↔ i.isCommand = true ∧ opField w = (commandOp i).toNat ∧ tileField w = commandTile i := by
  constructor
  case mp =>
    intro h
    unfold decodeOp at h
    split at h
    case h_12 => contradiction
    case h_3 hop | h_4 hop | h_6 hop | h_7 hop =>
      obtain rfl := Except.ok.inj h
      exact ⟨rfl, hop, rfl⟩
    all_goals
      next hop =>
      obtain ⟨htile, rfl⟩ := untiled_eq_ok.mp h
      exact ⟨rfl, hop, htile⟩
  case mpr =>
    rintro ⟨hi, hop, htile⟩
    cases i with
    | rd | wr => contradiction
    | macy t | cpy t | macq t | cpq t =>
      obtain rfl : tileField w = t := htile
      rw [decodeOp, hop]
      rfl
    | nop | clear | qgen | shift | step | final | run =>
      rw [decodeOp, hop]
      exact untiled_eq_ok.mpr ⟨htile, rfl⟩

theorem decodeCommand_commandWord (hi : i.isCommand = true) (hwf : i.wellFormed = true) :
    decodeCommand (commandWord (commandOp i) (commandTile i)) = .ok i := by
  have htile := Nat.mod_eq_of_lt (wellFormed_iff_commandTile_lt.mp hwf)
  rw [decodeCommand_eq_ok, decodeOp_eq_ok, resField_commandWord, opField_commandWord, tileField_commandWord]
  exact ⟨rfl, hi, rfl, htile⟩

theorem decodeOp_legal_iff :
    (∃ i, decodeOp w = .ok i) ↔ opField w ≤ 0x0A ∧
      (tileField w = 0 ∨ opField w = 0x02 ∨ opField w = 0x03 ∨ opField w = 0x05 ∨ opField w = 0x06) := by
  unfold decodeOp
  split
  case h_12 =>
    simp only [imp_false, reduceCtorEq, exists_false, false_iff] at *
    omega
  all_goals
    next hop => simp [hop, exists_untiled_eq_ok]

theorem decodeCommand_legal_iff :
    (∃ i, decodeCommand w = .ok i) ↔ resField w = 0 ∧ opField w ≤ 0x0A ∧
      (tileField w = 0 ∨ opField w = 0x02 ∨ opField w = 0x03 ∨ opField w = 0x05 ∨ opField w = 0x06) := by
  simp only [decodeCommand_eq_ok, exists_and_left, decodeOp_legal_iff]

theorem not_legal_iff_error : (¬ ∃ i, decodeCommand w = .ok i) ↔ ∃ e, decodeCommand w = .error e := by
  cases decodeCommand w <;> simp

/-! ## Bus tuples and rows of the table (30_encoding R71, R74, R82) -/

@[simp] theorem weField_busWord (we : Bool) (a : Addr) (d : Data) : weField (busWord we a d) = we := by
  rw [weField, busWord, BitVec.getLsbD_append, BitVec.getLsbD_append]
  simp

@[simp] theorem addrField_busWord (we : Bool) (a : Addr) (d : Data) : addrField (busWord we a d) = a :=
  BitVec.eq_of_toNat_eq <| by
    have ha := a.isLt
    have hd := d.isLt
    rw [addrField, BitVec.extractLsb'_toNat, Laws.busWord_toNat, Nat.shiftRight_eq_div_pow]
    omega

theorem decodeBus_busRead (a : Addr) : decodeBus (busRead a) = .rd a := by
  simp [decodeBus, busRead]

theorem decodeBus_isCommand (t : BusWord) : (decodeBus t).isCommand = false := by
  unfold decodeBus
  split <;> rfl

/-- An encoded object's bits, read as a row of the table, are that object. -/
theorem codeOfTableWord_code (c : Code) : codeOfTableWord c.bits c.toNat = .ok c := by
  cases c with
  | bus t => simp [codeOfTableWord, Code.bits, Code.toNat, t.isLt]
  | command w => simp [codeOfTableWord, Code.bits, Code.toNat]

theorem decodeTableWord_of_decode {c : Code} (h : decode c = .ok i) : decodeTableWord c.bits c.toNat = some i := by
  simp only [decodeTableWord, codeOfTableWord_code, h]

theorem decode_encode (hwf : i.wellFormed = true) : decode (encode i) = .ok i := by
  cases hi : i.isCommand with
  | true =>
    rw [encode_of_isCommand hi]
    exact decodeCommand_commandWord hi hwf
  | false =>
    cases i with
    | rd a => exact congrArg Except.ok (decodeBus_busRead a)
    | wr a d => exact congrArg Except.ok (Machine.decodeBus_busWrite a d)
    | nop | clear | macy | cpy | qgen | macq | cpq | shift | step | final | run => contradiction

end Sys2Proof

namespace Sys2Proof.Machine

variable {s u : State} {w : CmdWord} {i : Instr}

/-- With a command pending the ENGINE steps when its draw lets no read of STATUS pass, and before everything that is no read of
STATUS. -/
theorem step_engine_of_turn (hp : s.pend = some w)
    (hturn : s.stall = 0 ∨ ∀ it rest, s.host = it :: rest → readsStatus it = false) : step s = engineStep w s :=
  step_engine hp fun it rest hh => by
    obtain hstall | hheld := hturn
    · simp [hostFirst, hstall]
    · simp [hostFirst, hheld it rest hh]

/-- The ENGINE's step on an illegal word (30_encoding R79, 60_exceptions R210). -/
theorem engineStep_of_error {e : DecodeError} (h : decodeCommand w = .error e) (s : State) :
    engineStep w s = .next (s.raise .illegal).retire := by
  rw [engineStep, h]

theorem exec_bus_completes (hi : i.isCommand = false) (s : State) : ∃ u, exec i s = .next u := by
  cases i with
  | rd | wr => exact ⟨_, rfl⟩
  | nop | clear | macy | cpy | qgen | macq | cpq | shift | step | final | run => contradiction

/-- No bus transaction writes ERR, DONE, OVF or ZOVF (30_encoding R82). -/
theorem exec_bus_status (hi : i.isCommand = false) (h : exec i s = .next u) :
    u.err = s.err ∧ u.done = s.done ∧ u.ovf = s.ovf ∧ u.zovf = s.zovf := by
  obtain ⟨v, rfl⟩ | ⟨t, rfl⟩ | ⟨d, x, rfl⟩ := exec_bus_cases hi h
  · exact ⟨rfl, rfl, rfl, rfl⟩
  · exact ⟨rfl, rfl, rfl, rfl⟩
  · obtain ⟨-, hdone, hovf, hzovf, herr, -⟩ := writeTarget_engine (s := s) (d := d) x
    exact ⟨herr, hdone, hovf, hzovf⟩

end Sys2Proof.Machine

namespace Sys2Proof.Proofs

open Sys2Proof Sys2Proof.Machine

/-- Settles O1: the fields of the encoding are the instruction's own, and a row's bits are the encoded object. -/
theorem decodeInvertsEncode : Obligations.DecodeInvertsEncode := fun _ hwf =>
  ⟨decode_encode hwf, decodeTableWord_of_decode (decode_encode hwf)⟩

/-- Settles O2: the word has the fields of the command it decodes to, and RES is 0, so it is made of them. -/
theorem legalWordsAreEncodings : Obligations.LegalWordsAreEncodings := by
  intro w i h
  obtain ⟨hres, h⟩ := decodeCommand_eq_ok.mp h
  obtain ⟨hi, hop, htile⟩ := decodeOp_eq_ok.mp h
  have hwf : i.wellFormed = true := wellFormed_iff_commandTile_lt.mpr (htile ▸ tileField_lt w)
  exact ⟨hwf, hi, by rw [encode_of_isCommand hi, commandWord_eq_of_fields hres hop htile]⟩

/-- Settles O3: the opcode map says which words are legal; on any other the ENGINE's step raises ILLEGAL and retires the word. -/
theorem illegalWordsRaiseIllegal : Obligations.IllegalWordsRaiseIllegal := by
  refine ⟨fun w => ?legal, fun s w hp hillegal hturn => ?raises⟩
  case legal =>
    rw [decodeCommand_legal_iff, resField_eq, opField_eq, tileField_eq]
    exact and_left_comm
  case raises =>
    obtain ⟨e, he⟩ := not_legal_iff_error.mp hillegal
    exact (step_engine_of_turn hp hturn).trans (engineStep_of_error he s)

/-- Settles O4: the decoder evaluated on each word of the table; the last three break one clause of 30_encoding R79 each. -/
theorem exampleWordsDecode : Obligations.ExampleWordsDecode :=
  ⟨rfl, rfl, rfl, rfl, rfl, rfl, rfl, rfl, rfl, rfl, rfl, rfl, not_legal_iff_error.mpr ⟨.tileNotZero, rfl⟩,
    not_legal_iff_error.mpr ⟨.reservedOpcode, rfl⟩, not_legal_iff_error.mpr ⟨.reservedBits, rfl⟩⟩

/-- Settles O5: every tuple decodes to a read or a write, and neither writes the flags a command sets. -/
theorem busTransactionsRaiseNoError : Obligations.BusTransactionsRaiseNoError := by
  intro t
  have hbus := decodeBus_isCommand t
  refine ⟨decodeBus t, rfl, hbus, fun s => ?_⟩
  obtain ⟨u, hu⟩ := exec_bus_completes hbus s
  exact ⟨u, hu, exec_bus_status hbus hu⟩

end Sys2Proof.Proofs

/-! PROOFS. The host port (40_host_access): what each mapped address names, the number a read of it returns, which writes have an
effect; and the WAIT, whose reads of STATUS go on until the ENGINE has executed the pending command. -/

namespace Sys2Proof

/-! ## Host lines (40_host_access R116) -/

/-- Concatenation as arithmetic: the left part at the weight of the right part's width. -/
theorem toNat_append_eq_add {m n : Nat} (x : BitVec m) (y : BitVec n) : (x ++ y).toNat = x.toNat * 2 ^ n + y.toNat := by
  rw [BitVec.toNat_append, ← Nat.shiftLeft_add_eq_or_of_lt y.isLt, Nat.shiftLeft_eq]

/-- CTRL as a number: TILED at bit 16, N below it (10_state R25). -/
theorem ctrlBits_toNat (b : Bool) (n : BitVec 16) : (BitVec.ofBool b ++ n).toNat = b.toNat * 2 ^ 16 + n.toNat := by
  rw [toNat_append_eq_add, BitVec.toNat_ofBool]

theorem commandItems_of_encode {i : Instr} {w : CmdWord} (h : encode i = .command w) :
    commandItems i = [.txn none (busWrite addrCmd w)] := by
  rw [commandItems, h]
  rfl

theorem expand_load_getElem? (b : OperandBuf) (limbs : List Data) (k : Nat) :
    (HostLine.load b limbs).expand[k]? = limbs[k]?.map fun d => .txn none (busWrite (b.base + BitVec.ofNat 16 k) d) :=
  List.getElem?_mapIdx

theorem expand_readZ_getElem? (names : List String) (k : Nat) :
    (HostLine.readZ names).expand[k]? = names[k]?.map fun x => .txn (some x) (busRead (addrZbuf + BitVec.ofNat 16 k)) :=
  List.getElem?_mapIdx

theorem expand_config (n : BitVec 16) (b : Bool) :
    (HostLine.config n b).expand = [.txn none (busWrite addrCtrl (BitVec.ofNat 64 (b.toNat * 2 ^ 16 + n.toNat)))] := by
  rw [← ctrlBits_toNat, BitVec.ofNat_toNat]
  rfl

/-! ## Registers and array words (30_encoding R73) -/

/-- The build has the register or the array word. -/
def PortTarget.Mapped (p : Params) : PortTarget → Prop
  | .xbuf k | .ybuf k | .mbuf k | .zbuf k | .acc k => k < p.nMax
  | .id | .param | .ctrl | .minv | .cmd | .status | .iter | .q | .cy | .cq | .zhi => True
  | .unmapped => False

/-- What a write stores to: CTRL, MINV, CMD and the words of the operand buffers. -/
def PortTarget.Writable : PortTarget → Prop
  | .ctrl | .minv | .cmd | .xbuf _ | .ybuf _ | .mbuf _ => True
  | .id | .param | .status | .iter | .q | .cy | .cq | .zhi | .zbuf _ | .acc _ | .unmapped => False

end Sys2Proof

namespace Sys2Proof.Machine

variable {s u : State} {p : Params} {a : Addr}

/-! ## What an address names (30_encoding R72, R73) -/

/-- The address names no register and no array word of the build (40_host_access R113). -/
abbrev UnmappedAddr (p : Params) (a : Addr) : Prop :=
  (0x000B ≤ a.toNat ∧ a.toNat ≤ 0x0FFF) ∨ 0x6000 ≤ a.toNat ∨
    (0x1000 ≤ a.toNat ∧ a.toNat < 0x6000 ∧ p.nMax ≤ a.toNat % 0x1000)

/-- Word `k` of an array region (30_encoding R73). -/
def regionWord (region k : Nat) : PortTarget :=
  match region with
  | 1 => .xbuf k
  | 2 => .ybuf k
  | 3 => .mbuf k
  | 4 => .zbuf k
  | 5 => .acc k
  | _ => .unmapped

theorem decodeRegion_of_lt (h : indexOf a < p.nMax) : decodeRegion p a = regionWord (regionOf a) (indexOf a) := by
  rw [decodeRegion, if_pos h]
  rfl

/-- Above the registers the region and the index decide what an address names. -/
theorem decodeAddr_of_above_registers (ha : 0x000B ≤ a.toNat) : decodeAddr p a = decodeRegion p a := by
  unfold decodeAddr
  split
  case h_12 => rfl
  all_goals omega

theorem decodeAddr_of_region {region k : Nat} (hregion : 1 ≤ region) (hN : p.nMax ≤ 4096) (hk : k < p.nMax)
    (ha : a.toNat = region * 0x1000 + k) : decodeAddr p a = regionWord region k := by
  have hsplit := toNat_eq_region_index a
  have hlt := indexOf_lt a
  obtain rfl : indexOf a = k := by omega
  obtain rfl : regionOf a = region := by omega
  rw [decodeAddr_of_above_registers (by omega), decodeRegion_of_lt hk]

/-- The host address of a mapped register or word names it: `decodeAddr` inverts `targetAddr`. -/
theorem decodeAddr_of_targetAddr (hN : p.nMax ≤ 4096) {x : PortTarget} (hx : x.Mapped p)
    (ha : a.toNat = targetAddr x) : decodeAddr p a = x := by
  cases x with
  | id | param | ctrl | minv | cmd | status | iter | q | cy | cq | zhi =>
    rw [decodeAddr, ha]
    rfl
  | xbuf k => exact decodeAddr_of_region (region := 1) (by decide) hN hx ha
  | ybuf k => exact decodeAddr_of_region (region := 2) (by decide) hN hx ha
  | mbuf k => exact decodeAddr_of_region (region := 3) (by decide) hN hx ha
  | zbuf k => exact decodeAddr_of_region (region := 4) (by decide) hN hx ha
  | acc g => exact decodeAddr_of_region (region := 5) (by decide) hN hx ha
  | unmapped => exact hx.elim

theorem decodeAddr_of_unmappedAddr (h : UnmappedAddr p a) : decodeAddr p a = .unmapped := by
  have hsplit := toNat_eq_region_index a
  have hlt := indexOf_lt a
  have hmod := toNat_mod_eq_indexOf a
  have hout : p.nMax ≤ indexOf a ∨ regionOf a = 0 ∨ 6 ≤ regionOf a := by omega
  rw [decodeAddr_of_above_registers (by omega)]
  obtain ⟨hindex, ⟨hr, -⟩ | ⟨hr, -⟩ | ⟨hr, -⟩ | ⟨hr, -⟩ | ⟨hr, -⟩⟩ | hd := decodeRegion_cases p a
  case inr => exact hd
  all_goals omega

/-! ## Reads (40_host_access R100, R102) -/

theorem exec_rd (h : s.pend = none ∨ a = addrStatus) : exec (.rd a) s = .next (s.respond (readValue s a)) := by
  obtain hp | rfl := h
  · exact execRd_idle hp a
  · exact execRd_status

theorem paramWord_toNat (h : s.params.Valid) :
    s.paramWord.toNat = s.params.sMax * 2 ^ 24 + s.params.way * 2 ^ 8 + s.params.w := by
  obtain ⟨-, hw, hway, hsMax, hN⟩ := h
  have hwayLt : s.params.way < 2 ^ 16 := by
    have := Nat.le_mul_of_pos_right s.params.way hsMax
    rw [Params.nMax] at hN
    omega
  have hsMaxLt : s.params.sMax < 2 ^ 16 := by
    have := Nat.le_mul_of_pos_left s.params.sMax hway
    rw [Params.nMax] at hN
    omega
  rw [State.paramWord, BitVec.toNat_setWidth, toNat_append_eq_add, toNat_append_eq_add]
  simp only [BitVec.toNat_ofNat]
  omega

theorem ctrlWord_toNat (s : State) : s.ctrlWord.toNat = s.tiled.toNat * 2 ^ 16 + s.n.toNat := by
  rw [State.ctrlWord, BitVec.toNat_setWidth_of_le (by decide), ctrlBits_toNat]

theorem statusWord_toNat (s : State) :
    s.statusWord.toNat = (errBits s.err).toNat * 2 ^ 8 + s.zovf.toNat * 2 ^ 3 + s.ovf.toNat * 2 ^ 2 + s.done.toNat * 2
      + s.busy.toNat := by
  rw [State.statusWord, BitVec.toNat_setWidth_of_le (by decide)]
  simp only [toNat_append_eq_add, BitVec.toNat_ofBool, BitVec.toNat_ofNat]
  ring

/-- The number a read of a register or an array word returns, as the table of 40_host_access R102 gives it. -/
def targetValue (s : State) : PortTarget → Nat
  | .id => 0x4D4D5631
  | .param => s.params.sMax * 2 ^ 24 + s.params.way * 2 ^ 8 + s.params.w
  | .ctrl => s.tiled.toNat * 2 ^ 16 + s.n.toNat
  | .minv => s.minv
  | .cmd => 0
  | .status => (errBits s.err).toNat * 2 ^ 8 + s.zovf.toNat * 2 ^ 3 + s.ovf.toNat * 2 ^ 2 + s.done.toNat * 2 + s.busy.toNat
  | .iter => s.iter.toNat
  | .q => s.q
  | .cy => s.cy
  | .cq => s.cq
  | .zhi => s.zhi.toNat
  | .xbuf k => wordAt s.xbuf k
  | .ybuf k => wordAt s.ybuf k
  | .mbuf k => wordAt s.mbuf k
  | .zbuf k => wordAt s.zbuf k
  | .acc g => wordAt s.acc g
  | .unmapped => 0

/-- A number of at most 64 bits is read back whole. -/
theorem toNat_ofNat_of_lt_two_pow {v width : Nat} (hv : v < 2 ^ width) (hwidth : width ≤ 64) : (BitVec.ofNat 64 v).toNat = v :=
  Nat.mod_eq_of_lt (hv.trans_le (Nat.pow_le_pow_right (by decide) hwidth))

/-- In a state of the invariant every stored number fits the 64 bits of a read. -/
theorem toNat_readTarget (h : s.Wf) (x : PortTarget) : (readTarget s x).toNat = targetValue s x := by
  obtain ⟨hparams, hminv, hq, hcy, hcq, hacc, hxbuf, hybuf, hmbuf, hzbuf⟩ := h
  have hw : s.params.w ≤ 64 := by omega
  have hlane : s.params.lane ≤ 64 := by rw [Params.lane]; omega
  cases x with
  | id | cmd | zhi | unmapped => rfl
  | param => exact paramWord_toNat hparams
  | ctrl => exact ctrlWord_toNat s
  | status => exact statusWord_toNat s
  | iter => exact BitVec.toNat_setWidth_of_le (by decide)
  | minv => exact toNat_ofNat_of_lt_two_pow hminv hw
  | q => exact toNat_ofNat_of_lt_two_pow hq hw
  | cy => exact toNat_ofNat_of_lt_two_pow hcy hw
  | cq => exact toNat_ofNat_of_lt_two_pow hcq hw
  | xbuf k => exact toNat_ofNat_of_lt_two_pow (wordAt_lt hxbuf k) hw
  | ybuf k => exact toNat_ofNat_of_lt_two_pow (wordAt_lt hybuf k) hw
  | mbuf k => exact toNat_ofNat_of_lt_two_pow (wordAt_lt hmbuf k) hw
  | zbuf k => exact toNat_ofNat_of_lt_two_pow (wordAt_lt hzbuf k) hw
  | acc g => exact toNat_ofNat_of_lt_two_pow (wordAt_lt hacc g) hlane

theorem readValue_of_unmappedAddr (h : UnmappedAddr s.params a) : readValue s a = 0 := by
  rw [readValue, decodeAddr_of_unmappedAddr h, readTarget]

/-! ## Writes (40_host_access R101, R103 to R108, R111 to R114) -/

theorem exec_wr {x : PortTarget} (hp : s.pend = none) (ha : decodeAddr s.params a = x) (d : Data) :
    exec (.wr a d) s = .next (writeTarget s d x) := by
  subst ha
  exact execWr_idle hp a d

theorem writeTarget_of_not_writable {x : PortTarget} (h : ¬ x.Writable) (d : Data) : writeTarget s d x = s := by
  cases x with
  | ctrl | minv | cmd | xbuf | ybuf | mbuf => exact absurd trivial h
  | id | param | status | iter | q | cy | cq | zhi | zbuf | acc | unmapped => rfl

/-- What a write stores to lies at the addresses 2 to 4 and in the three regions of the operand buffers. -/
theorem toNat_of_writable (h : (decodeAddr p a).Writable) :
    (2 ≤ a.toNat ∧ a.toNat ≤ 4) ∨ (0x1000 ≤ a.toNat ∧ a.toNat < 0x4000) := by
  have hsplit := toNat_eq_region_index a
  have hindex := indexOf_lt a
  unfold decodeAddr at h
  split at h
  case h_12 =>
    obtain ⟨-, ⟨hr, hd⟩ | ⟨hr, hd⟩ | ⟨hr, hd⟩ | ⟨hr, hd⟩ | ⟨hr, hd⟩⟩ | hd := decodeRegion_cases p a
    case inr | inl.inr.inr.inr.inl | inl.inr.inr.inr.inr =>
      rw [hd] at h
      exact h.elim
    all_goals omega
  case h_3 | h_4 | h_5 => omega
  all_goals exact h.elim

theorem exec_wr_ignored (hp : s.pend = none) (h : ¬ (decodeAddr s.params a).Writable) (d : Data) :
    exec (.wr a d) s = .next s := by
  rw [exec_wr hp rfl, writeTarget_of_not_writable h]

theorem wordAt_writeWord_of_lt {ws : Words} {k : Nat} (hk : k < ws.length) (v j : Nat) :
    wordAt (writeWord ws k v) j = if j = k then v else wordAt ws j := by
  simp only [wordAt_writeWord, hk, and_true]

/-! ## A WAIT (40_host_access R116, R117; 60_exceptions R229) -/

/-- Bit 0 of STATUS is BUSY (10_state R27). -/
theorem statusWord_getLsbD_zero (s : State) : s.statusWord.getLsbD 0 = s.busy := by
  have hmod : s.statusWord.toNat % 2 = s.busy.toNat := by
    have := s.busy.toNat_lt
    rw [statusWord_toNat]
    omega
  rw [BitVec.getLsbD, Nat.testBit_zero, hmod]
  cases s.busy <;> rfl

theorem getLastD_reads_respond (s : State) (v : Data) : (s.respond v).reads.getLastD 0 = v := by
  rw [State.respond_reads, List.getLastD_concat]

/-- With nothing pending the read of a WAIT shows BUSY = 0 and ends it. -/
theorem hostItemStep_wait_idle (hp : s.pend = none) : hostItemStep .wait s = .next (s.respond s.statusWord) := by
  have hread : exec (.rd addrStatus) s = .next (s.respond s.statusWord) := execRd_status
  have hbusy : s.statusWord.getLsbD 0 = false := by rw [statusWord_getLsbD_zero, State.busy, hp, Option.isSome_none]
  rw [hostItemStep, hread, mapNext_next, waitAgain, getLastD_reads_respond, hbusy]
  rfl

/-- With a command pending the read of a WAIT shows BUSY = 1 and the WAIT stays first in the program. -/
theorem hostItemStep_wait_busy {w : CmdWord} (hp : s.pend = some w) :
    hostItemStep .wait s = .next ((s.respond s.statusWord).setHost (.wait :: s.host)) := by
  have hread : exec (.rd addrStatus) s = .next (s.respond s.statusWord) := execRd_status
  have hbusy : s.statusWord.getLsbD 0 = true := by rw [statusWord_getLsbD_zero, State.busy, hp, Option.isSome_some]
  rw [hostItemStep, hread, mapNext_next, waitAgain, getLastD_reads_respond, hbusy]
  rfl

theorem step_wait_idle {rest : List HostItem} (hp : s.pend = none) (hh : s.host = .wait :: rest) :
    step s = .next ((s.setHost rest).respond s.statusWord) := by
  rw [step_eq_agentStep, agentStep, hp, hh]
  exact hostItemStep_wait_idle (s := s.setHost rest) hp

/-- With a command pending, a WAIT first in the program and a draw that lets one more read of STATUS pass, the HOST reads. -/
theorem step_wait_pass {w : CmdWord} {rest : List HostItem} (hp : s.pend = some w) (hstall : s.stall ≠ 0)
    (hh : s.host = .wait :: rest) : step s = .next ((s.letPass.respond s.statusWord).setHost (.wait :: rest)) := by
  have hfirst : hostFirst s .wait = true := decide_eq_true hstall
  rw [step_eq_agentStep, agentStep, hp, hh]
  simp only [hfirst, if_true]
  exact hostItemStep_wait_busy (s := s.letPass.setHost rest) hp

theorem engineStep_of_ok {w : CmdWord} {i : Instr} (h : decodeCommand w = .ok i) (s : State) :
    engineStep w s = mapNext State.retire (exec i s) := by
  rw [engineStep, h]

/-- The ENGINE's step completes, ends with nothing pending, and is not seen by the HOST (60_exceptions R210, R211). -/
theorem engineStep_completes (w : CmdWord) (s : State) :
    ∃ u, engineStep w s = .next u ∧ u.pend = none ∧ u.host = s.host ∧ u.reads = s.reads := by
  cases hw : decodeCommand w with
  | error e => exact ⟨(s.raise .illegal).retire, engineStep_of_error hw s, rfl, rfl, rfl⟩
  | ok i =>
    have hi := decodeCommand_isCommand hw
    have hexec := exec_eq_command hi s
    have hstep : engineStep w s = .next (s.command (commandChecks i) (commandBody i)).retire := by
      rw [engineStep_of_ok hw, hexec, mapNext_next]
    refine ⟨_, hstep, rfl, ?_⟩
    obtain ⟨e, he⟩ | hbody := exec_command_cases hi hexec
    · rw [he]
      exact ⟨rfl, rfl⟩
    · have hblank := outsideEngine_commandBody i s
      rw [hbody, State.retire_host, State.retire_reads]
      exact ⟨eq_of_blanked State.host hblank fun _ => rfl, eq_of_blanked State.reads hblank fun _ => rfl⟩

theorem run_succ_of_step (k : Nat) (h : step s = .next u) :
    Host.Core.run core (k + 1) s = Host.Core.run core k u := by
  simp only [Host.Core.run, core, h]

/-- How a WAIT before `rest` has ended after `reads` reads of STATUS: the last of them showed BUSY = 0 and nothing is pending. -/
structure WaitEnded (s u : State) (rest : List HostItem) (reads : Nat) : Prop where
  host : u.host = rest
  pend : u.pend = none
  reads : u.reads.length = s.reads.length + reads
  last : (u.reads.getLastD 0).getLsbD 0 = false

theorem waitEnded_idle {rest : List HostItem} (hp : s.pend = none) (hh : s.host = .wait :: rest) :
    ∃ u, Host.Core.run core 1 s = .next u ∧ WaitEnded s u rest 1 := by
  refine ⟨_, run_succ_of_step 0 (step_wait_idle hp hh), rfl, hp, by simp, ?_⟩
  rw [getLastD_reads_respond, statusWord_getLsbD_zero, State.busy, hp, Option.isSome_none]

/-- With a command pending the schedule lets `stall` reads of the WAIT pass, the ENGINE steps, and one more read ends the WAIT. -/
theorem waitEnded_busy {w : CmdWord} {rest : List HostItem} (hp : s.pend = some w) (hh : s.host = .wait :: rest) :
    ∃ u, Host.Core.run core (s.stall + 2) s = .next u ∧ WaitEnded s u rest (s.stall + 1) := by
  induction hn : s.stall generalizing s with
  | zero =>
    obtain ⟨v, hv, hpv, hhv, hrv⟩ := engineStep_completes w s
    obtain ⟨u, hu, hdone⟩ := waitEnded_idle hpv (hhv.trans hh)
    have hstep : step s = .next v := (step_engine_of_turn hp (.inl hn)).trans hv
    exact ⟨u, (run_succ_of_step 1 hstep).trans hu, hdone.host, hdone.pend, by rw [hdone.reads, hrv], hdone.last⟩
  | succ n ih =>
    have hstep := step_wait_pass hp (by omega) hh
    obtain ⟨u, hu, hdone⟩ := ih (s := (s.letPass.respond s.statusWord).setHost (.wait :: rest)) hp rfl (by simp [hn])
    refine ⟨u, (run_succ_of_step (n + 2) hstep).trans hu, hdone.host, hdone.pend, ?_, hdone.last⟩
    rw [hdone.reads, State.setHost_reads, State.respond_reads, State.letPass_reads, List.length_append, List.length_singleton]
    omega

end Sys2Proof.Machine

namespace Sys2Proof.Proofs

open Sys2Proof Sys2Proof.Machine

/-- Settles O10: an idle WAIT ends with its first read; a busy one after the reads the schedule lets pass, the ENGINE's step and one
more read. -/
theorem waitEnds : Obligations.WaitEnds := by
  intro s rest hh
  cases hp : s.pend with
  | none =>
    obtain ⟨u, hu, hdone⟩ := waitEnded_idle hp hh
    have hreads := hdone.reads
    exact ⟨1, u, by omega, hu, hdone.host, hdone.pend, by omega, by omega, hdone.last⟩
  | some w =>
    obtain ⟨u, hu, hdone⟩ := waitEnded_busy hp hh
    have hreads := hdone.reads
    exact ⟨s.stall + 2, u, le_rfl, hu, hdone.host, hdone.pend, by omega, by omega, hdone.last⟩

/-- Settles O13: each address of the table names its register or word, whose number a read returns; every other reads 0. -/
theorem readReturnsTheAddressedWord : Obligations.ReadReturnsTheAddressedWord := by
  intro s a hs hp
  have ⟨⟨_, _, _, _, hN⟩, _⟩ := hs
  have word (x : PortTarget) (hx : x.Mapped s.params) (ha : a.toNat = targetAddr x) : readValue s a = readTarget s x := by
    rw [readValue, decodeAddr_of_targetAddr hN hx ha]
  have value (x : PortTarget) (hx : x.Mapped s.params) (ha : a.toNat = targetAddr x) :
      (readValue s a).toNat = targetValue s x := by
    rw [word x hx ha, toNat_readTarget hs]
  exact ⟨readValue s a, exec_rd hp, word .id trivial, value .param trivial, value .ctrl trivial, value .minv trivial,
    word .cmd trivial, value .status trivial, value .iter trivial, value .q trivial, value .cy trivial, value .cq trivial,
    word .zhi trivial, fun k => value (.xbuf k), fun k => value (.ybuf k), fun k => value (.mbuf k), fun k => value (.zbuf k),
    fun g => value (.acc g), readValue_of_unmappedAddr⟩

/-- Settles O16: the address names word `k` of its buffer, and storing there leaves every other word. -/
theorem operandWritesStoreALimb : Obligations.OperandWritesStoreALimb := by
  intro s a d k hs hp hk
  obtain ⟨⟨-, -, -, -, hN⟩, -, -, -, -, -, ⟨hxlen, -⟩, ⟨hylen, -⟩, ⟨hmlen, -⟩, -⟩ := hs
  have write (x : PortTarget) (hx : x.Mapped s.params) (ha : a.toNat = targetAddr x) :
      exec (.wr a d) s = .next (writeTarget s d x) := exec_wr hp (decodeAddr_of_targetAddr hN hx ha) d
  exact
    ⟨fun ha => ⟨_, write (.xbuf k) hk ha, rfl, length_writeWord .., wordAt_writeWord_of_lt (hxlen ▸ hk) _⟩,
      fun ha => ⟨_, write (.ybuf k) hk ha, rfl, length_writeWord .., wordAt_writeWord_of_lt (hylen ▸ hk) _⟩,
      fun ha => ⟨_, write (.mbuf k) hk ha, rfl, length_writeWord .., wordAt_writeWord_of_lt (hmlen ▸ hk) _⟩⟩

/-- Settles O17: no such address names what a write stores to, and an unmapped one names nothing to read. -/
theorem otherWritesAreIgnored : Obligations.OtherWritesAreIgnored := by
  intro s a d hp
  refine ⟨fun ha => exec_wr_ignored hp (fun hx => ?readOnly) d, fun ha => ⟨?write, ?read⟩⟩
  case readOnly =>
    have := toNat_of_writable hx
    omega
  case write =>
    rw [exec_wr hp (decodeAddr_of_unmappedAddr ha)]
    rfl
  case read =>
    rw [exec_rd (.inl hp), readValue_of_unmappedAddr ha]
    rfl

/-- Settles O6: each line by its own expansion; a list line item by item. -/
theorem hostNotationExpands : Obligations.HostNotationExpands :=
  ⟨fun _ _ => commandItems_of_encode, rfl, rfl,
    fun limbs k => ⟨expand_load_getElem? .x limbs k, expand_load_getElem? .y limbs k, expand_load_getElem? .m limbs k⟩,
    expand_readZ_getElem?, expand_config⟩

/-- Settles O14: both transactions are held, which puts them back first. -/
theorem heldAccessIsNotPerformed : Obligations.HeldAccessIsNotPerformed :=
  fun _ _ hp => ⟨fun _ => execRd_held hp, execWr_held hp⟩

/-- Settles O15: each address names its register, and the write effect is the register's own. -/
theorem registerWritesStore : Obligations.RegisterWritesStore := fun _ d hp =>
  ⟨exec_wr (x := .ctrl) hp rfl d, exec_wr (x := .minv) hp rfl d, _, exec_wr (x := .cmd) hp rfl d, rfl⟩

end Sys2Proof.Proofs

/-! PROOFS. The carry propagation (41_carry_propagation): CPY and CPQ are one propagation with two chain registers; what it does to
the lanes, the value and the bounds of a tile; and the chained pass over all tiles as one propagation of the whole active vector. -/

namespace Sys2Proof.Machine

variable {s u : State} {t g : Nat}

/-! ## The two chain registers

CPY chains through CY and CPQ through CQ (41_carry_propagation R133, R135, R136); nothing else sets them apart, so every fact about a
propagation is stated once, for either register. -/

/-- The register a propagation chains through. -/
inductive ChainReg where
  | cy
  | cq

/-- The command that propagates a tile through the register. -/
def ChainReg.command : ChainReg → Nat → Instr
  | .cy => .cpy
  | .cq => .cpq

/-- The carry the register holds. -/
def ChainReg.read : ChainReg → State → Nat
  | .cy => State.cy
  | .cq => State.cq

/-- The state with the accumulator and the register replaced: all that a propagation writes. -/
def ChainReg.write (c : ChainReg) (s : State) (ws : Words) (carry : Nat) : State :=
  match c with
  | .cy => (s.setAcc ws).setCy carry
  | .cq => (s.setAcc ws).setCq carry

namespace ChainReg

variable (c : ChainReg) (ws : Words) (carry : Nat)

@[simp] theorem write_acc : (c.write s ws carry).acc = ws := by cases c <;> rfl

@[simp] theorem write_lane : (c.write s ws carry).lane g = wordAt ws g := by cases c <;> rfl

@[simp] theorem write_params : (c.write s ws carry).params = s.params := by cases c <;> rfl

@[simp] theorem write_radix : (c.write s ws carry).radix = s.radix := by cases c <;> rfl

@[simp] theorem write_tiles : (c.write s ws carry).tiles = s.tiles := by cases c <;> rfl

@[simp] theorem write_tileLo : (c.write s ws carry).tileLo t = s.tileLo t := by cases c <;> rfl

@[simp] theorem write_tileEnd : (c.write s ws carry).tileEnd t = s.tileEnd t := by cases c <;> rfl

@[simp] theorem write_configured : (c.write s ws carry).Configured ↔ s.Configured := by cases c <;> exact Iff.rfl

@[simp] theorem read_write : c.read (c.write s ws carry) = carry := by cases c <;> rfl

@[simp] theorem write_self : c.write s s.acc (c.read s) = s := by cases c <;> rfl

@[simp] theorem write_write (ws' : Words) (carry' : Nat) : c.write (c.write s ws carry) ws' carry' = c.write s ws' carry' := by
  cases c <;> rfl

theorem read_lt_radix (h : s.Wf) : c.read s < s.radix := by
  obtain ⟨-, -, -, hcy, hcq, -⟩ := h
  cases c with
  | cy => exact hcy
  | cq => exact hcq

/-- CPY and CPQ on a tile of an accepted configuration: `cprop` with the register as carry in and carry out. -/
theorem exec_command (hc : s.Configured) (ht : t < s.tiles) :
    exec (c.command t) s = .next (c.write s (cpropAcc s t (c.read s)) (cpropOut s t)) := by
  have hchecks : firstError [checkConfig, checkTile t] s = none := by
    simp [checkConfig_eq_none.mpr hc, checkTile_eq_none.mpr ht]
  cases c with
  | cy => exact congrArg _ (command_of_passes (body := cpyBody t) hchecks)
  | cq => exact congrArg _ (command_of_passes (body := cpqBody t) hchecks)

theorem eq_of_exec_command (hc : s.Configured) (ht : t < s.tiles) (hu : exec (c.command t) s = .next u) :
    u = c.write s (cpropAcc s t (c.read s)) (cpropOut s t) :=
  Host.Outcome.next.inj (hu.symm.trans (c.exec_command hc ht))

end ChainReg

/-! ## The value of a tile (41_carry_propagation R132) -/

/-- Moving the overflow of each digit to the next keeps the value: `c` enters at the lowest weight and the top overflow leaves at the
weight above the highest. -/
theorem sum_propagate (r c : Nat) (d : Nat → Nat) {lo stop : Nat} (h : lo < stop) :
    ∑ g ∈ Finset.Ico lo stop, (d g % r + if g = lo then c else d (g - 1) / r) * r ^ g + d (stop - 1) / r * r ^ stop =
      ∑ g ∈ Finset.Ico lo stop, d g * r ^ g + c * r ^ lo := by
  induction stop, h using Nat.le_induction with
  | base =>
    rw [Nat.succ_eq_add_one, Nat.Ico_succ_singleton, Finset.sum_singleton, Finset.sum_singleton, if_pos rfl,
      Nat.add_sub_cancel, pow_succ]
    conv_rhs => rw [← Nat.mod_add_div (d lo) r]
    ring
  | succ n hn ih =>
    have hlo : lo < n := hn
    rw [Finset.sum_Ico_succ_top hlo.le, Finset.sum_Ico_succ_top hlo.le, if_neg hlo.ne', Nat.add_sub_cancel, pow_succ]
    conv_rhs => rw [← Nat.mod_add_div (d n) r]
    linarith [ih]

theorem sum_cpropAcc (hlen : s.tileEnd t ≤ s.acc.length) (hlo : s.tileLo t < s.tileEnd t) (cin : Nat) :
    ∑ g ∈ Finset.Ico (s.tileLo t) (s.tileEnd t), wordAt (cpropAcc s t cin) g * s.radix ^ g
        + cpropOut s t * s.radix ^ s.tileEnd t =
      ∑ g ∈ Finset.Ico (s.tileLo t) (s.tileEnd t), s.lane g * s.radix ^ g + carryIn t cin * s.radix ^ s.tileLo t := by
  rw [← sum_propagate s.radix (carryIn t cin) s.lane hlo]
  refine congrArg (· + _) (Finset.sum_congr rfl fun g hg => ?_)
  rw [wordAt_cpropAcc hlen, if_pos (Finset.mem_Ico.mp hg), cpropLane, State.radix]

/-! ## The chained pass (41_carry_propagation R134, R139) -/

/-- The overflow that enters lane `g` from the lane below; nothing enters lane 0. -/
def State.overflowInto (s : State) (g : Nat) : Nat := if g = 0 then 0 else s.lane (g - 1) / s.radix

/-- The primitive on the lanes below `stop` as one vector: `cprop` of a tile does the same to its lanes, by
`cpropAcc_write_vectorAcc`. -/
def vectorAcc (s : State) (stop : Nat) : Words :=
  writeRange 0 stop (fun g => s.lane g % s.radix + s.overflowInto g) s.acc

@[simp] theorem length_vectorAcc (stop : Nat) : (vectorAcc s stop).length = s.acc.length := length_writeRange _ _ _

theorem vectorAcc_zero : vectorAcc s 0 = s.acc :=
  words_ext (length_vectorAcc 0) fun _ => by rw [vectorAcc, wordAt_writeRange, if_neg (by omega)]

theorem wordAt_vectorAcc_of_le {stop : Nat} (h : stop ≤ g) : wordAt (vectorAcc s stop) g = s.lane g :=
  wordAt_writeRange_of_stop_le 0 _ h

theorem wordAt_vectorAcc {stop : Nat} (h : stop ≤ s.acc.length) (g : Nat) :
    wordAt (vectorAcc s stop) g = if g < stop then s.lane g % s.radix + s.overflowInto g else s.lane g := by
  simp only [vectorAcc, wordAt_writeRange_of_le _ h, Nat.zero_le, true_and]
  rfl

/-- Two adjacent ranges written one after the other are one range written at once. -/
theorem writeRange_adjacent {ws : Words} {lo stop : Nat} {f f' : Nat → Nat} (h : lo ≤ stop) (hf : ∀ g, lo ≤ g → f' g = f g) :
    writeRange lo stop f' (writeRange 0 lo f ws) = writeRange 0 stop f ws := by
  refine words_ext (by simp) fun g => ?_
  simp only [wordAt_writeRange, length_writeRange, Nat.zero_le, true_and]
  by_cases hg : lo ≤ g
  · simp [hg, hf g hg, Nat.not_lt.mpr hg]
  · have hlo : g < lo := by omega
    simp [hg, hlo, hlo.trans_le h]

/-- A tile below the last ends where the next begins. -/
theorem tileEnd_eq_tileLo_succ (hway : 0 < s.params.way) (hc : s.Configured) (ht : t + 1 < s.tiles) :
    s.tileEnd t = s.tileLo (t + 1) := by
  have hlo : s.tileLo (t + 1) ≤ s.active := (tileLo_lt_tileEnd hway hc ht).le.trans (tileEnd_le_active s _)
  rw [State.tileLo, Nat.succ_mul] at hlo ⊢
  exact Nat.min_eq_left hlo

/-- The last tile ends with the active lanes. -/
theorem tileEnd_pred_tiles (hway : 0 < s.params.way) (hc : s.Configured) : s.tileEnd (s.tiles - 1) = s.active := by
  refine Nat.min_eq_right ?_
  rw [← Nat.succ_mul, Nat.succ_eq_add_one, Nat.sub_add_cancel (tiles_pos hway hc)]
  cases h : s.tiled with
  | true => exact (active_tiled h).le
  | false =>
    obtain ⟨-, hfits, -⟩ := hc
    rw [active_untiled h, tiles_untiled h, Nat.one_mul]
    exact hfits h

theorem execAll_append_of_next {is js : List Instr} (h : execAll is s = .next u) : execAll (is ++ js) s = execAll js u := by
  induction is generalizing s with
  | nil => rw [List.nil_append, Host.Outcome.next.inj h]
  | cons i is ih =>
    cases hi : exec i s with
    | next v =>
      rw [execAll_cons_of_next is hi] at h
      rw [List.cons_append, execAll_cons_of_next _ hi, ih h]
    | fault | refused => simp [execAll, hi] at h

section Pass

variable (c : ChainReg) {carry : Nat}

/-- Once the lanes below a tile are propagated, and the carry into the tile is the overflow of the lane below it, propagating the
tile propagates the lanes below its end. -/
theorem cpropAcc_write_vectorAcc (hle : s.tileLo t ≤ s.tileEnd t) (hcarry : carryIn t carry = s.overflowInto (s.tileLo t)) :
    cpropAcc (c.write s (vectorAcc s (s.tileLo t)) carry) t carry = vectorAcc s (s.tileEnd t) := by
  simp only [cpropAcc, ChainReg.write_tileLo, ChainReg.write_tileEnd, ChainReg.write_acc]
  refine writeRange_adjacent hle fun g hg => ?_
  simp only [cpropLane, ChainReg.write_params, ChainReg.write_lane, ChainReg.write_tileLo, wordAt_vectorAcc_of_le hg]
  congr 1
  split
  · next heq => rw [hcarry, heq]
  · next hne =>
    rw [State.overflowInto, if_neg (by omega), wordAt_vectorAcc_of_le (by omega), State.radix]

/-- The carry out of the tile is then the overflow into the lane above it. -/
theorem cpropOut_write_vectorAcc (hlt : s.tileLo t < s.tileEnd t) :
    cpropOut (c.write s (vectorAcc s (s.tileLo t)) carry) t = s.overflowInto (s.tileEnd t) := by
  rw [cpropOut, ChainReg.write_tileEnd, ChainReg.write_lane, ChainReg.write_params, wordAt_vectorAcc_of_le (by omega),
    State.overflowInto, if_neg (by omega), State.radix]

/-- A propagation in the middle of the chained pass takes it from the tile's lowest lane to its end. -/
theorem exec_command_write_vectorAcc (hway : 0 < s.params.way) (hc : s.Configured) (ht : t < s.tiles)
    (hcarry : carryIn t carry = s.overflowInto (s.tileLo t)) :
    exec (c.command t) (c.write s (vectorAcc s (s.tileLo t)) carry) =
      .next (c.write s (vectorAcc s (s.tileEnd t)) (s.overflowInto (s.tileEnd t))) := by
  have hlt := tileLo_lt_tileEnd hway hc ht
  rw [c.exec_command (by simpa using hc) (by simpa using ht), ChainReg.read_write, ChainReg.write_write,
    cpropAcc_write_vectorAcc c hlt.le hcarry, cpropOut_write_vectorAcc c hlt]

/-- The chained pass over the tiles 0 … t propagates the lanes below the end of tile `t`. -/
theorem execAll_chain (hway : 0 < s.params.way) (hc : s.Configured) (ht : t < s.tiles) :
    execAll ((List.range (t + 1)).map c.command) s =
      .next (c.write s (vectorAcc s (s.tileEnd t)) (s.overflowInto (s.tileEnd t))) := by
  induction t with
  | zero =>
    have hstart : c.write s (vectorAcc s (s.tileLo 0)) (c.read s) = s := by
      rw [State.tileLo, Nat.zero_mul, vectorAcc_zero, ChainReg.write_self]
    have hfirst := exec_command_write_vectorAcc c (carry := c.read s) hway hc ht (by simp [State.tileLo, State.overflowInto])
    rw [hstart] at hfirst
    exact execAll_cons_of_next [] hfirst
  | succ t ih =>
    have hpos : s.tileLo (t + 1) = s.tileEnd t := (tileEnd_eq_tileLo_succ hway hc ht).symm
    have hnext := exec_command_write_vectorAcc c hway hc ht (carryIn_pos (Nat.succ_ne_zero t) _)
    rw [List.range_succ, List.map_append, execAll_append_of_next (ih (by omega)), ← hpos]
    exact execAll_cons_of_next [] hnext

/-- The chained pass over all tiles is the primitive on the whole active vector, its last overflow left in the register. -/
theorem execAll_chainedPass (hway : 0 < s.params.way) (hc : s.Configured) :
    execAll ((List.range s.tiles).map c.command) s =
      .next (c.write s (vectorAcc s s.active) (s.lane (s.active - 1) / s.radix)) := by
  have hpos : 1 ≤ s.tiles := tiles_pos hway hc
  have h := execAll_chain c hway hc (Nat.sub_lt hpos one_pos)
  rwa [Nat.sub_add_cancel hpos, tileEnd_pred_tiles hway hc, State.overflowInto,
    if_neg (active_pos hway hc).ne'] at h

end Pass

end Sys2Proof.Machine

namespace Sys2Proof.Proofs

open Sys2Proof Sys2Proof.Machine

/-- Settles O31: an induction over the tiles, each propagated with the overflow of the lane below it as its carry. -/
theorem chainedPassIsOnePass : Obligations.ChainedPassIsOnePass := by
  intro s ⟨hp, _, _, _, _, ⟨⟨hacc, _⟩, _⟩⟩ hc
  have ⟨_, _, hway, _, _⟩ := hp
  have hlanes := wordAt_vectorAcc (hacc ▸ active_le_nMax hp hc)
  exact ⟨⟨_, execAll_chainedPass .cy hway hc, rfl, rfl, hlanes⟩, ⟨_, execAll_chainedPass .cq hway hc, rfl, rfl, hlanes⟩⟩

/-- Settles O27: the propagation of the tile through CY. -/
theorem cpyPropagates : Obligations.CpyPropagates := fun _ t ⟨hp, _, _, _, _, hm⟩ hc ht =>
  ⟨_, ChainReg.cy.exec_command hc ht, rfl, length_cpropAcc t _, rfl, wordAt_cpropAcc (tileEnd_le_length hm hp hc t)⟩

/-- Settles O28: the propagation of the tile through CQ. -/
theorem cpqPropagates : Obligations.CpqPropagates := fun _ t ⟨hp, _, _, _, _, hm⟩ hc ht =>
  ⟨_, ChainReg.cq.exec_command hc ht, rfl, length_cpropAcc t _, rfl, wordAt_cpropAcc (tileEnd_le_length hm hp hc t)⟩

/-- Settles O29: the overflow of each lane is counted at the weight of the next. -/
theorem propagationPreservesValue : Obligations.PropagationPreservesValue := by
  intro s u t ⟨hp, _, _, _, _, hm⟩ hc ht
  have ⟨_, _, hway, _, _⟩ := hp
  have hsum := sum_cpropAcc (tileEnd_le_length hm hp hc t) (tileLo_lt_tileEnd hway hc ht)
  refine ⟨fun hu => ?cpy, fun hu => ?cpq⟩
  case cpy =>
    obtain rfl := ChainReg.cy.eq_of_exec_command hc ht hu
    exact hsum s.cy
  case cpq =>
    obtain rfl := ChainReg.cq.eq_of_exec_command hc ht hu
    exact hsum s.cq

/-- Settles O30: a lane gets two terms below r, lane 0 only its own low bits; the carries fit by the state invariant. -/
theorem propagationBoundsTheLanes : Obligations.PropagationBoundsTheLanes := by
  intro s u t hs hc ht hu
  obtain ⟨c, hu⟩ : ∃ c : ChainReg, exec (c.command t) s = .next u := hu.elim (⟨.cy, ·⟩) (⟨.cq, ·⟩)
  have ⟨hp, _, _, _, _, hm⟩ := hs
  have hlane := wordAt_cpropAcc (cin := c.read s) (tileEnd_le_length hm hp hc t)
  obtain ⟨-, -, -, hcy, hcq, -⟩ := wf_exec hs hu
  obtain rfl := c.eq_of_exec_command hc ht hu
  rw [ChainReg.write_radix] at hcy hcq
  refine ⟨fun g hg => ?lanes, hcy, hcq, fun h0 => ?laneZero⟩
  case lanes =>
    rw [ChainReg.write_lane, hlane, if_pos hg]
    exact cpropLane_lt hm (c.read_lt_radix hs) t g
  case laneZero =>
    subst h0
    have ⟨_, _, hway, _, _⟩ := hp
    have hzero : s.tileLo 0 = 0 := Nat.zero_mul _
    have hin : s.inTile 0 0 := by simpa only [hzero] using inTile_tileLo hway hc ht
    rw [ChainReg.write_lane, hlane, if_pos hin, cpropLane, if_pos hzero.symm, carryIn_zero]
    exact Nat.mod_lt _ (Nat.two_pow_pos _)

end Sys2Proof.Proofs

/-! PROOFS. The micro-operations (42_redc_microops): MACY and MACQ are one multiply-accumulate, QGEN's digit makes the lowest column a
multiple of r, and SHIFT divides the value by r. -/

namespace Sys2Proof.Machine

variable {s : State} {i : Instr}

theorem exec_of_passes (hi : i.isCommand = true) (h : firstError (commandChecks i) s = none) :
    exec i s = .next (commandBody i s) := by
  rw [exec_eq_command hi, command_of_passes h]

/-! ## Multiply-accumulate (42_redc_microops R154, R160) -/

/-- STATUS.OVF is sticky, and a wrap on the tile sets it (42_redc_microops R155). -/
theorem macTile_ovf_iff (limb : Nat → Nat) (digit t : Nat) :
    (macTile limb digit t s).ovf = true ↔
      s.ovf = true ∨ ∃ g, s.inTile t g ∧ 2 ^ s.params.lane ≤ macSum s limb digit g := by
  rw [macTile_eq, Bool.or_eq_true, macWraps_iff]

theorem exec_macy_of_configured {t : Nat} (hc : s.Configured) (ht : t < s.tiles) (hiter : s.iter.toNat < s.limbs) :
    exec (.macy t) s = .next (macTile s.limbX (s.limbY s.iter.toNat) t s) :=
  exec_of_passes rfl <| by
    simp [commandChecks, checkConfig_eq_none.mpr hc, checkTile_eq_none.mpr ht, checkIter_eq_none.mpr hiter]

theorem exec_macq_of_configured {t : Nat} (hc : s.Configured) (ht : t < s.tiles) :
    exec (.macq t) s = .next (macTile s.limbM s.q t s) :=
  exec_of_passes rfl <| by simp [commandChecks, checkConfig_eq_none.mpr hc, checkTile_eq_none.mpr ht]

/-! ## The quotient digit (42_redc_microops R157) -/

/-- An odd modulus has a limb. -/
theorem limbs_pos_of_mval_odd (h : s.mval % 2 = 1) : 0 < s.limbs := by
  refine Nat.pos_of_ne_zero fun h0 => ?_
  rw [State.mval, h0, valueOf_zero] at h
  contradiction

/-- Modulo r a value is its lowest digit. -/
theorem valueOf_modEq_digit_zero (w : Nat) (d : Nat → Nat) {k : Nat} (hk : 0 < k) : valueOf w d k ≡ d 0 [MOD 2 ^ w] := by
  obtain ⟨k, rfl⟩ := Nat.exists_eq_succ_of_ne_zero hk.ne'
  rw [valueOf_succ_bottom]
  exact Nat.add_mul_mod_self_left ..

/-- Where `m · c ≡ −1 (mod r)` and `m₀ ≡ m`, the digit `a · c mod r` times `m₀` cancels `a`. -/
theorem add_mul_quotientDigit_modEq_zero {r m m₀ c : Nat} (a : Nat) (hm : m ≡ m₀ [MOD r]) (hc : m * c + 1 ≡ 0 [MOD r]) :
    a + m₀ * (a * c % r) ≡ 0 [MOD r] :=
  calc
    a + m₀ * (a * c % r) ≡ a + m * (a * c) [MOD r] := (hm.symm.mul (Nat.mod_modEq _ _)).add_left a
    _ = a * (m * c + 1) := by ring
    _ ≡ a * 0 [MOD r] := hc.mul_left a
    _ = 0 := Nat.mul_zero a

/-! ## The Montgomery shift (42_redc_microops R162, R163) -/

theorem exec_shift_of_configured (hc : s.Configured) : exec .shift s = .next (shiftBody s) :=
  exec_of_passes rfl <| by simp [commandChecks, checkConfig_eq_none.mpr hc]

/-- Digits moved one place down, with a new top digit: r times the new value and the digit lost is the old value and the new digit one
place above its top. -/
theorem valueOf_shift {w k : Nat} {d e : Nat → Nat} (h : ∀ g < k, e g = d (g + 1)) :
    valueOf w e (k + 1) * 2 ^ w + d 0 = valueOf w d (k + 1) + e k * 2 ^ (w * (k + 1)) := by
  rw [valueOf_succ_bottom w d, valueOf_succ, valueOf_congr h, Nat.mul_succ, pow_add]
  ring

theorem wordAt_shiftAcc_of_succ_lt (h : s.active ≤ s.acc.length) {g : Nat} (hg : g + 1 < s.active) :
    wordAt (shiftAcc s) g = s.lane (g + 1) := by
  rw [wordAt_shiftAcc h, if_pos (by omega), if_pos hg]

theorem wordAt_shiftAcc_top (h : s.active ≤ s.acc.length) (hpos : 0 < s.active) :
    wordAt (shiftAcc s) (s.active - 1) = s.cy + s.cq := by
  rw [wordAt_shiftAcc h, if_pos (by omega), if_neg (by omega)]

/-- SHIFT and value: lane 0 is lost, and CY + CQ enters at the weight r^L. -/
theorem vacc_shiftBody (h : s.active ≤ s.acc.length) (hpos : 0 < s.active) :
    (shiftBody s).vacc * s.radix + s.lane 0 = s.vacc + (s.cy + s.cq) * s.radix ^ s.active := by
  have hshift := valueOf_shift (w := s.params.w) (k := s.active - 1) (d := s.lane) (e := wordAt (shiftAcc s)) fun g hg =>
    wordAt_shiftAcc_of_succ_lt h (by omega)
  rw [wordAt_shiftAcc_top h hpos, Nat.sub_add_cancel hpos, pow_mul] at hshift
  exact hshift

end Sys2Proof.Machine

namespace Sys2Proof.Proofs

open Sys2Proof Sys2Proof.Machine

/-- Settles O25: the multiply-accumulate of X by the digit of Y that ITER selects. -/
theorem macyAccumulates : Obligations.MacyAccumulates := fun _ t ⟨hp, _, _, _, _, hm⟩ hc ht hiter =>
  ⟨_, exec_macy_of_configured hc ht hiter, rfl, macTile_length _ _ t, macTile_lane (tileEnd_le_length hm hp hc t),
    macTile_ovf_iff _ _ t⟩

/-- Settles O26: the multiply-accumulate of M by Q. -/
theorem macqAccumulates : Obligations.MacqAccumulates := fun _ t ⟨hp, _, _, _, _, hm⟩ hc ht =>
  ⟨_, exec_macq_of_configured hc ht, rfl, macTile_length _ _ t, macTile_lane (tileEnd_le_length hm hp hc t),
    macTile_ovf_iff _ _ t⟩

/-- Settles O33: limbM(0) is Mval modulo r, and Mval · MINV is −1. -/
theorem quotientDigitClearsLaneZero : Obligations.QuotientDigitClearsLaneZero := by
  intro s u ⟨hodd, hminv⟩ hu
  obtain rfl := Host.Outcome.next.inj hu
  have hlimb : s.mval ≡ s.limbM 0 [MOD s.radix] := valueOf_modEq_digit_zero _ _ (limbs_pos_of_mval_odd hodd)
  have hinv : s.mval * s.minv + 1 ≡ 0 [MOD s.radix] := Eq.trans hminv (Nat.zero_mod _).symm
  exact Eq.trans (add_mul_quotientDigit_modEq_zero (s.lane 0) hlimb hinv) (Nat.zero_mod _)

/-- Settles O34: below lane L−1, at it, and above it. -/
theorem shiftMovesTheLanes : Obligations.ShiftMovesTheLanes := by
  intro s ⟨hp, _, _, _, _, ⟨⟨hacc, _⟩, _⟩⟩ hc
  have ⟨_, _, hway, _, _⟩ := hp
  have hlen : s.active ≤ s.acc.length := hacc ▸ active_le_nMax hp hc
  exact ⟨_, exec_shift_of_configured hc, rfl, length_shiftAcc, nextIter_toNat s.iter,
    fun _ hg => wordAt_shiftAcc_of_succ_lt hlen hg, wordAt_shiftAcc_top hlen (active_pos hway hc),
    fun _ hg => shiftBody_lane_of_active_le hg⟩

/-- Settles O35: with lane 0 zero the equation of values says that r divides exactly. -/
theorem shiftDividesTheValue : Obligations.ShiftDividesTheValue := by
  intro s u ⟨hp, _, _, _, _, ⟨⟨hacc, _⟩, _⟩⟩ hc hu
  obtain rfl := Host.Outcome.next.inj ((exec_shift_of_configured hc).symm.trans hu)
  have ⟨_, _, hway, _, _⟩ := hp
  have hvalue := vacc_shiftBody (hacc ▸ active_le_nMax hp hc) (active_pos hway hc)
  refine ⟨hvalue, fun h0 => ?exact⟩
  case exact =>
    rw [h0, Nat.add_zero] at hvalue
    exact Nat.eq_div_of_mul_eq_left (Nat.two_pow_pos _).ne' hvalue

/-- Settles O23: the word 0 decodes to NOP, and retiring it clears PEND alone as `stall` is 0 already. -/
theorem nopChangesNothing : Obligations.NopChangesNothing := by
  refine ⟨fun _ => rfl, fun s hp hstall => ?_⟩
  have hnop : decodeCommand 0x0000000000000000 = .ok .nop := rfl
  have hretire : s.retire = { s with pend := none } := by rw [State.retire, ← hstall]
  rw [step_engine_of_turn hp (.inl hstall), engineStep_of_ok hnop, ← hretire]
  rfl

/-- Settles O24: CLEAR has no check, and every lane of the new accumulator is 0. -/
theorem clearZeroesTheScratchState : Obligations.ClearZeroesTheScratchState := fun s =>
  ⟨clearBody s, exec_of_passes rfl rfl, rfl, List.length_replicate, wordAt_replicate s.params.nMax⟩

/-- Settles O32: QGEN has no check, and its body is one register write. -/
theorem qgenWritesTheQuotientDigit : Obligations.QgenWritesTheQuotientDigit := fun _ => exec_of_passes rfl rfl

end Sys2Proof.Proofs

/-! PROOFS. The digit iteration (43_sequences R180 to R183, R190, R191): STEP as its micro-operations, as the whole-vector passes of the
single-tile engine, and as a recurrence of values. -/

namespace Sys2Proof.Machine

variable {s u : State} {t t' g k : Nat}

/-! ## Walks over the tiles -/

/-- A state in which every micro-operation of a digit iteration over `k` tiles passes its checks. -/
structure State.Iterating (k : Nat) (s : State) : Prop where
  way : 0 < s.params.way
  configured : s.Configured
  tiles : s.tiles = k
  iter : s.iter.toNat < s.limbs

/-- A walk whose body on each tile is what some instructions execute is what the instructions of all tiles execute. -/
theorem execAll_flatMap_range {P : State → Prop} {ops : Nat → List Instr} {body : Nat → State → State}
    (hexec : ∀ t s, t < k → P s → execAll (ops t) s = .next (body t s)) (hkeep : ∀ t s, P s → P (body t s)) (hs : P s) :
    execAll ((List.range k).flatMap ops) s = .next (forTiles k 0 body s) := by
  induction k with
  | zero => rfl
  | succ k ih =>
    have hP : P (forTiles k 0 body s) := forTiles_keeps k 0 s (fun t s _ _ => hkeep t s) hs
    rw [List.range_succ, List.flatMap_append, execAll_append_of_next (ih fun t s ht => hexec t s (by omega)),
      forTiles_succ_last, List.flatMap_singleton, hexec k _ (by omega) hP, Nat.zero_add]

theorem execAll_map_range {P : State → Prop} {op : Nat → Instr} {body : Nat → State → State}
    (hexec : ∀ t s, t < k → P s → exec (op t) s = .next (body t s)) (hkeep : ∀ t s, P s → P (body t s)) (hs : P s) :
    execAll ((List.range k).map op) s = .next (forTiles k 0 body s) := by
  rw [List.map_eq_flatMap]
  exact execAll_flatMap_range (fun t s ht hP => execAll_cons_of_next [] (hexec t s ht hP)) hkeep hs

/-- The body of a walk leaves every micro-operation of the iteration able to pass its checks. -/
def KeepsIterating (k : Nat) (body : Nat → State → State) : Prop := ∀ t s, s.Iterating k → (body t s).Iterating k

theorem KeepsIterating.forTiles {body : Nat → State → State} (h : KeepsIterating k body) (j : Nat) (hs : s.Iterating k) :
    (forTiles j 0 body s).Iterating k :=
  forTiles_keeps j 0 s (fun t v _ _ => h t v) hs

/-- In a digit iteration over `k` tiles, `late` on a tile does not read what `early` on a lower tile wrote, and the other way round. -/
def CommutesUp (k : Nat) (early late : Nat → State → State) : Prop :=
  ∀ t t' s, s.Iterating k → t < t' → t' < k → late t' (early t s) = early t (late t' s)

theorem CommutesUp.comp {f g late : Nat → State → State} (hf : CommutesUp k f late) (hg : CommutesUp k g late)
    (hkeep : KeepsIterating k f) : CommutesUp k (fun t s => g t (f t s)) late := fun t t' s hs h h' => by
  rw [hg t t' _ (hkeep t s hs) h h', hf t t' s hs h h']

/-- One walk with two operations on each tile is two walks, if the first operation on a tile commutes with the second on the tiles
below. -/
theorem forTiles_comp {f g : Nat → State → State} (hf : KeepsIterating k f) (hg : KeepsIterating k g) (hcomm : CommutesUp k g f)
    (hs : s.Iterating k) : forTiles k 0 (fun t s => g t (f t s)) s = forTiles k 0 g (forTiles k 0 f s) := by
  have hlate : ∀ j ≤ k, ∀ t', j ≤ t' → t' < k → ∀ v, v.Iterating k → f t' (forTiles j 0 g v) = forTiles j 0 g (f t' v) := by
    intro j
    induction j with
    | zero => exact fun _ _ _ _ _ _ => rfl
    | succ j ih =>
      intro hj t' ht' htk v hv
      rw [forTiles_succ_last, forTiles_succ_last, Nat.zero_add, hcomm j t' _ (hg.forTiles j hv) (by omega) htk,
        ih (by omega) t' (by omega) htk v hv]
  suffices h : ∀ j ≤ k, forTiles j 0 (fun t s => g t (f t s)) s = forTiles j 0 g (forTiles j 0 f s) from h k le_rfl
  intro j hj
  induction j with
  | zero => rfl
  | succ j ih =>
    simp only [forTiles_succ_last, Nat.zero_add, ih (by omega), hlate j (by omega) j le_rfl hj _ (hf.forTiles j hs)]

/-! ## The bodies on two tiles (43_sequences R181, R182)

A body on a tile reads and writes only the lanes of that tile and registers that no body on a higher tile writes before it. -/

/-- The body of CPY and of CPQ. -/
def ChainReg.body (c : ChainReg) (t : Nat) (s : State) : State := c.write s (cpropAcc s t (c.read s)) (cpropOut s t)

theorem ChainReg.body_cy : ChainReg.cy.body = cpyBody := rfl

theorem ChainReg.body_cq : ChainReg.cq.body = cpqBody := rfl

theorem iterating_macTile {limb : Nat → Nat} {digit : Nat} (h : s.Iterating k) : (macTile limb digit t s).Iterating k :=
  ⟨h.way, h.configured, h.tiles, h.iter⟩

theorem keepsIterating_body (c : ChainReg) : KeepsIterating k (c.body) := fun _ _ h => by
  cases c <;> exact ⟨h.way, h.configured, h.tiles, h.iter⟩

theorem keepsIterating_macyBody : KeepsIterating k macyBody := fun _ _ h => iterating_macTile h

theorem keepsIterating_macqBody : KeepsIterating k macqBody := fun _ _ h => iterating_macTile h

theorem iterating_qgenBody (h : s.Iterating k) : (qgenBody s).Iterating k := ⟨h.way, h.configured, h.tiles, h.iter⟩

theorem keepsIterating_qgenOfTile : KeepsIterating k qgenOfTile := fun t _ h => qgenOfTile_keeps t (iterating_qgenBody h) h

theorem keepsIterating_stepTile : KeepsIterating k stepTile := fun t s h =>
  keepsIterating_body .cq t _ (keepsIterating_macqBody t _ (keepsIterating_qgenOfTile t _
    (keepsIterating_body .cy t _ (keepsIterating_macyBody t s h))))

/-- Two states that agree outside a digit iteration and on what it writes are equal. -/
theorem eq_of_outsideIteration (h : u.outsideIteration = s.outsideIteration) (hacc : u.acc = s.acc) (hovf : u.ovf = s.ovf)
    (hiter : u.iter = s.iter) (hq : u.q = s.q) (hcy : u.cy = s.cy) (hcq : u.cq = s.cq) : u = s := by
  cases u
  cases s
  simp_all [State.outsideIteration]

theorem not_inTile_of_ne (hway : 0 < s.params.way) (hne : t ≠ t') (h : s.inTile t g) : ¬ s.inTile t' g := fun h' =>
  hne (((inTile_iff_div_eq hway).mp h).1.symm.trans ((inTile_iff_div_eq hway).mp h').1)

/-- Writes of two disjoint ranges commute when neither written function reads the other's range. -/
theorem writeRange_comm {ws : Words} {lo stop lo' stop' : Nat} {f f₀ f' f₀' : Nat → Nat}
    (hdisj : ∀ g, lo ≤ g ∧ g < stop → ¬ (lo' ≤ g ∧ g < stop')) (hf : ∀ g, lo ≤ g ∧ g < stop → f g = f₀ g)
    (hf' : ∀ g, lo' ≤ g ∧ g < stop' → f' g = f₀' g) :
    writeRange lo stop f (writeRange lo' stop' f₀' ws) = writeRange lo' stop' f' (writeRange lo stop f₀ ws) := by
  refine words_ext (by simp) fun g => ?_
  simp only [wordAt_writeRange, length_writeRange]
  by_cases h : lo ≤ g ∧ g < stop
  · simp [h, hdisj g h, hf g h]
  · by_cases h' : lo' ≤ g ∧ g < stop'
    · simp [h, h', hf' g h']
    · simp [h, h']

theorem wordAt_writeRange_of_not {ws : Words} {lo stop : Nat} (f : Nat → Nat) (h : ¬ (lo ≤ g ∧ g < stop)) :
    wordAt (writeRange lo stop f ws) g = wordAt ws g := by
  rw [wordAt_writeRange, if_neg fun hg => h hg.1]

theorem macTile_lane_of_not_inTile {limb : Nat → Nat} {digit : Nat} (h : ¬ s.inTile t g) :
    (macTile limb digit t s).lane g = s.lane g :=
  wordAt_writeRange_of_not _ h

theorem body_lane_of_not_inTile (c : ChainReg) (h : ¬ s.inTile t g) : (c.body t s).lane g = s.lane g := by
  rw [ChainReg.body, ChainReg.write_lane]
  exact wordAt_writeRange_of_not _ h

/-- A propagated lane is read from the lanes of its own tile. -/
theorem cpropLane_congr (h : ∀ g, s.inTile t g → u.lane g = s.lane g) (hp : u.params = s.params) (cin : Nat)
    (hg : s.inTile t g) : cpropLane u t cin g = cpropLane s t cin g := by
  have hlo : u.tileLo t = s.tileLo t := congrArg (fun p : Params => t * p.way) hp
  rw [cpropLane, cpropLane, hp, hlo, h g hg]
  split
  · rfl
  · rw [h (g - 1) ⟨by have := hg.1; omega, by have := hg.2; omega⟩]

/-- The carry out of a tile is read from its top lane. -/
theorem cpropOut_congr (h : ∀ g, s.inTile t g → u.lane g = s.lane g) (hpos : s.tileLo t < s.tileEnd t)
    (hp : u.params = s.params) (hend : u.tileEnd t = s.tileEnd t) : cpropOut u t = cpropOut s t := by
  rw [cpropOut, cpropOut, hp, hend, h _ ⟨by omega, by omega⟩]

theorem macWraps_congr {limb : Nat → Nat} {digit : Nat} (h : ∀ g, s.inTile t g → u.lane g = s.lane g)
    (hp : u.params = s.params) (htile : ∀ g, u.inTile t g ↔ s.inTile t g) :
    macWraps u limb digit t = macWraps s limb digit t := by
  rw [Bool.eq_iff_iff, macWraps_iff, macWraps_iff]
  refine exists_congr fun g => ?_
  rw [htile, hp]
  exact and_congr_right fun hg => by rw [macSum, macSum, h g hg]

theorem macTile_body_comm (c : ChainReg) {limb : Nat → Nat} {digit : Nat} (hs : s.Iterating k) (hne : t ≠ t') (ht : t < k) :
    macTile limb digit t' (c.body t s) = c.body t (macTile limb digit t' s) := by
  have hbelow : ∀ g, s.inTile t g → (macTile limb digit t' s).lane g = s.lane g := fun g hg =>
    macTile_lane_of_not_inTile (not_inTile_of_ne hs.way hne hg)
  have habove : ∀ g, s.inTile t' g → (c.body t s).lane g = s.lane g := fun g hg =>
    body_lane_of_not_inTile c (not_inTile_of_ne hs.way hne.symm hg)
  have hout : cpropOut (macTile limb digit t' s) t = cpropOut s t :=
    cpropOut_congr hbelow (tileLo_lt_tileEnd hs.way hs.configured (hs.tiles ▸ ht)) rfl rfl
  have hacc : (macTile limb digit t' (c.body t s)).acc = (c.body t (macTile limb digit t' s)).acc := by
    have hmac : ∀ g, s.inTile t' g →
        macSum (c.body t s) limb digit g % 2 ^ s.params.lane = macSum s limb digit g % 2 ^ s.params.lane :=
      fun g hg => by rw [macSum, macSum, habove g hg]
    cases c <;> exact writeRange_comm (fun g => not_inTile_of_ne hs.way hne.symm) hmac
      fun g hg => cpropLane_congr hbelow rfl _ hg
  have hovf : (macTile limb digit t' (c.body t s)).ovf = (c.body t (macTile limb digit t' s)).ovf := by
    cases c <;> exact congrArg (s.ovf || ·) (macWraps_congr habove rfl fun _ => Iff.rfl)
  cases c with
  | cy => exact eq_of_outsideIteration rfl hacc hovf rfl rfl hout.symm rfl
  | cq => exact eq_of_outsideIteration rfl hacc hovf rfl rfl rfl hout.symm

theorem macTile_comm {limb limb' : Nat → Nat} {digit digit' : Nat} (hway : 0 < s.params.way) (hne : t ≠ t') :
    macTile limb digit t' (macTile limb' digit' t s) = macTile limb' digit' t (macTile limb digit t' s) := by
  have hbelow : ∀ g, s.inTile t g → (macTile limb digit t' s).lane g = s.lane g := fun g hg =>
    macTile_lane_of_not_inTile (not_inTile_of_ne hway hne hg)
  have habove : ∀ g, s.inTile t' g → (macTile limb' digit' t s).lane g = s.lane g := fun g hg =>
    macTile_lane_of_not_inTile (not_inTile_of_ne hway hne.symm hg)
  refine eq_of_outsideIteration rfl ?acc ?ovf rfl rfl rfl rfl
  case acc =>
    exact writeRange_comm (fun g => not_inTile_of_ne hway hne.symm) (fun g hg => by rw [macSum, macSum, habove g hg]; rfl)
      fun g hg => by rw [macSum, macSum, hbelow g hg]; rfl
  case ovf =>
    have hhigh := macWraps_congr (limb := limb) (digit := digit) habove rfl fun _ => Iff.rfl
    have hlow := macWraps_congr (limb := limb') (digit := digit') hbelow rfl fun _ => Iff.rfl
    change ((s.ovf || _) || macWraps _ _ _ _) = ((s.ovf || _) || macWraps _ _ _ _)
    rw [hhigh, hlow]
    exact Bool.or_right_comm _ _ _

/-- CPY on a tile and CPQ on another chain through their own registers. -/
theorem cpyBody_cpqBody_comm (hs : s.Iterating k) (hne : t ≠ t') (ht : t < k) (ht' : t' < k) :
    cpyBody t' (cpqBody t s) = cpqBody t (cpyBody t' s) := by
  have hpos : ∀ {j}, j < k → s.tileLo j < s.tileEnd j := fun hj => tileLo_lt_tileEnd hs.way hs.configured (hs.tiles ▸ hj)
  have hbelow : ∀ g, s.inTile t g → (cpyBody t' s).lane g = s.lane g := fun g hg =>
    body_lane_of_not_inTile .cy (not_inTile_of_ne hs.way hne hg)
  have habove : ∀ g, s.inTile t' g → (cpqBody t s).lane g = s.lane g := fun g hg =>
    body_lane_of_not_inTile .cq (not_inTile_of_ne hs.way hne.symm hg)
  refine eq_of_outsideIteration rfl ?acc rfl rfl rfl ?cy ?cq
  case acc =>
    exact writeRange_comm (fun g => not_inTile_of_ne hs.way hne.symm)
      (fun g hg => cpropLane_congr habove rfl _ hg)
      fun g hg => cpropLane_congr hbelow rfl _ hg
  case cy => exact cpropOut_congr habove (hpos ht') rfl rfl
  case cq => exact (cpropOut_congr hbelow (hpos ht) rfl rfl).symm

/-- An operation that leaves lane 0 alone commutes with QGEN. -/
theorem commutesUp_qgenOfTile {late : Nat → State → State}
    (h : ∀ t s, s.Iterating k → t ≠ 0 → late t (qgenBody s) = qgenBody (late t s)) : CommutesUp k qgenOfTile late :=
  fun t t' s hs hlt _ => by
    unfold qgenOfTile
    split
    · exact h t' s hs (by omega)
    · rfl

/-- QGEN belongs to tile 0, so there is none on a higher tile. -/
theorem commutesUp_late_qgenOfTile (early : Nat → State → State) : CommutesUp k early qgenOfTile := fun t t' s _ hlt _ => by
  have h0 : t' ≠ 0 := by omega
  simp [qgenOfTile, h0]

theorem not_inTile_zero (hway : 0 < s.params.way) (h : t ≠ 0) : ¬ s.inTile t 0 := fun ⟨hlo, _⟩ => by
  have := Nat.mul_pos (Nat.pos_of_ne_zero h) hway
  rw [State.tileLo] at hlo
  omega

theorem qgenBody_lane_zero_congr {v : State} (hlane : v.lane 0 = s.lane 0) (hminv : v.minv = s.minv) (hp : v.params = s.params) :
    (qgenBody v).q = (qgenBody s).q := by
  simp only [qgenBody, State.setQ_q, hlane, hminv, hp]

theorem macyBody_qgenBody_comm (hs : s.Iterating k) (ht : t ≠ 0) : macyBody t (qgenBody s) = qgenBody (macyBody t s) :=
  eq_of_outsideIteration rfl rfl rfl rfl
    (qgenBody_lane_zero_congr (macTile_lane_of_not_inTile (not_inTile_zero hs.way ht)) rfl rfl).symm rfl rfl

theorem cpyBody_qgenBody_comm (hs : s.Iterating k) (ht : t ≠ 0) : cpyBody t (qgenBody s) = qgenBody (cpyBody t s) :=
  eq_of_outsideIteration rfl rfl rfl rfl
    (qgenBody_lane_zero_congr (body_lane_of_not_inTile .cy (not_inTile_zero hs.way ht)) rfl rfl).symm rfl rfl

theorem commutesUp_body_macyBody (c : ChainReg) : CommutesUp k c.body macyBody := fun t t' s hs hlt ht' => by
  cases c <;> exact macTile_body_comm _ hs hlt.ne (hlt.trans ht')

theorem commutesUp_cpqBody_macqBody : CommutesUp k cpqBody macqBody := fun _ _ _ hs hlt ht' =>
  macTile_body_comm .cq hs hlt.ne (hlt.trans ht')

theorem commutesUp_macqBody_macyBody : CommutesUp k macqBody macyBody := fun _ _ _ hs hlt _ => macTile_comm hs.way hlt.ne

/-- CPY does not write Q, so a MACQ on a lower tile adds the same digit before and after it. -/
theorem commutesUp_macqBody_cpyBody : CommutesUp k macqBody cpyBody := fun _ _ _ hs hlt ht' =>
  (macTile_body_comm .cy hs hlt.ne' ht').symm

theorem commutesUp_cpqBody_cpyBody : CommutesUp k cpqBody cpyBody := fun _ _ _ hs hlt ht' =>
  cpyBody_cpqBody_comm hs hlt.ne (hlt.trans ht') ht'

/-! ## STEP as its micro-operations and as whole-vector passes -/

theorem execAll_tileOps (hs : s.Iterating k) (ht : t < k) : execAll (tileOps t) s = .next (stepTile t s) := by
  have hcpy : execAll [.macy t, .cpy t] s = .next (cpyBody t (macyBody t s)) := by
    rw [execAll_cons_of_next _ (exec_macy_of_configured hs.configured (hs.tiles ▸ ht) hs.iter)]
    exact execAll_cons_of_next [] (ChainReg.cy.exec_command hs.configured (hs.tiles ▸ ht))
  have hqgen : ∀ v, execAll (if t = 0 then [.qgen] else []) v = .next (qgenOfTile t v) := fun v => by
    unfold qgenOfTile
    split <;> rfl
  have hcpq : ∀ v, v.Iterating k → execAll [.macq t, .cpq t] v = .next (cpqBody t (macqBody t v)) := fun v hv => by
    rw [execAll_cons_of_next _ (exec_macq_of_configured hv.configured (hv.tiles ▸ ht))]
    exact execAll_cons_of_next [] (ChainReg.cq.exec_command hv.configured (hv.tiles ▸ ht))
  rw [tileOps, execAll_append_of_next ((execAll_append_of_next hcpy).trans (hqgen _))]
  exact hcpq _ (keepsIterating_qgenOfTile t _ (keepsIterating_body .cy t _ (keepsIterating_macyBody t s hs)))

theorem exec_step_of_configured (hc : s.Configured) (hiter : s.iter.toNat < s.limbs) : exec .step s = .next (stepBody s) :=
  exec_of_passes rfl <| by simp [commandChecks, checkConfig_eq_none.mpr hc, checkIter_eq_none.mpr hiter]

theorem execAll_stepOps (hs : s.Iterating k) : execAll (stepOps k) s = .next (stepBody s) := by
  have hlast := (forTiles_keeps (P := State.Iterating k) k 0 s (fun t v _ _ => keepsIterating_stepTile t v) hs).configured
  rw [stepOps, execAll_append_of_next (execAll_flatMap_range (fun _ _ ht hv => execAll_tileOps hv ht) keepsIterating_stepTile hs),
    stepBody, hs.tiles]
  exact execAll_cons_of_next [] (exec_shift_of_configured hlast)

theorem forTiles_qgenOfTile (hk : 0 < k) : forTiles k 0 qgenOfTile s = qgenBody s := by
  obtain ⟨k, rfl⟩ := Nat.exists_eq_succ_of_ne_zero hk.ne'
  refine forTiles_keeps (P := (· = qgenBody s)) k 1 _ (fun t v ht _ hv => ?_) rfl
  have h0 : t ≠ 0 := by omega
  simp [qgenOfTile, h0, hv]

/-- The passes of a digit iteration before its shift, each over all `k` tiles (43_sequences R182). -/
def passes (k : Nat) (s : State) : State :=
  forTiles k 0 cpqBody (forTiles k 0 macqBody (qgenBody (forTiles k 0 cpyBody (forTiles k 0 macyBody s))))

/-- 43_sequences R182: each operation of a tile commutes with the later operations of the tiles below it, so all tiles can perform it
before any tile performs the next. -/
theorem forTiles_stepTile (hs : s.Iterating k) : forTiles k 0 stepTile s = passes k s := by
  have hcpy : KeepsIterating k cpyBody := keepsIterating_body .cy
  have hcpq : KeepsIterating k cpqBody := keepsIterating_body .cq
  have hq : KeepsIterating k qgenOfTile := keepsIterating_qgenOfTile
  have hmacq : KeepsIterating k macqBody := keepsIterating_macqBody
  have hmacy : KeepsIterating k macyBody := keepsIterating_macyBody
  have afterMacy : CommutesUp k (fun t s => cpqBody t (macqBody t (qgenOfTile t (cpyBody t s)))) macyBody :=
    (((commutesUp_body_macyBody .cy).comp (commutesUp_qgenOfTile fun _ _ => macyBody_qgenBody_comm) hcpy).comp
      commutesUp_macqBody_macyBody fun t v hv => hq t _ (hcpy t v hv)).comp
      (commutesUp_body_macyBody .cq) fun t v hv => hmacq t _ (hq t _ (hcpy t v hv))
  have afterCpy : CommutesUp k (fun t s => cpqBody t (macqBody t (qgenOfTile t s))) cpyBody :=
    ((commutesUp_qgenOfTile fun _ _ => cpyBody_qgenBody_comm).comp commutesUp_macqBody_cpyBody hq).comp
      commutesUp_cpqBody_cpyBody fun t v hv => hmacq t _ (hq t v hv)
  have hs₁ : (forTiles k 0 macyBody s).Iterating k := forTiles_keeps k 0 s (fun t v _ _ => hmacy t v) hs
  have hs₂ : (forTiles k 0 cpyBody (forTiles k 0 macyBody s)).Iterating k :=
    forTiles_keeps k 0 _ (fun t v _ _ => hcpy t v) hs₁
  have hs₃ : (qgenBody (forTiles k 0 cpyBody (forTiles k 0 macyBody s))).Iterating k := iterating_qgenBody hs₂
  have hk : 0 < k := hs.tiles ▸ tiles_pos hs.way hs.configured
  calc forTiles k 0 stepTile s
    _ = forTiles k 0 (fun t s => cpqBody t (macqBody t (qgenOfTile t (cpyBody t s)))) (forTiles k 0 macyBody s) :=
      forTiles_comp hmacy (fun t v hv => hcpq t _ (hmacq t _ (hq t _ (hcpy t v hv)))) afterMacy hs
    _ = forTiles k 0 (fun t s => cpqBody t (macqBody t (qgenOfTile t s))) (forTiles k 0 cpyBody (forTiles k 0 macyBody s)) :=
      forTiles_comp hcpy (fun t v hv => hcpq t _ (hmacq t _ (hq t v hv))) afterCpy hs₁
    _ = forTiles k 0 (fun t s => cpqBody t (macqBody t s)) (qgenBody (forTiles k 0 cpyBody (forTiles k 0 macyBody s))) := by
      rw [← forTiles_qgenOfTile hk]
      exact forTiles_comp hq (fun t v hv => hcpq t _ (hmacq t v hv)) (commutesUp_late_qgenOfTile _) hs₂
    _ = passes k s := forTiles_comp hmacq hcpq commutesUp_cpqBody_macqBody hs₃

theorem stepBody_eq_passes (hs : s.Iterating k) : stepBody s = shiftBody (passes k s) := by
  rw [stepBody, hs.tiles, forTiles_stepTile hs]

theorem execAll_macyPass (hs : s.Iterating k) : execAll ((List.range k).map .macy) s = .next (forTiles k 0 macyBody s) :=
  execAll_map_range (P := State.Iterating k)
    (fun _ _ ht hv => exec_macy_of_configured hv.configured (hv.tiles ▸ ht) hv.iter) keepsIterating_macyBody hs

theorem execAll_macqPass (hs : s.Iterating k) : execAll ((List.range k).map .macq) s = .next (forTiles k 0 macqBody s) :=
  execAll_map_range (P := State.Iterating k)
    (fun _ _ ht hv => exec_macq_of_configured hv.configured (hv.tiles ▸ ht)) keepsIterating_macqBody hs

theorem execAll_chainPass (c : ChainReg) (hs : s.Iterating k) :
    execAll ((List.range k).map c.command) s = .next (forTiles k 0 c.body s) :=
  execAll_map_range (P := State.Iterating k)
    (fun _ _ ht hv => c.exec_command hv.configured (hv.tiles ▸ ht)) (keepsIterating_body c) hs

theorem execAll_wholeVectorOps (hs : s.Iterating k) : execAll (wholeVectorOps k) s = .next (stepBody s) := by
  have hs₁ := keepsIterating_macyBody.forTiles k hs
  have hs₃ := iterating_qgenBody ((keepsIterating_body .cy).forTiles k hs₁)
  have hs₄ := keepsIterating_macqBody.forTiles k hs₃
  have hs₅ := (keepsIterating_body .cq).forTiles k hs₄
  have hcpy := (execAll_append_of_next (execAll_macyPass hs)).trans (execAll_chainPass .cy hs₁)
  have hqgen := (execAll_append_of_next (js := [.qgen]) hcpy).trans (execAll_cons_of_next [] (exec_of_passes rfl rfl))
  have hmacq := (execAll_append_of_next hqgen).trans (execAll_macqPass hs₃)
  have hcpq := (execAll_append_of_next hmacq).trans (execAll_chainPass .cq hs₄)
  rw [stepBody_eq_passes hs]
  exact (execAll_append_of_next hcpq).trans (execAll_cons_of_next [] (exec_shift_of_configured hs₅.configured))

end Sys2Proof.Machine

namespace Sys2Proof.Proofs

open Sys2Proof Sys2Proof.Machine

/-- Settles O36: every check of a micro-operation passes, as the configuration is accepted and no tile writes ITER. -/
theorem stepIsItsMicroOperations : Obligations.StepIsItsMicroOperations := fun s ⟨⟨_, _, hway, _⟩, _⟩ hc hiter =>
  ⟨stepBody s, exec_step_of_configured hc hiter, execAll_stepOps ⟨hway, hc, rfl, hiter⟩⟩

/-- Settles O37: the walk over the tiles is the whole-vector passes, by `forTiles_stepTile`. -/
theorem stepIsTheWholeVectorIteration : Obligations.StepIsTheWholeVectorIteration := fun s ⟨⟨_, _, hway, _⟩, _⟩ hc hiter =>
  ⟨stepBody s, exec_step_of_configured hc hiter, execAll_wholeVectorOps ⟨hway, hc, rfl, hiter⟩⟩

/-- Settles O38: the bodies of the tiles and the shift keep the lane invariant, with OVF as it was. -/
theorem stepKeepsTheLanesBounded : Obligations.StepKeepsTheLanesBounded := by
  intro s u hs hc hiter hl hu
  obtain rfl := Host.Outcome.next.inj ((exec_step_of_configured hc hiter).symm.trans hu)
  have hinv := unwrapped_stepBody ⟨hs, hl, rfl⟩
  have hr : (stepBody s).radix = s.radix := eq_of_blanked State.radix (outsideIteration_stepBody s) fun _ => rfl
  obtain ⟨-, -, -, hcy, hcq, -⟩ := hinv.wf
  exact ⟨hinv.lanes, hinv.ovf, hr ▸ hcy, hr ▸ hcq⟩

end Sys2Proof.Proofs

/-! PROOFS. The value of a digit iteration (43_sequences R183, R191): each pass of STEP as one operation on the whole active vector, and
what it does to Vacc. -/

namespace Sys2Proof.Machine

variable {s u : State} {t g k : Nat} {limb : Nat → Nat} {digit : Nat}

/-! ## Values -/

theorem radix_pos (s : State) : 0 < s.radix := Nat.two_pow_pos _

theorem valueOf_eq_sum (w : Nat) (d : Nat → Nat) (k : Nat) : valueOf w d k = ∑ g ∈ Finset.Ico 0 k, d g * (2 ^ w) ^ g := by
  induction k with
  | zero => rfl
  | succ k ih => rw [valueOf_succ, ih, Finset.sum_Ico_succ_top k.zero_le, pow_mul]

/-- Digits 0 at the top add nothing. -/
theorem valueOf_of_zero_above {w n : Nat} {d : Nat → Nat} (h : k ≤ n) (hd : ∀ g, k ≤ g → d g = 0) :
    valueOf w d n = valueOf w d k := by
  induction n, h using Nat.le_induction with
  | base => rfl
  | succ n hn ih => rw [valueOf_succ, ih, hd n hn, Nat.zero_mul, Nat.add_zero]

/-- The padding lanes of a tile hold no limb, so an operand has one value on N and on L lanes. -/
theorem valueOf_limbOf_active (hway : 0 < s.params.way) (buf : Words) :
    valueOf s.params.w (limbOf s.limbs buf) s.active = valueOf s.params.w (limbOf s.limbs buf) s.limbs :=
  valueOf_of_zero_above (limbs_le_active hway) fun _ => limbOf_of_le buf

/-! ## The multiply-accumulate pass -/

/-- No lane of the active vector wraps in a multiply-accumulate. -/
def State.NoWrap (s : State) (limb : Nat → Nat) (digit : Nat) : Prop := ∀ g < s.active, macSum s limb digit g < 2 ^ s.params.lane

/-- The multiply-accumulate of the lanes below `stop` as one vector; that of a tile does the same to its lanes, by
`macTile_macVector`. -/
def macVector (limb : Nat → Nat) (digit stop : Nat) (s : State) : State :=
  (s.setAcc (writeRange 0 stop (fun g => macSum s limb digit g % 2 ^ s.params.lane) s.acc)).noteOvf
    ((List.range stop).any fun g => decide (2 ^ s.params.lane ≤ macSum s limb digit g))

theorem macVector_ovf (limb : Nat → Nat) (digit stop : Nat) (s : State) :
    (macVector limb digit stop s).ovf = true ↔ s.ovf = true ∨ ∃ g < stop, 2 ^ s.params.lane ≤ macSum s limb digit g := by
  simp [macVector]

theorem macVector_zero (limb : Nat → Nat) (digit : Nat) (s : State) : macVector limb digit 0 s = s := by
  refine eq_of_outsideIteration rfl (words_ext (by simp [macVector]) fun g => ?_) ?_ rfl rfl rfl rfl
  · exact wordAt_writeRange_of_not _ (by omega)
  · simp [macVector]

theorem macVector_lane_of_le {stop : Nat} (h : stop ≤ g) : (macVector limb digit stop s).lane g = s.lane g :=
  wordAt_writeRange_of_stop_le 0 _ h

theorem macVector_lane (h : s.active ≤ s.acc.length) (hg : g < s.active) :
    (macVector limb digit s.active s).lane g = macSum s limb digit g % 2 ^ s.params.lane :=
  (wordAt_writeRange_of_le _ h g).trans (if_pos ⟨g.zero_le, hg⟩)

/-- Once the lanes below a tile are accumulated, accumulating the tile accumulates the lanes below its end. -/
theorem macTile_macVector (hle : s.tileLo t ≤ s.tileEnd t) :
    macTile limb digit t (macVector limb digit (s.tileLo t) s) = macVector limb digit (s.tileEnd t) s := by
  have hlane : ∀ g, s.tileLo t ≤ g → macSum (macVector limb digit (s.tileLo t) s) limb digit g = macSum s limb digit g :=
    fun g hg => by rw [macSum, macSum, macVector_lane_of_le hg]
  refine eq_of_outsideIteration rfl (writeRange_adjacent hle fun g hg => ?_) (Bool.eq_iff_iff.mpr ?_) rfl rfl rfl rfl
  · rw [hlane g hg]
    rfl
  · rw [macTile_ovf_iff, macVector_ovf, macVector_ovf, or_assoc]
    refine or_congr_right ⟨?_, ?_⟩
    · rintro (⟨g, hg, hwrap⟩ | ⟨g, ⟨hlo, hg⟩, hwrap⟩)
      · exact ⟨g, hg.trans_le hle, hwrap⟩
      · exact ⟨g, hg, hlane g hlo ▸ hwrap⟩
    · rintro ⟨g, hg, hwrap⟩
      by_cases hlo : s.tileLo t ≤ g
      · exact .inr ⟨g, ⟨hlo, hg⟩, (hlane g hlo).symm ▸ hwrap⟩
      · exact .inl ⟨g, by omega, hwrap⟩

/-- A walk of multiply-accumulates over all tiles is one on the active vector. -/
theorem forTiles_mac {body : Nat → State → State} (hs : s.Iterating k)
    (hbody : ∀ t stop, body t (macVector limb digit stop s) = macTile limb digit t (macVector limb digit stop s)) :
    forTiles k 0 body s = macVector limb digit s.active s := by
  have hlt : ∀ {t}, t < k → s.tileLo t < s.tileEnd t := fun ht => tileLo_lt_tileEnd hs.way hs.configured (hs.tiles ▸ ht)
  have hwalk : ∀ t < k, forTiles (t + 1) 0 body s = macVector limb digit (s.tileEnd t) s := by
    intro t ht
    have hstart : forTiles t 0 body s = macVector limb digit (s.tileLo t) s := by
      induction t with
      | zero => rw [State.tileLo, Nat.zero_mul, macVector_zero, forTiles]
      | succ t ih =>
        rw [forTiles_succ_last, ih (by omega), Nat.zero_add, hbody, macTile_macVector (hlt (by omega)).le,
          tileEnd_eq_tileLo_succ hs.way hs.configured (hs.tiles ▸ ht)]
    rw [forTiles_succ_last, hstart, Nat.zero_add, hbody, macTile_macVector (hlt ht).le]
  have hpos : 0 < k := hs.tiles ▸ tiles_pos hs.way hs.configured
  have hlast := hwalk (k - 1) (by omega)
  rwa [Nat.sub_add_cancel hpos, ← hs.tiles, tileEnd_pred_tiles hs.way hs.configured, hs.tiles] at hlast

theorem vacc_macVector (hlen : s.active ≤ s.acc.length) (hwrap : s.NoWrap limb digit) :
    (macVector limb digit s.active s).vacc = s.vacc + valueOf s.params.w limb s.active * digit := by
  rw [State.vacc, State.vacc, ← valueOf_mul, ← valueOf_add]
  exact valueOf_congr fun g hg => (macVector_lane hlen hg).trans (Nat.mod_eq_of_lt (hwrap g hg))

/-! ## The propagation pass -/

/-- The chained pass over the whole active vector (41_carry_propagation R139). -/
def ChainReg.pass (c : ChainReg) (s : State) : State := c.write s (vectorAcc s s.active) (s.lane (s.active - 1) / s.radix)

theorem forTiles_body (c : ChainReg) (hway : 0 < s.params.way) (hc : s.Configured) :
    forTiles s.tiles 0 c.body s = c.pass s := by
  have hbodies : execAll ((List.range s.tiles).map c.command) s = .next (forTiles s.tiles 0 c.body s) :=
    execAll_map_range (P := fun v => v.Configured ∧ v.tiles = s.tiles)
      (fun t v ht ⟨hv, htiles⟩ => c.exec_command hv (htiles ▸ ht))
      (fun t v ⟨hv, htiles⟩ => ⟨c.write_configured _ _ |>.mpr hv, (c.write_tiles _ _).trans htiles⟩) ⟨hc, rfl⟩
  exact Host.Outcome.next.inj (hbodies.symm.trans (execAll_chainedPass c hway hc))

theorem outsideIteration_pass (c : ChainReg) (s : State) : (c.pass s).outsideIteration = s.outsideIteration := by cases c <;> rfl

theorem ChainReg.pass_ovf (c : ChainReg) : (c.pass s).ovf = s.ovf := by cases c <;> rfl

theorem ChainReg.pass_lane (c : ChainReg) (hlen : s.active ≤ s.acc.length) (g : Nat) :
    (c.pass s).lane g = if g < s.active then s.lane g % s.radix + s.overflowInto g else s.lane g := by
  rw [ChainReg.pass, ChainReg.write_lane, wordAt_vectorAcc hlen]

/-- A pass keeps the value, the ejected carry counted at the weight r^L (41_carry_propagation R132). -/
theorem ChainReg.vacc_pass (c : ChainReg) (hlen : s.active ≤ s.acc.length) (hpos : 0 < s.active) :
    (c.pass s).vacc + c.read (c.pass s) * s.radix ^ s.active = s.vacc := by
  have hsum := sum_propagate s.radix 0 s.lane hpos
  have hvacc : (c.pass s).vacc = valueOf s.params.w (wordAt (vectorAcc s s.active)) s.active := by cases c <;> rfl
  rw [hvacc, ChainReg.pass, ChainReg.read_write, State.vacc, valueOf_eq_sum, valueOf_eq_sum, ← State.radix]
  rw [Nat.zero_mul, Nat.add_zero] at hsum
  rw [← hsum]
  refine congrArg (· + _) (Finset.sum_congr rfl fun g hg => ?_)
  rw [wordAt_vectorAcc hlen, if_pos (Finset.mem_Ico.mp hg).2, State.overflowInto]

/-- After a pass lane 0 is the lowest digit of the value. -/
theorem ChainReg.pass_lane_zero (c : ChainReg) (hlen : s.active ≤ s.acc.length) (hpos : 0 < s.active) :
    (c.pass s).lane 0 = s.vacc % s.radix := by
  rw [c.pass_lane hlen, if_pos hpos, State.overflowInto, if_pos rfl, Nat.add_zero]
  exact (valueOf_modEq_digit_zero s.params.w s.lane hpos).symm

/-- A pass over lanes of LANE bits leaves them at most 2r − 2 (41_carry_propagation R131). -/
theorem ChainReg.pass_lane_add_two_le (c : ChainReg) (hm : Memory.wf s) (hg : g < s.active) (hlen : s.active ≤ s.acc.length) :
    (c.pass s).lane g + 2 ≤ 2 * s.radix := by
  have hr := radix_pos s
  have hlow : s.lane g % s.radix < s.radix := Nat.mod_lt _ hr
  have hup : s.overflowInto g < s.radix := by
    unfold State.overflowInto
    split
    · exact hr
    · have h := wordAt_lt hm.1 (g - 1)
      rw [Params.lane, Nat.two_mul, pow_add] at h
      exact Nat.div_lt_of_lt_mul h
  rw [c.pass_lane hlen, if_pos hg]
  omega

/-! ## One product added and propagated -/

/-- Half of a digit iteration: a product added to the active vector, and a propagation pass. -/
def addProduct (c : ChainReg) (limb : Nat → Nat) (digit : Nat) (s : State) : State := c.pass (macVector limb digit s.active s)

/-- The half iteration with X and a digit of Y. -/
def addX (s : State) : State := addProduct .cy s.limbX (s.limbY s.iter.toNat) s

/-- The half iteration with M and Q. -/
def addM (s : State) : State := addProduct .cq s.limbM s.q s

theorem passes_eq (hs : s.Iterating k) : passes k s = addM (qgenBody (addX s)) := by
  have hpass : ∀ (c : ChainReg) (v : State), v.Iterating k → forTiles k 0 c.body v = c.pass v := fun c v hv => by
    rw [← hv.tiles]
    exact forTiles_body c hv.way hv.configured
  have hmacy : ∀ v : State, v.Iterating k → forTiles k 0 macyBody v = macVector v.limbX (v.limbY v.iter.toNat) v.active v :=
    fun v hv => forTiles_mac hv fun _ _ => rfl
  have hmacq : ∀ v : State, v.Iterating k → forTiles k 0 macqBody v = macVector v.limbM v.q v.active v :=
    fun v hv => forTiles_mac hv fun _ _ => rfl
  have hs₁ := keepsIterating_macyBody.forTiles k hs
  have hs₃ := iterating_qgenBody ((keepsIterating_body .cy).forTiles k hs₁)
  have hs₄ := keepsIterating_macqBody.forTiles k hs₃
  rw [ChainReg.body_cy] at hs₃ hs₄
  rw [passes, ← ChainReg.body_cq, hpass .cq _ hs₄, hmacq _ hs₃, ← ChainReg.body_cy, hpass .cy _ hs₁, hmacy s hs]
  rfl

theorem outsideIteration_addProduct (c : ChainReg) : (addProduct c limb digit s).outsideIteration = s.outsideIteration :=
  outsideIteration_pass c (macVector limb digit s.active s)

theorem addProduct_ovf (c : ChainReg) : (addProduct c limb digit s).ovf = true ↔
    s.ovf = true ∨ ∃ g < s.active, 2 ^ s.params.lane ≤ macSum s limb digit g := by
  rw [addProduct, ChainReg.pass_ovf, macVector_ovf]

@[simp] theorem length_addProduct (c : ChainReg) : (addProduct c limb digit s).acc.length = s.acc.length := by
  simp [addProduct, ChainReg.pass, macVector]

theorem vacc_addProduct (c : ChainReg) (hlen : s.active ≤ s.acc.length) (hpos : 0 < s.active) (hwrap : s.NoWrap limb digit) :
    (addProduct c limb digit s).vacc + c.read (addProduct c limb digit s) * s.radix ^ s.active =
      s.vacc + valueOf s.params.w limb s.active * digit := by
  rw [← vacc_macVector hlen hwrap]
  exact c.vacc_pass (s := macVector limb digit s.active s) (by simpa [macVector] using hlen) hpos

theorem addProduct_lane_zero (c : ChainReg) (hlen : s.active ≤ s.acc.length) (hpos : 0 < s.active) (hwrap : s.NoWrap limb digit) :
    (addProduct c limb digit s).lane 0 = (s.vacc + valueOf s.params.w limb s.active * digit) % s.radix := by
  rw [← vacc_macVector hlen hwrap]
  exact c.pass_lane_zero (s := macVector limb digit s.active s) (by simpa [macVector] using hlen) hpos

/-! ## No wrap (43_sequences R190) -/

theorem noWrap_of_lanesBounded (hl : s.LanesBounded) (hlimb : ∀ g, limb g < s.radix) (hdigit : digit < s.radix) :
    s.NoWrap limb digit := fun g hg => by
  rw [Params.lane, Nat.two_mul, pow_add]
  exact add_mul_lt_sq (hl g hg) (hlimb g) hdigit

theorem noWrap_macy_of_lanesBounded (hs : s.Wf) (hl : s.LanesBounded) : s.NoWrap s.limbX (s.limbY s.iter.toNat) := by
  obtain ⟨-, -, -, -, -, -, hx, hy, -⟩ := hs
  exact noWrap_of_lanesBounded hl (fun g => limbOf_lt hx g) (limbOf_lt hy _)

theorem memory_wf_macVector (h : Memory.wf s) (limb : Nat → Nat) (digit stop : Nat) : Memory.wf (macVector limb digit stop s) :=
  memory_wf_of_acc h rfl (wf_writeRange h.1 fun _ _ _ => Nat.mod_lt _ (Nat.two_pow_pos _)) rfl rfl rfl rfl

/-- Whatever the lanes before, half a digit iteration leaves them at most 2r − 2. -/
theorem lanesBounded_addX (hm : Memory.wf s) (hlen : s.active ≤ s.acc.length) : (addX s).LanesBounded := fun _ hg =>
  ChainReg.cy.pass_lane_add_two_le (memory_wf_macVector hm _ _ _) hg (by simpa [macVector] using hlen)

theorem outsideIteration_addX (s : State) : (addX s).outsideIteration = s.outsideIteration := outsideIteration_addProduct .cy

theorem noWrap_macq_of_lanesBounded (hl : s.LanesBounded) (hmbuf : Words.wf s.params.nMax s.params.w s.mbuf) :
    (qgenBody s).NoWrap s.limbM (qgenBody s).q :=
  noWrap_of_lanesBounded (s := qgenBody s) hl (fun g => limbOf_lt hmbuf g) (Nat.mod_lt _ (Nat.two_pow_pos _))

/-- After CPY the lanes are bounded, so MACQ does not wrap. -/
theorem noWrap_addM (hs : s.Wf) (hlen : s.active ≤ s.acc.length) :
    (qgenBody (addX s)).NoWrap (addX s).limbM (qgenBody (addX s)).q := by
  obtain ⟨-, -, -, -, -, hm⟩ := hs
  have ⟨_, _, _, hmbuf, _⟩ := hm
  exact noWrap_macq_of_lanesBounded (lanesBounded_addX hm hlen) hmbuf

/-- Unless MACY wraps, or OVF was set before, a digit iteration leaves OVF as it was: MACQ never wraps after CPY. -/
theorem noWrap_addX_of_ovf (hs : s.Iterating k) (hovf : (stepBody s).ovf = false) : s.NoWrap s.limbX (s.limbY s.iter.toNat) := by
  intro g hg
  by_contra hwrap
  have hX : (addX s).ovf = true := (addProduct_ovf .cy).mpr (.inr ⟨g, hg, Nat.not_lt.mp hwrap⟩)
  have hM : ∀ v : State, v.ovf = true → (addM (qgenBody v)).ovf = true := fun v hv => (addProduct_ovf .cq).mpr (.inl hv)
  rw [stepBody_eq_passes hs, passes_eq hs, shiftBody, State.setIter_ovf, State.setAcc_ovf, hM _ hX] at hovf
  contradiction

/-! ## The recurrence (43_sequences R183) -/

/-- The quotient digit of an iteration that begins with the value `v` and multiplies X by the digit `y`. -/
def State.quotient (s : State) (v y : Nat) : Nat := (v + s.xval * y) % s.radix * s.minv % s.radix

/-- The value after that iteration: r divides exactly when MINV is the constant of the modulus, and SHIFT drops the remainder when
it is not. -/
def State.nextValue (s : State) (v y : Nat) : Nat := (v + s.xval * y + s.quotient v y * s.mval) / s.radix

theorem nextValue_mul_radix (h : s.MinvCorrect) (v y : Nat) :
    s.nextValue v y * s.radix = v + s.xval * y + s.quotient v y * s.mval := by
  have hzero := add_mul_quotientDigit_modEq_zero ((v + s.xval * y) % s.radix) (Nat.ModEq.refl s.mval)
    (Eq.trans h (Nat.zero_mod _).symm)
  refine Nat.div_mul_cancel (Nat.dvd_of_mod_eq_zero ?_)
  calc (v + s.xval * y + s.quotient v y * s.mval) % s.radix
    _ = ((v + s.xval * y) % s.radix + s.mval * s.quotient v y) % s.radix := by rw [Nat.mod_add_mod, Nat.mul_comm s.mval]
    _ = 0 := Eq.trans hzero (Nat.zero_mod _)

theorem length_addX : (addX s).acc.length = s.acc.length := length_addProduct .cy

theorem length_addM : (addM s).acc.length = s.acc.length := length_addProduct .cq

theorem vacc_addX (hway : 0 < s.params.way) (hc : s.Configured) (hlen : s.active ≤ s.acc.length)
    (hwrap : s.NoWrap s.limbX (s.limbY s.iter.toNat)) :
    (addX s).vacc + (addX s).cy * s.radix ^ s.active = s.vacc + s.xval * s.limbY s.iter.toNat := by
  have hX : valueOf s.params.w s.limbX s.active = s.xval := valueOf_limbOf_active hway _
  rw [← hX]
  exact vacc_addProduct .cy hlen (active_pos hway hc) hwrap

theorem addX_lane_zero (hway : 0 < s.params.way) (hc : s.Configured) (hlen : s.active ≤ s.acc.length)
    (hwrap : s.NoWrap s.limbX (s.limbY s.iter.toNat)) :
    (addX s).lane 0 = (s.vacc + s.xval * s.limbY s.iter.toNat) % s.radix := by
  have hX : valueOf s.params.w s.limbX s.active = s.xval := valueOf_limbOf_active hway _
  rw [← hX]
  exact addProduct_lane_zero .cy hlen (active_pos hway hc) hwrap

theorem vacc_addM (hway : 0 < s.params.way) (hc : s.Configured) (hlen : s.active ≤ s.acc.length) (hwrap : s.NoWrap s.limbM s.q) :
    (addM s).vacc + (addM s).cq * s.radix ^ s.active = s.vacc + s.mval * s.q := by
  have hM : valueOf s.params.w s.limbM s.active = s.mval := valueOf_limbOf_active hway _
  rw [← hM]
  exact vacc_addProduct .cq hlen (active_pos hway hc) hwrap

theorem addM_lane_zero_lt (hway : 0 < s.params.way) (hc : s.Configured) (hlen : s.active ≤ s.acc.length)
    (hwrap : s.NoWrap s.limbM s.q) : (addM s).lane 0 < s.radix :=
  (addProduct_lane_zero .cq hlen (active_pos hway hc) hwrap).trans_lt (Nat.mod_lt _ (radix_pos s))

/-- A propagation and a shift after it: the carry that the pass ejects comes back with the shift, so a digit iteration loses lane 0
only. -/
theorem vacc_shiftBody_addM (hway : 0 < s.params.way) (hc : s.Configured) (hlen : s.active ≤ s.acc.length)
    (hwrap : s.NoWrap s.limbM s.q) :
    (shiftBody (addM s)).vacc = (s.vacc + s.cy * s.radix ^ s.active + s.mval * s.q) / s.radix := by
  have hr := radix_pos s
  have hvacc := vacc_addM hway hc hlen hwrap
  have hlane := addM_lane_zero_lt hway hc hlen hwrap
  have hframe : (addM s).outsideIteration = s.outsideIteration := outsideIteration_addProduct .cq
  have hradix : (addM s).radix = s.radix := eq_of_blanked State.radix hframe fun _ => rfl
  have hactive : (addM s).active = s.active := active_of_outsideIteration hframe
  have hcy : (addM s).cy = s.cy := rfl
  have hshift := vacc_shiftBody (s := addM s) (by rwa [hactive, length_addM]) (hactive.symm ▸ active_pos hway hc)
  rw [hradix, hactive, hcy] at hshift
  have htotal : s.vacc + s.cy * s.radix ^ s.active + s.mval * s.q = (addM s).lane 0 + (shiftBody (addM s)).vacc * s.radix := by
    rw [Nat.add_mul] at hshift
    omega
  rw [htotal, Nat.add_mul_div_right _ _ hr, Nat.div_eq_of_lt hlane, Nat.zero_add]

theorem vacc_shiftBody_addM_qgenBody (hway : 0 < s.params.way) (hc : s.Configured) (hlen : s.active ≤ s.acc.length)
    (hwrap : (qgenBody s).NoWrap s.limbM (qgenBody s).q) :
    (shiftBody (addM (qgenBody s))).vacc = (s.vacc + s.cy * s.radix ^ s.active + s.mval * (qgenBody s).q) / s.radix :=
  vacc_shiftBody_addM (s := qgenBody s) hway hc hlen hwrap

/-- The quotient digit and the value after a digit iteration in which MACY does not wrap. -/
theorem stepBody_recurrence (hs : s.Wf) (hi : s.Iterating k) (hwrap : s.NoWrap s.limbX (s.limbY s.iter.toNat)) :
    (stepBody s).q = s.quotient s.vacc (s.limbY s.iter.toNat) ∧
      (stepBody s).vacc = s.nextValue s.vacc (s.limbY s.iter.toNat) := by
  have ⟨hp, _, _, _, _, ⟨hacc, _⟩, _⟩ := hs
  have hlen : s.active ≤ s.acc.length := hacc ▸ active_le_nMax hp hi.configured
  have hq : (qgenBody (addX s)).q = s.quotient s.vacc (s.limbY s.iter.toNat) := by
    rw [State.quotient, ← addX_lane_zero hi.way hi.configured hlen hwrap]
    rfl
  have hX := vacc_addX hi.way hi.configured hlen hwrap
  have hframe := outsideIteration_addX s
  have hmval : (addX s).mval = s.mval := eq_of_blanked State.mval hframe fun _ => rfl
  have hradix : (addX s).radix = s.radix := eq_of_blanked State.radix hframe fun _ => rfl
  have hactive : (addX s).active = s.active := active_of_outsideIteration hframe
  have hM := vacc_shiftBody_addM_qgenBody (s := addX s) hi.way hi.configured (length_addX.symm ▸ hlen) (noWrap_addM hs hlen)
  rw [hmval, hradix, hactive, hX, hq, Nat.mul_comm s.mval] at hM
  rw [stepBody_eq_passes hi, passes_eq hi]
  exact ⟨hq, hM⟩

/-! ## Lane 0 before the shift (43_sequences R191) -/

theorem cpropLane_zero (s : State) (cin : Nat) : cpropLane s 0 cin 0 = s.lane 0 % s.radix := by
  have hzero : s.tileLo 0 = 0 := Nat.zero_mul _
  rw [cpropLane, if_pos hzero.symm, carryIn_zero, Nat.add_zero, State.radix]

theorem cpqBody_zero_lane_zero (hlen : s.tileEnd 0 ≤ s.acc.length) (hin : s.inTile 0 0) :
    (cpqBody 0 s).lane 0 = s.lane 0 % s.radix := by
  rw [← cpropLane_zero s s.cq]
  exact (wordAt_cpropAcc hlen 0).trans (if_pos hin)

/-- After MACQ 0 and CPQ 0, lane 0 is the lowest digit of its column: no carry enters tile 0. -/
theorem cpqBody_macqBody_lane_zero (hlen : s.tileEnd 0 ≤ s.acc.length) (hin : s.inTile 0 0) :
    (cpqBody 0 (macqBody 0 s)).lane 0 = (s.lane 0 + s.limbM 0 * s.q) % s.radix := by
  have hdvd : s.radix ∣ 2 ^ s.params.lane := pow_dvd_pow 2 (by rw [Params.lane]; omega)
  have hmac : (macqBody 0 s).lane 0 = (s.lane 0 + s.limbM 0 * s.q) % 2 ^ s.params.lane :=
    (macTile_lane hlen 0).trans (if_pos hin)
  rw [← Nat.mod_mod_of_dvd _ hdvd, ← hmac]
  exact cpqBody_zero_lane_zero (s := macqBody 0 s) (hlen.trans (macTile_length _ _ _).ge) hin

end Sys2Proof.Machine

namespace Sys2Proof.Proofs

open Sys2Proof Sys2Proof.Machine

/-- Settles O40: from bounded lanes MACY does not wrap, and after CPY the lanes are bounded, so MACQ does not. -/
theorem stepValueRecurrence : Obligations.StepValueRecurrence := by
  intro s u hs hc hiter hu hwrap
  obtain rfl := Host.Outcome.next.inj ((exec_step_of_configured hc hiter).symm.trans hu)
  have ⟨⟨_, _, hway, _, _⟩, _⟩ := hs
  have hi : s.Iterating s.tiles := ⟨hway, hc, rfl, hiter⟩
  have hnowrap : s.NoWrap s.limbX (s.limbY s.iter.toNat) := hwrap.elim
    (noWrap_macy_of_lanesBounded hs) fun ⟨_, hovf⟩ => noWrap_addX_of_ovf hi hovf
  obtain ⟨hq, hv⟩ := stepBody_recurrence hs hi hnowrap
  refine ⟨hq, fun hminv => ?_⟩
  rw [hv, hq]
  exact nextValue_mul_radix hminv _ _

/-- QGEN's digit makes the lowest column a multiple of r, and CPQ 0 leaves its lowest digit in lane 0. -/
theorem lane_zero_of_quotient {s : State} (hready : s.ModulusReady) (hlen : s.tileEnd 0 ≤ s.acc.length) (hin : s.inTile 0 0) :
    (cpqBody 0 (macqBody 0 (qgenBody s))).lane 0 = 0 :=
  (cpqBody_macqBody_lane_zero (s := qgenBody s) hlen hin).trans
    (quotientDigitClearsLaneZero s _ hready (exec_of_passes rfl rfl))

/-- Settles O41: MACY 0 and CPY 0 leave the modulus and MINV alone, and QGEN, MACQ 0 and CPQ 0 then clear lane 0. -/
theorem laneZeroIsZeroBeforeTheShift : Obligations.LaneZeroIsZeroBeforeTheShift := by
  intro s ⟨hp, _, _, _, _, hm⟩ hc hiter hready
  have ⟨_, _, hway, _, _⟩ := hp
  have htiles : 0 < s.tiles := tiles_pos hway hc
  have hin : s.inTile 0 0 := ⟨(Nat.zero_mul _).le, (Nat.zero_mul _).symm.trans_lt (tileLo_lt_tileEnd hway hc htiles)⟩
  have hframe : (cpyBody 0 (macyBody 0 s)).outsideIteration = s.outsideIteration := by simp
  have hready' : (cpyBody 0 (macyBody 0 s)).ModulusReady = s.ModulusReady := eq_of_blanked State.ModulusReady hframe fun _ => rfl
  have hin' : (cpyBody 0 (macyBody 0 s)).inTile 0 0 = s.inTile 0 0 :=
    eq_of_blanked (fun v : State => v.inTile 0 0) hframe fun _ => rfl
  have hlen : s.tileEnd 0 ≤ (cpyBody 0 (macyBody 0 s)).acc.length := by
    rw [cpyBody, State.setCy_acc, State.setAcc_acc, length_cpropAcc, macyBody, macTile_length]
    exact tileEnd_le_length hm hp hc 0
  have htileEnd : (cpyBody 0 (macyBody 0 s)).tileEnd 0 = s.tileEnd 0 :=
    eq_of_blanked (fun v : State => v.tileEnd 0) hframe fun _ => rfl
  refine ⟨_, execAll_tileOps ⟨hway, hc, rfl, hiter⟩ htiles, ?_⟩
  rw [stepTile, qgenOfTile, if_pos rfl]
  exact lane_zero_of_quotient (hready'.mpr hready) (htileEnd.trans_le hlen) (hin'.mpr hin)

end Sys2Proof.Proofs

/-! PROOFS. Final normalization (43_sequences R184, R185): FINAL reads its value alone, so it is idempotent below r^L; and iterating the
chained pass reaches the same lanes. -/

namespace Sys2Proof.Machine

variable {s u : State} {g k total : Nat}

/-! ## Digits -/

/-- The digits of a value of digits below r are those digits. -/
theorem valueOf_digit {w : Nat} {d : Nat → Nat} (hd : ∀ g < k, d g < 2 ^ w) (hg : g < k) :
    valueOf w d k / (2 ^ w) ^ g % 2 ^ w = d g := by
  induction g generalizing d k with
  | zero =>
    rw [pow_zero, Nat.div_one]
    exact Eq.trans (valueOf_modEq_digit_zero w d hg) (Nat.mod_eq_of_lt (hd 0 hg))
  | succ g ih =>
    obtain ⟨k, rfl⟩ := Nat.exists_eq_succ_of_ne_zero (Nat.ne_of_gt (Nat.zero_lt_of_lt hg))
    have hrest : valueOf w d (k + 1) / 2 ^ w = valueOf w (fun g => d (g + 1)) k := by
      rw [valueOf_succ_bottom, Nat.add_mul_div_left _ _ (Nat.two_pow_pos w), Nat.div_eq_of_lt (hd 0 (by omega)), Nat.zero_add]
    rw [pow_succ', ← Nat.div_div_eq_div_mul, hrest]
    exact ih (fun g hg => hd (g + 1) (by omega)) (by omega)

/-- The digits of `v` below place `k` are those of `v` modulo r^k. -/
theorem digit_mod_pow (r v : Nat) (hg : g < k) : v % r ^ k / r ^ g % r = v / r ^ g % r := by
  obtain ⟨j, rfl⟩ := Nat.exists_eq_add_of_lt hg
  rw [Nat.add_assoc, pow_add, Nat.mod_mul_right_div_self, Nat.mod_mod_of_dvd _ (Dvd.intro_left _ (pow_succ r j).symm)]

/-- Active lanes below r are the digits of the value they hold, which is below r^L. -/
theorem vacc_lt_of_canonical (h : ∀ g < s.active, s.lane g < s.radix) : s.vacc < s.radix ^ s.active := by
  rw [radix_pow, Nat.mul_comm]
  exact valueOf_lt h

theorem lane_eq_digit_of_canonical (h : ∀ g < s.active, s.lane g < s.radix) (hg : g < s.active) :
    s.lane g = s.vacc / s.radix ^ g % s.radix :=
  (valueOf_digit h hg).symm

/-! ## FINAL of FINAL (43_sequences R184) -/

theorem writeRange_idem (lo stop : Nat) (f : Nat → Nat) (ws : Words) :
    writeRange lo stop f (writeRange lo stop f ws) = writeRange lo stop f ws := by
  refine words_ext (by simp) fun g => ?_
  simp only [wordAt_writeRange, length_writeRange]
  split <;> rfl

theorem lane_finalBody (hlen : s.active ≤ s.acc.length) (hg : g < s.active) :
    (finalBody s).lane g = digitOf s.params.w s.vacc g :=
  (wordAt_writeRange_of_le _ hlen g).trans (if_pos ⟨g.zero_le, hg⟩)

/-- The lanes of FINAL hold its value modulo r^L. -/
theorem vacc_finalBody (hlen : s.active ≤ s.acc.length) : (finalBody s).vacc = s.vacc % s.radix ^ s.active := by
  rw [radix_pow, Nat.mul_comm, ← valueOf_digitOf]
  exact valueOf_congr fun g hg => lane_finalBody hlen hg

/-- FINAL on lanes it has written itself changes nothing when the value is the same. -/
theorem finalBody_finalBody (hv : (finalBody s).vacc = s.vacc) : finalBody (finalBody s) = finalBody s := by
  have hacc : canonicalAcc (finalBody s) s.vacc = (finalBody s).acc := writeRange_idem _ _ _ _
  have hzbuf : resultZbuf (finalBody s) s.vacc = (finalBody s).zbuf := writeRange_idem _ _ _ _
  rw [finalBody_eq (finalBody s), hv, hacc, hzbuf]
  rfl

/-- A block of one lane of two bits that holds the value 2 = r^L. -/
def atCapacity : State := { State.resetWith ⟨1, 1, 1⟩ (fun _ => 0) with n := 1, acc := [2] }

/-! ## Iterated passes (43_sequences R185) -/

theorem carryPasses_succ (hway : 0 < s.params.way) (hc : s.Configured) (k total : Nat) :
    carryPasses (k + 1) s total = carryPasses k (ChainReg.cy.pass s) (total + (ChainReg.cy.pass s).cy) := by
  rw [carryPasses, ← ChainReg.body_cy, forTiles_body .cy hway hc]

/-- What one pass keeps of a state whose active lanes lie inside the accumulator, any number of passes keeps. -/
theorem carryPasses_induction {P : State → Nat → Prop}
    (hpass : ∀ s total, 0 < s.params.way → s.Configured → s.active ≤ s.acc.length → P s total →
      P (ChainReg.cy.pass s) (total + (ChainReg.cy.pass s).cy))
    (hway : 0 < s.params.way) (hc : s.Configured) (hlen : s.active ≤ s.acc.length) (hs : P s total) (k : Nat) :
    P (carryPasses k s total).1 (carryPasses k s total).2 := by
  induction k generalizing s total with
  | zero => exact hs
  | succ k ih =>
    rw [carryPasses_succ hway hc]
    exact ih hway hc (hlen.trans (length_vectorAcc _).ge) (hpass s total hway hc hlen hs)

theorem carryPasses_frame (hway : 0 < s.params.way) (hc : s.Configured) (hlen : s.active ≤ s.acc.length) (k total : Nat) :
    (carryPasses k s total).1.outsideIteration = s.outsideIteration ∧ (carryPasses k s total).1.acc.length = s.acc.length ∧
      ∀ g, s.active ≤ g → (carryPasses k s total).1.lane g = s.lane g := by
  refine carryPasses_induction (P := fun v _ => v.outsideIteration = s.outsideIteration ∧ v.acc.length = s.acc.length ∧
    ∀ g, s.active ≤ g → v.lane g = s.lane g) (fun v _ _ _ hvlen ⟨hframe, hacc, hlane⟩ => ⟨?_, ?_, fun g hg => ?_⟩) hway hc hlen
    ⟨rfl, rfl, fun _ _ => rfl⟩ k
  · exact (outsideIteration_pass .cy v).trans hframe
  · exact (length_vectorAcc _).trans hacc
  · have hactive : v.active = s.active := active_of_outsideIteration hframe
    rw [ChainReg.cy.pass_lane hvlen, if_neg (by omega), hlane g hg]

/-- The passes keep the value, the ejected carries counted at the weight r^L. -/
theorem carryPasses_value (hway : 0 < s.params.way) (hc : s.Configured) (hlen : s.active ≤ s.acc.length) (k : Nat) :
    (carryPasses k s 0).1.vacc + (carryPasses k s 0).2 * s.radix ^ s.active = s.vacc := by
  suffices h : _ ∧ (carryPasses k s 0).1.outsideIteration = s.outsideIteration from h.1
  refine carryPasses_induction (P := fun v n => v.vacc + n * s.radix ^ s.active = s.vacc ∧
    v.outsideIteration = s.outsideIteration) (fun v n hvway hvc hvlen ⟨hv, hframe⟩ => ⟨?_, ?_⟩) hway hc hlen ⟨by simp, rfl⟩ k
  · have hactive : v.active = s.active := active_of_outsideIteration hframe
    have hradix : v.radix = s.radix := eq_of_blanked State.radix hframe fun _ => rfl
    have hpass : _ + (ChainReg.cy.pass v).cy * v.radix ^ v.active = v.vacc :=
      ChainReg.cy.vacc_pass hvlen (active_pos hvway hvc)
    rw [hradix, hactive] at hpass
    rw [← hv, ← hpass]
    ring
  · exact (outsideIteration_pass .cy v).trans hframe

/-- Each pass makes one more lane canonical, from the lowest up: where the lane below is below r, none of its overflow enters. -/
theorem pass_lane_lt {j : Nat} (hlen : s.active ≤ s.acc.length) (hlow : ∀ g < j, g < s.active → s.lane g < s.radix)
    (hg : g < j + 1) (hga : g < s.active) : (ChainReg.cy.pass s).lane g < s.radix := by
  have hover : s.overflowInto g = 0 := by
    unfold State.overflowInto
    split
    · rfl
    · exact Nat.div_eq_of_lt (hlow (g - 1) (by omega) (by omega))
  rw [ChainReg.cy.pass_lane hlen, if_pos hga, hover, Nat.add_zero]
  exact Nat.mod_lt _ (Nat.two_pow_pos _)

theorem carryPasses_lane_lt {j : Nat} (hway : 0 < s.params.way) (hc : s.Configured) (hlen : s.active ≤ s.acc.length)
    (hlow : ∀ g < j, g < s.active → s.lane g < s.radix) (k total : Nat) :
    ∀ g < j + k, g < s.active → (carryPasses k s total).1.lane g < s.radix := by
  induction k generalizing s j total with
  | zero => exact hlow
  | succ k ih =>
    rw [carryPasses_succ hway hc, Nat.add_comm k, ← Nat.add_assoc]
    exact ih (s := ChainReg.cy.pass s) hway hc (hlen.trans (length_vectorAcc _).ge)
      (fun g hg hga => pass_lane_lt hlen hlow hg hga) _

end Sys2Proof.Machine

namespace Sys2Proof.Proofs

open Sys2Proof Sys2Proof.Machine

/-- Settles O43: below r^L the canonical lanes hold the whole value; the block `atCapacity` loses its value with the first FINAL. -/
theorem secondFinalChangesNothingBelowCapacity : Obligations.SecondFinalChangesNothingBelowCapacity := by
  refine ⟨fun s ⟨hp, _, _, _, _, ⟨hacc, _⟩, _⟩ hc hv => ?_, ?_⟩
  · have hsame : (finalBody s).vacc = s.vacc :=
      (vacc_finalBody (hacc ▸ active_le_nMax hp hc)).trans (Nat.mod_eq_of_lt hv)
    refine ⟨finalBody s, exec_final_of_configured hc, ?_⟩
    rw [exec_final_of_configured (s := finalBody s) hc, finalBody_finalBody hsame]
  · exact ⟨atCapacity, finalBody atCapacity, finalBody (finalBody atCapacity), by decide, by decide, rfl, rfl, by decide, by decide⟩

/-- Settles O44: after L passes every lane is below r, so the lanes are the digits of the value they hold. -/
theorem iteratedPassesReachFinal : Obligations.IteratedPassesReachFinal := by
  intro s k ⟨hp, _, _, _, _, ⟨hacc, _⟩, _⟩ hc hk
  have ⟨_, _, hway, _, _⟩ := hp
  have hlen : s.active ≤ s.acc.length := hacc ▸ active_le_nMax hp hc
  obtain ⟨hframe, hlength, habove⟩ := carryPasses_frame hway hc hlen k 0
  have hvalue := carryPasses_value hway hc hlen k
  have hlow := carryPasses_lane_lt (j := 0) hway hc hlen (fun _ h => absurd h (Nat.not_lt_zero _)) k 0
  generalize (carryPasses k s 0).1 = v at *
  generalize (carryPasses k s 0).2 = ejected at *
  have hactive : v.active = s.active := active_of_outsideIteration hframe
  have hradix : v.radix = s.radix := eq_of_blanked State.radix hframe fun _ => rfl
  have hcanon : ∀ g < v.active, v.lane g < v.radix := fun g hg => hradix ▸ hlow g (by omega) (hactive ▸ hg)
  have hlt : v.vacc < s.radix ^ s.active := hradix ▸ hactive ▸ vacc_lt_of_canonical hcanon
  have hmod : s.vacc % s.radix ^ s.active = v.vacc := by rw [← hvalue, Nat.add_mul_mod_self_right, Nat.mod_eq_of_lt hlt]
  have hlane : ∀ g < s.active, v.lane g = s.vacc / s.radix ^ g % s.radix := fun g hg => by
    rw [← digit_mod_pow s.radix s.vacc hg, hmod, lane_eq_digit_of_canonical hcanon (hactive ▸ hg), hradix]
  refine ⟨hlane, ?ejected, finalBody s, exec_final_of_configured hc, ?lanes⟩
  case ejected =>
    rw [← hvalue, Nat.add_mul_div_right _ _ (pow_pos (radix_pos s) _), Nat.div_eq_of_lt hlt, Nat.zero_add]
  case lanes =>
    refine words_ext ((length_writeRange _ _ _).trans hlength.symm) fun g => (wordAt_canonicalAcc hlen s.vacc g).trans ?_
    split
    · next hg => exact (hlane g hg).symm
    · next hg => exact (habove g (by omega)).symm

end Sys2Proof.Proofs

/-! PROOFS. RUN (43_sequences R186, R187, R192 to R195, R197, R200): CLEAR and N digit iterations reach a value that the operands alone
determine, and FINAL publishes it. -/

namespace Sys2Proof.Machine

variable {s u : State} {i : Nat}

/-! ## RUN as its commands (43_sequences R187) -/

/-- The state after CLEAR and `i` digit iterations. -/
def afterSteps (i : Nat) (s : State) : State := repeatBody i stepBody (clearBody s)

theorem afterSteps_succ (i : Nat) (s : State) : afterSteps (i + 1) s = stepBody (afterSteps i s) :=
  repeatBody_succ_last i stepBody (clearBody s)

theorem runBody_eq (s : State) : runBody s = finalBody (afterSteps s.limbs s) := rfl

/-- The iterations of RUN write nothing but what a digit iteration writes. -/
theorem afterSteps_frame {α : Type} (f : State → α) (hf : ∀ v : State, f v.outsideIteration = f v) (i : Nat) (s : State) :
    f (afterSteps i s) = f (clearBody s) :=
  eq_of_blanked f (outsideIteration_repeatBody_stepBody i (clearBody s)) hf

theorem afterSteps_limbs (i : Nat) (s : State) : (afterSteps i s).limbs = s.limbs := afterSteps_frame State.limbs (fun _ => rfl) i s

theorem afterSteps_active (i : Nat) (s : State) : (afterSteps i s).active = s.active :=
  afterSteps_frame State.active (fun _ => rfl) i s

theorem afterSteps_configured (hc : s.Configured) (i : Nat) : (afterSteps i s).Configured :=
  (afterSteps_frame State.Configured (fun _ => rfl) i s).mpr hc

theorem unwrapped_afterSteps (hs : s.Wf) (i : Nat) : (afterSteps i s).Unwrapped false :=
  repeatBody_keeps (P := State.Unwrapped false) (fun _ => unwrapped_stepBody) i _ (unwrapped_clearBody hs)

theorem stepTile_iter (t : Nat) (s : State) : (stepTile t s).iter = s.iter := by
  have hmacq : ∀ v : State, (cpqBody t (macqBody t v)).iter = v.iter := fun _ => rfl
  have hmacy : (cpyBody t (macyBody t s)).iter = s.iter := rfl
  rw [stepTile, hmacq]
  exact qgenOfTile_keeps (P := fun v => v.iter = s.iter) t hmacy hmacy

theorem shiftBody_iter (s : State) : (shiftBody s).iter = nextIter s.iter := rfl

/-- A digit iteration counts itself in ITER. -/
theorem stepBody_iter (s : State) : (stepBody s).iter = nextIter s.iter := by
  have htiles : (forTiles s.tiles 0 stepTile s).iter = s.iter :=
    forTiles_keeps (P := fun v => v.iter = s.iter) s.tiles 0 s (fun t v _ _ hv => (stepTile_iter t v).trans hv) rfl
  rw [stepBody, shiftBody_iter, htiles]

theorem limbs_lt (s : State) : s.limbs < 65536 := s.n.isLt

/-- ITER counts the iterations of RUN, which are too few for it to stop at 0xFFFF. -/
theorem afterSteps_iter (hi : i ≤ s.limbs) : (afterSteps i s).iter.toNat = i := by
  induction i with
  | zero => rfl
  | succ i ih =>
    have hN := limbs_lt s
    rw [afterSteps_succ, stepBody_iter, nextIter_toNat, ih (by omega)]
    omega

theorem afterSteps_iterating (hs : s.Wf) (hc : s.Configured) (hi : i < s.limbs) :
    (afterSteps i s).Iterating (afterSteps i s).tiles where
  way := by
    obtain ⟨⟨-, -, hway, -⟩, -⟩ := (unwrapped_afterSteps hs i).wf
    exact hway
  configured := afterSteps_configured hc i
  tiles := rfl
  iter := by rwa [afterSteps_iter hi.le, afterSteps_limbs]

theorem execAll_replicate_step (hs : s.Wf) (hc : s.Configured) (hi : i ≤ s.limbs) :
    execAll (List.replicate i .step) (clearBody s) = .next (afterSteps i s) := by
  induction i with
  | zero => rfl
  | succ i ih =>
    have hready := afterSteps_iterating hs hc hi
    rw [List.replicate_succ', execAll_append_of_next (ih (by omega)), afterSteps_succ]
    exact execAll_cons_of_next [] (exec_step_of_configured hready.configured hready.iter)

theorem execAll_runOps (hs : s.Wf) (hc : s.Configured) : execAll (runOps s.limbs) s = .next (runBody s) := by
  have hclear : execAll [.clear] s = .next (clearBody s) := execAll_cons_of_next [] (exec_of_passes rfl rfl)
  have hsteps := (execAll_append_of_next hclear).trans (execAll_replicate_step hs hc le_rfl)
  rw [runOps, execAll_append_of_next hsteps]
  exact execAll_cons_of_next [] (exec_final_of_configured (afterSteps_configured hc _))

theorem exec_run_of_configured (hc : s.Configured) : exec .run s = .next (runBody s) :=
  exec_of_passes rfl <| by simp [commandChecks, checkConfig_eq_none.mpr hc]

/-! ## The value that RUN computes -/

/-- The value of the accumulator after `i` digit iterations from 0. -/
def State.redcValue (s : State) : Nat → Nat
  | 0 => 0
  | i + 1 => s.nextValue (s.redcValue i) (s.limbY i)

theorem redcValue_congr (hnext : u.nextValue = s.nextValue) (hy : u.limbY = s.limbY) (i : Nat) : u.redcValue i = s.redcValue i := by
  induction i with
  | zero => rfl
  | succ i ih => rw [State.redcValue, State.redcValue, ih, hnext, hy]

theorem vacc_clearBody (s : State) : (clearBody s).vacc = 0 :=
  valueOf_of_zero_above (Nat.zero_le _) fun g _ => wordAt_replicate _ g

theorem vacc_afterSteps (hs : s.Wf) (hc : s.Configured) (hi : i ≤ s.limbs) : (afterSteps i s).vacc = s.redcValue i := by
  induction i with
  | zero => exact vacc_clearBody s
  | succ i ih =>
    have hinv := unwrapped_afterSteps hs i
    have hwrap := noWrap_macy_of_lanesBounded hinv.wf hinv.lanes
    have hnext : (afterSteps i s).nextValue = s.nextValue := afterSteps_frame State.nextValue (fun _ => rfl) i s
    have hlimbY : (afterSteps i s).limbY = s.limbY := afterSteps_frame State.limbY (fun _ => rfl) i s
    obtain ⟨-, hv⟩ := stepBody_recurrence hinv.wf (afterSteps_iterating hs hc hi) hwrap
    rw [afterSteps_succ, hv, ih (by omega), hnext, hlimbY, afterSteps_iter (by omega), State.redcValue]

theorem outsideEngine_runBody (s : State) : (runBody s).outsideEngine = s.outsideEngine := outsideEngine_commandBody .run s

theorem runBody_limbs (s : State) : (runBody s).limbs = s.limbs := limbs_of_outsideEngine (outsideEngine_runBody s)

theorem runBody_w (s : State) : (runBody s).params.w = s.params.w :=
  eq_of_blanked (fun v : State => v.params.w) (outsideEngine_runBody s) fun _ => rfl

theorem runBody_radix (s : State) : (runBody s).radix = s.radix := eq_of_blanked State.radix (outsideEngine_runBody s) fun _ => rfl

/-- What FINAL publishes at the end of RUN. -/
theorem runBody_output (hs : s.Wf) (hc : s.Configured) :
    (runBody s).zbuf = resultZbuf s (s.redcValue s.limbs) ∧
      (runBody s).zhi = BitVec.ofNat 64 (s.redcValue s.limbs / s.radix ^ s.limbs) ∧
      ((runBody s).zovf = true ↔ s.redcValue s.limbs / s.radix ^ s.limbs ≠ 0) := by
  have hframe : (afterSteps s.limbs s).excess = s.excess ∧ (afterSteps s.limbs s).exceeds = s.exceeds ∧
      resultZbuf (afterSteps s.limbs s) = resultZbuf s :=
    ⟨afterSteps_frame State.excess (fun _ => rfl) _ s, afterSteps_frame State.exceeds (fun _ => rfl) _ s,
      afterSteps_frame resultZbuf (fun _ => rfl) _ s⟩
  obtain ⟨hexcess, hexceeds, hzbuf⟩ := hframe
  rw [runBody_eq, finalBody_eq, vacc_afterSteps hs hc le_rfl, hexcess, hexceeds, hzbuf, excess_eq_radix]
  exact ⟨rfl, rfl, exceeds_iff s _⟩

/-- Reading back the N digits that FINAL stored gives the value modulo r^N. -/
theorem valueOf_resultZbuf (hlen : s.limbs ≤ s.zbuf.length) (v : Nat) :
    valueOf s.params.w (limbOf s.limbs (resultZbuf s v)) s.limbs = v % s.radix ^ s.limbs := by
  rw [radix_pow, Nat.mul_comm, ← valueOf_digitOf]
  refine valueOf_congr fun g hg => ?_
  have hindex : s.limbs - 1 - (s.limbs - 1 - g) = g := by omega
  rw [limbOf, if_pos hg, wordAt_resultZbuf hlen, if_pos (by omega), hindex, digitOf_eq_radix]

/-- The host reads back the value that RUN computed, when the part above N limbs fits ZHI. -/
theorem result_runBody (hs : s.Wf) (hc : s.Configured) (hfit : s.redcValue s.limbs / s.radix ^ s.limbs < 2 ^ 64) :
    (runBody s).result = s.redcValue s.limbs := by
  have ⟨hp, _, _, _, _, _, _, _, _, ⟨hzlen, _⟩⟩ := hs
  obtain ⟨hzbuf, hzhi, -⟩ := runBody_output hs hc
  rw [State.result, runBody_limbs, runBody_radix, runBody_w, hzbuf, hzhi, valueOf_resultZbuf (hzlen ▸ limbs_le_nMax hp hc),
    BitVec.toNat_ofNat, Nat.mod_eq_of_lt hfit, Nat.div_add_mod']

/-- X = 0 adds nothing, so every quotient digit is 0 (43_sequences R194). -/
theorem redcValue_of_xval_eq_zero (hx : s.xval = 0) (i : Nat) : s.redcValue i = 0 := by
  induction i with
  | zero => rfl
  | succ i ih => simp [State.redcValue, ih, State.nextValue, State.quotient, hx]

/-! ## The Montgomery product (43_sequences R192, R193) -/

theorem limbY_lt_radix (hs : s.Wf) (g : Nat) : s.limbY g < s.radix := by
  obtain ⟨-, -, -, -, -, -, -, hy, -⟩ := hs
  exact limbOf_lt hy g

theorem mval_lt_radix_pow (hs : s.Wf) : s.mval < s.radix ^ s.limbs := by
  obtain ⟨-, -, -, -, -, -, -, -, hm, -⟩ := hs
  rw [radix_pow, Nat.mul_comm]
  exact valueOf_lt fun g _ => limbOf_lt hm g

/-- One iteration keeps a value below 2M: v + X · y + q · M < 2M + (r − 1) · M + (r − 1) · M. -/
theorem nextValue_lt (hminv : s.MinvCorrect) (hx : s.xval < s.mval) {v y : Nat} (hv : v < 2 * s.mval) (hy : y < s.radix) :
    s.nextValue v y < 2 * s.mval := by
  have hq : s.quotient v y < s.radix := Nat.mod_lt _ (radix_pos s)
  have hexact := nextValue_mul_radix hminv v y
  obtain ⟨m, hm⟩ : ∃ m, s.radix = m + 1 := ⟨s.radix - 1, by have := radix_pos s; omega⟩
  have hxy : s.xval * y ≤ s.mval * m := Nat.mul_le_mul hx.le (by omega)
  have hqm : s.quotient v y * s.mval ≤ m * s.mval := Nat.mul_le_mul_right _ (by omega)
  refine Nat.lt_of_mul_lt_mul_right (a := s.radix) ?_
  rw [hexact, hm]
  linarith

theorem redcValue_lt (hs : s.Wf) (hminv : s.MinvCorrect) (hx : s.xval < s.mval) (i : Nat) : s.redcValue i < 2 * s.mval := by
  induction i with
  | zero => rw [State.redcValue]; omega
  | succ i ih => exact nextValue_lt hminv hx ih (limbY_lt_radix hs i)

/-- After `i` iterations the value times r^i is X times the `i` low limbs of Y, modulo M. -/
theorem redcValue_modEq (hminv : s.MinvCorrect) (i : Nat) :
    s.redcValue i * s.radix ^ i ≡ s.xval * valueOf s.params.w s.limbY i [MOD s.mval] := by
  induction i with
  | zero => rw [State.redcValue, valueOf_zero, Nat.zero_mul, Nat.mul_zero]
  | succ i ih =>
    have hexact := nextValue_mul_radix hminv (s.redcValue i) (s.limbY i)
    calc s.redcValue (i + 1) * s.radix ^ (i + 1)
      _ = s.redcValue (i + 1) * s.radix * s.radix ^ i := by ring
      _ = s.redcValue i * s.radix ^ i + s.xval * (s.limbY i * s.radix ^ i)
          + s.mval * (s.quotient (s.redcValue i) (s.limbY i) * s.radix ^ i) := by rw [State.redcValue, hexact]; ring
      _ ≡ s.redcValue i * s.radix ^ i + s.xval * (s.limbY i * s.radix ^ i) [MOD s.mval] := Nat.add_mul_mod_self_left ..
      _ ≡ s.xval * valueOf s.params.w s.limbY i + s.xval * (s.limbY i * s.radix ^ i) [MOD s.mval] := ih.add_right _
      _ = s.xval * valueOf s.params.w s.limbY (i + 1) := by rw [valueOf_succ, radix_pow, Nat.mul_comm i, Nat.mul_add]

/-- The part of the value above N limbs is 0 or 1. -/
theorem redcValue_div_lt_two (hs : s.Wf) (hminv : s.MinvCorrect) (hx : s.xval < s.mval) :
    s.redcValue s.limbs / s.radix ^ s.limbs < 2 := by
  have hv := redcValue_lt hs hminv hx s.limbs
  have hm := mval_lt_radix_pow hs
  exact Nat.div_lt_of_lt_mul (by omega)

theorem result_runBody_of_ready (hs : s.Wf) (hc : s.Configured) (hready : s.ModulusReady) (hx : s.xval < s.mval) :
    (runBody s).result = s.redcValue s.limbs :=
  result_runBody hs hc ((redcValue_div_lt_two hs hready.2 hx).trans (by norm_num))

/-- 43_sequences R192, for any Y. -/
theorem result_runBody_modEq (hs : s.Wf) (hc : s.Configured) (hready : s.ModulusReady) (hx : s.xval < s.mval) :
    (runBody s).result * s.radix ^ s.limbs ≡ s.xval * s.yval [MOD s.mval] := by
  rw [result_runBody_of_ready hs hc hready hx]
  exact redcValue_modEq hready.2 s.limbs

/-- An odd modulus has no factor in common with a power of r. -/
theorem coprime_mval_radix_pow (h : s.mval % 2 = 1) (k : Nat) : Nat.gcd s.mval (s.radix ^ k) = 1 := by
  rw [radix_pow]
  exact (Nat.coprime_two_right.mpr (Nat.odd_iff.mpr h)).pow_right _

/-! ## RUN on any operands (43_sequences R186, R200) -/

theorem afterSteps_lane_of_active_le {g : Nat} (hg : s.active ≤ g) (i : Nat) : (afterSteps i s).lane g = 0 := by
  induction i with
  | zero => exact wordAt_replicate _ g
  | succ i ih => rw [afterSteps_succ, stepBody_lane_of_active_le ((afterSteps_active i s).trans_le hg), ih]

theorem runBody_lane_of_active_le {g : Nat} (hg : s.active ≤ g) : (runBody s).lane g = 0 := by
  rw [← afterSteps_lane_of_active_le hg s.limbs]
  exact wordAt_writeRange_of_stop_le 0 _ ((afterSteps_active _ s).trans_le hg)

theorem runBody_lane_lt {g : Nat} (hs : s.Wf) (hc : s.Configured) (hg : g < s.active) : (runBody s).lane g < s.radix := by
  obtain ⟨hp, -, -, -, -, ⟨hacc, -⟩, -⟩ := (unwrapped_afterSteps hs s.limbs).wf
  have hw : (afterSteps s.limbs s).params.w = s.params.w := afterSteps_frame (fun v => v.params.w) (fun _ => rfl) _ s
  rw [runBody_eq, lane_finalBody (hacc ▸ active_le_nMax hp (afterSteps_configured hc _)) ((afterSteps_active _ s).symm ▸ hg), hw]
  exact digitOf_lt _ _ _

theorem runBody_iter (s : State) : (runBody s).iter = s.n := BitVec.eq_of_toNat_eq (afterSteps_iter le_rfl)

theorem runBody_err (s : State) : (runBody s).err = .none := afterSteps_frame State.err (fun _ => rfl) s.limbs s

end Sys2Proof.Machine

namespace Sys2Proof.Proofs

open Sys2Proof Sys2Proof.Machine

/-- Settles O45: an induction over the iterations, each of which finds ITER below N. -/
theorem runIsItsCommands : Obligations.RunIsItsCommands := fun s hs hc =>
  ⟨runBody s, exec_run_of_configured hc, execAll_runOps hs hc⟩

/-- Settles O46: with the part above N limbs at most 1, the value read back is the one computed. -/
theorem runComputesTheMontgomeryProduct : Obligations.RunComputesTheMontgomeryProduct := by
  intro s hs hc hready hx _
  refine ⟨runBody s, exec_run_of_configured hc, result_runBody_modEq hs hc hready hx, fun hzovf => ?_⟩
  obtain ⟨-, hzhi, hiff⟩ := runBody_output hs hc
  have hzero : s.redcValue s.limbs / s.radix ^ s.limbs = 0 := by
    by_contra hne
    exact Bool.false_ne_true (hzovf.symm.trans (hiff.mpr hne))
  rw [State.result, hzhi, hzero, runBody_limbs, runBody_w, BitVec.toNat_ofNat, Nat.zero_mod, Nat.zero_mul, Nat.zero_add]

/-- Settles O47: the value stays below 2M, which is below 2R. -/
theorem runResultIsBelowTwiceTheModulus : Obligations.RunResultIsBelowTwiceTheModulus := by
  intro s hs hc hready hx
  have hlt := redcValue_lt hs hready.2 hx s.limbs
  obtain ⟨-, hzhi, hiff⟩ := runBody_output hs hc
  refine ⟨runBody s, exec_run_of_configured hc, (result_runBody_of_ready hs hc hready hx).trans_lt hlt, ?_⟩
  have htwo := redcValue_div_lt_two hs hready.2 hx
  have habove : s.redcValue s.limbs / s.radix ^ s.limbs ≠ 0 → s.radix ^ s.limbs < 2 * s.mval := fun hne =>
    (Nat.div_ne_zero_iff.mp hne).2.trans_lt hlt
  rw [hiff, hzhi]
  generalize s.redcValue s.limbs / s.radix ^ s.limbs = e at htwo habove
  interval_cases e
  · exact ⟨.inl rfl, by decide, fun h => absurd h (by decide)⟩
  · exact ⟨.inr rfl, by decide, fun _ => habove one_ne_zero⟩

/-- Settles O48: the value is 0 after every iteration. -/
theorem zeroOperandGivesZero : Obligations.ZeroOperandGivesZero := by
  intro s hs hc hx
  have ⟨hp, _, _, _, _, _, _, _, _, ⟨hzlen, _⟩⟩ := hs
  obtain ⟨hzbuf, hzhi, hiff⟩ := runBody_output hs hc
  rw [redcValue_of_xval_eq_zero hx] at hzbuf hzhi hiff
  rw [Nat.zero_div] at hzhi hiff
  refine ⟨runBody s, exec_run_of_configured hc, fun k hk => ?_, hzhi, ?_⟩
  · rw [hzbuf, wordAt_resultZbuf (hzlen ▸ limbs_le_nMax hp hc), if_pos hk, Nat.zero_div, Nat.zero_mod]
  · exact Bool.eq_false_iff.mpr fun h => hiff.mp h rfl

/-- Settles O49: the value after each iteration depends on the operands, not on the path. -/
theorem tiledAndSingleTilePathsAgree : Obligations.TiledAndSingleTilePathsAgree := by
  intro s hs hN hway
  have ⟨⟨_, _, _, hsMax, _⟩, _⟩ := hs
  have hsingle : State.Configured { s with tiled := false } := ⟨hN, fun _ => hway, by simp⟩
  have htiled : State.Configured { s with tiled := true } :=
    ⟨hN, by simp, fun _ => hway.trans (Nat.le_mul_of_pos_right _ hsMax)⟩
  have hvalue : ∀ i, State.redcValue { s with tiled := false } i = State.redcValue { s with tiled := true } i :=
    redcValue_congr rfl rfl
  obtain ⟨hz, hzhi, hzovf⟩ := runBody_output (s := { s with tiled := false }) hs hsingle
  obtain ⟨hz', hzhi', hzovf'⟩ := runBody_output (s := { s with tiled := true }) hs htiled
  rw [hvalue] at hz hzhi hzovf
  exact ⟨_, _, exec_run_of_configured hsingle, exec_run_of_configured htiled, hz.trans hz'.symm, hzhi.trans hzhi'.symm,
    Bool.eq_iff_iff.mpr (hzovf.trans hzovf'.symm)⟩

/-- Settles O51: the first RUN gives a · b · R modulo M, and the second divides by R, which has no factor in common with M. -/
theorem roundTripThroughMontgomeryForm : Obligations.RoundTripThroughMontgomeryForm := by
  intro s u t a b hs hc hready hx hy hu ht htc htready hmval hlimbs hradix htx hty
  obtain rfl := Host.Outcome.next.inj ((exec_run_of_configured hc).symm.trans hu)
  have hpos : 0 < s.mval := by have := hready.1; omega
  have hcoprime := coprime_mval_radix_pow hready.1 s.limbs
  have hfirst := result_runBody_modEq hs hc hready (hx ▸ Nat.mod_lt _ hpos)
  have hsecond := result_runBody_modEq ht htc htready (htx ▸ hmval.symm ▸ Nat.mod_lt _ hpos)
  rw [hmval, hlimbs, hradix, htx, hty, Nat.mul_one] at hsecond
  rw [hx, hy] at hfirst
  have hproduct : (runBody s).result ≡ a * b * s.radix ^ s.limbs [MOD s.mval] := by
    refine Nat.ModEq.cancel_right_of_coprime hcoprime (hfirst.trans ?_)
    calc a * s.radix ^ s.limbs % s.mval * (b * s.radix ^ s.limbs % s.mval)
      _ ≡ a * s.radix ^ s.limbs * (b * s.radix ^ s.limbs) [MOD s.mval] := (Nat.mod_modEq _ _).mul (Nat.mod_modEq _ _)
      _ = a * b * s.radix ^ s.limbs * s.radix ^ s.limbs := by ring
  exact ⟨runBody t, exec_run_of_configured htc,
    Nat.ModEq.cancel_right_of_coprime hcoprime ((hsecond.trans (Nat.mod_modEq _ _)).trans hproduct)⟩

/-- Settles O52: bounded lanes never wrap, ITER counts to N, and CLEAR's zeros stay above L. -/
theorem runCompletesOnAnyOperands : Obligations.RunCompletesOnAnyOperands := fun s hs hc =>
  ⟨runBody s, exec_run_of_configured hc, rfl, (unwrapped_runBody hs).ovf, runBody_err s, runBody_iter s,
    fun _ => runBody_lane_lt hs hc, fun _ => runBody_lane_of_active_le, fun _ => wordAt_commandBody_zbuf_of_le .run,
    eq_of_outsideEngine (outsideEngine_runBody s)⟩

end Sys2Proof.Proofs

/-! PROOFS. What RUN reads (43_sequences R196): two states with the same configuration and the same N limbs of each operand go through
the same lanes and registers. -/

namespace Sys2Proof.Machine

variable {s t : State} {g i : Nat} {limb : Nat → Nat} {digit : Nat}

/-- Two states that a digit iteration does not tell apart: the configuration, the limbs of the operands, the lanes and the registers of
the datapath are the same. S_MAX, and with it the length of the arrays, may differ. -/
structure State.Agrees (s t : State) : Prop where
  w : s.params.w = t.params.w
  way : s.params.way = t.params.way
  n : s.n = t.n
  tiled : s.tiled = t.tiled
  minv : s.minv = t.minv
  limbX : s.limbX = t.limbX
  limbY : s.limbY = t.limbY
  limbM : s.limbM = t.limbM
  lane : s.lane = t.lane
  q : s.q = t.q
  cy : s.cy = t.cy
  cq : s.cq = t.cq
  iter : s.iter = t.iter

namespace State.Agrees

theorem limbs (h : s.Agrees t) : s.limbs = t.limbs := congrArg BitVec.toNat h.n

theorem radix (h : s.Agrees t) : s.radix = t.radix := congrArg (2 ^ ·) h.w

theorem active (h : s.Agrees t) : s.active = t.active := by
  simp only [State.active, State.tiles, h.limbs, h.way, h.tiled]

theorem lane_eq (h : s.Agrees t) (g : Nat) : s.lane g = t.lane g := congrFun h.lane g

theorem vacc (h : s.Agrees t) : s.vacc = t.vacc := by
  rw [State.vacc, State.vacc, h.w, h.lane, h.active]

/-- Agreement after a write of ACC that gives the same lanes. -/
theorem setAcc (h : s.Agrees t) {ws ws' : Words} (hlane : ∀ g, wordAt ws g = wordAt ws' g) :
    (s.setAcc ws).Agrees (t.setAcc ws') :=
  { h with lane := funext hlane }

theorem macVector (h : s.Agrees t) (hs : s.active ≤ s.acc.length) (ht : t.active ≤ t.acc.length) :
    (macVector limb digit s.active s).Agrees (macVector limb digit t.active t) := by
  have hlane : ∀ g, (Machine.macVector limb digit s.active s).lane g = (Machine.macVector limb digit t.active t).lane g := fun g => by
    by_cases hg : g < s.active
    · rw [macVector_lane hs hg, macVector_lane ht (h.active ▸ hg), macSum, macSum, h.lane_eq, Params.lane, Params.lane, h.w]
    · rw [macVector_lane_of_le (by omega), macVector_lane_of_le (by rw [← h.active]; omega), h.lane_eq]
  exact { h.setAcc hlane with }

theorem pass (h : s.Agrees t) (c : ChainReg) (hs : s.active ≤ s.acc.length) (ht : t.active ≤ t.acc.length) :
    (c.pass s).Agrees (c.pass t) := by
  have hlane : ∀ g, wordAt (vectorAcc s s.active) g = wordAt (vectorAcc t t.active) g := fun g => by
    rw [wordAt_vectorAcc hs, wordAt_vectorAcc ht, State.overflowInto, State.overflowInto, h.active, h.lane, h.radix]
  have hout : s.lane (s.active - 1) / s.radix = t.lane (t.active - 1) / t.radix := by rw [h.active, h.lane, h.radix]
  cases c with
  | cy => exact { h.setAcc hlane with cy := hout }
  | cq => exact { h.setAcc hlane with cq := hout }

theorem addProduct (h : s.Agrees t) (c : ChainReg) (hs : s.active ≤ s.acc.length) (ht : t.active ≤ t.acc.length) :
    (addProduct c limb digit s).Agrees (addProduct c limb digit t) :=
  (h.macVector hs ht).pass c (hs.trans (length_writeRange _ _ _).ge) (ht.trans (length_writeRange _ _ _).ge)

theorem qgenBody (h : s.Agrees t) : (qgenBody s).Agrees (qgenBody t) := by
  have hdigit : s.lane 0 * s.minv % 2 ^ s.params.w = t.lane 0 * t.minv % 2 ^ t.params.w := by rw [h.lane, h.minv, h.w]
  exact { h with q := hdigit }

theorem shiftBody (h : s.Agrees t) (hs : s.active ≤ s.acc.length) (ht : t.active ≤ t.acc.length) :
    (shiftBody s).Agrees (shiftBody t) := by
  have hlane : ∀ g, wordAt (shiftAcc s) g = wordAt (shiftAcc t) g := fun g => by
    rw [wordAt_shiftAcc hs, wordAt_shiftAcc ht, h.active, h.lane, h.cy, h.cq]
  exact { h.setAcc hlane with iter := congrArg nextIter h.iter }

theorem addX (h : s.Agrees t) (hs : s.active ≤ s.acc.length) (ht : t.active ≤ t.acc.length) : (addX s).Agrees (addX t) := by
  rw [Machine.addX, Machine.addX, h.limbX, h.limbY, h.iter]
  exact h.addProduct .cy hs ht

theorem addM (h : s.Agrees t) (hs : s.active ≤ s.acc.length) (ht : t.active ≤ t.acc.length) : (addM s).Agrees (addM t) := by
  rw [Machine.addM, Machine.addM, h.limbM, h.q]
  exact h.addProduct .cq hs ht

end State.Agrees

/-- A digit iteration does not tell apart two states that agree. -/
theorem agrees_stepBody {k k' : Nat} (h : s.Agrees t) (hs : s.Iterating k) (ht : t.Iterating k') (hslen : s.active ≤ s.acc.length)
    (htlen : t.active ≤ t.acc.length) : (stepBody s).Agrees (stepBody t) := by
  have hlen : ∀ v : State, v.active ≤ v.acc.length →
      (qgenBody (addX v)).active ≤ (qgenBody (addX v)).acc.length ∧
        (addM (qgenBody (addX v))).active ≤ (addM (qgenBody (addX v))).acc.length := fun v hv => by
    have hX : (qgenBody (addX v)).active = v.active := active_of_outsideIteration (outsideIteration_addX v)
    have hM : (addM (qgenBody (addX v))).active = (qgenBody (addX v)).active :=
      active_of_outsideIteration (outsideIteration_addProduct .cq)
    have hXlen : (qgenBody (addX v)).acc.length = v.acc.length := length_addX
    rw [hM, hX, length_addM, hXlen]
    exact ⟨hv, hv⟩
  obtain ⟨hs₁, hs₂⟩ := hlen s hslen
  obtain ⟨ht₁, ht₂⟩ := hlen t htlen
  rw [stepBody_eq_passes hs, stepBody_eq_passes ht, passes_eq hs, passes_eq ht]
  exact ((h.addX hslen htlen).qgenBody.addM hs₁ ht₁).shiftBody hs₂ ht₂

/-- An operand has the same limbs in two buffers with the same first N words. -/
theorem limbOf_congr {limbs : Nat} {buf buf' : Words} (h : ∀ k < limbs, wordAt buf k = wordAt buf' k) :
    limbOf limbs buf = limbOf limbs buf' := funext fun g => by
  unfold limbOf
  split
  · exact h _ (by omega)
  · rfl

theorem afterSteps_active_le_length (hs : s.Wf) (hc : s.Configured) (i : Nat) :
    (afterSteps i s).active ≤ (afterSteps i s).acc.length := by
  obtain ⟨hp, -, -, -, -, ⟨hacc, -⟩, -⟩ := (unwrapped_afterSteps hs i).wf
  exact hacc ▸ active_le_nMax hp (afterSteps_configured hc i)

theorem agrees_afterSteps (hs : s.Wf) (ht : t.Wf) (hsc : s.Configured) (htc : t.Configured)
    (h : (clearBody s).Agrees (clearBody t)) (hi : i ≤ s.limbs) : (afterSteps i s).Agrees (afterSteps i t) := by
  induction i with
  | zero => exact h
  | succ i ih =>
    have hlimbs : s.limbs = t.limbs := h.limbs
    rw [afterSteps_succ, afterSteps_succ]
    exact agrees_stepBody (ih (by omega)) (afterSteps_iterating hs hsc hi) (afterSteps_iterating ht htc (hlimbs ▸ hi))
      (afterSteps_active_le_length hs hsc i) (afterSteps_active_le_length ht htc i)

/-- FINAL on states that agree: the same lanes, the same N words of ZBUF, the same ZHI and ZOVF. -/
theorem finalBody_congr (h : s.Agrees t) (hs : s.active ≤ s.acc.length) (ht : t.active ≤ t.acc.length)
    (hsz : s.limbs ≤ s.zbuf.length) (htz : t.limbs ≤ t.zbuf.length) :
    (finalBody s).Agrees (finalBody t) ∧ (∀ k < s.limbs, wordAt (finalBody s).zbuf k = wordAt (finalBody t).zbuf k) ∧
      (finalBody s).zhi = (finalBody t).zhi ∧ (finalBody s).zovf = (finalBody t).zovf := by
  have hlane : ∀ g, wordAt (canonicalAcc s s.vacc) g = wordAt (canonicalAcc t t.vacc) g := fun g => by
    rw [wordAt_canonicalAcc hs, wordAt_canonicalAcc ht, h.vacc, h.active, h.radix, h.lane]
  have hexcess : s.excess s.vacc = t.excess t.vacc := by rw [excess_eq_radix, excess_eq_radix, h.vacc, h.radix, h.limbs]
  refine ⟨{ h.setAcc hlane with }, fun k hk => ?_, congrArg (BitVec.ofNat 64) hexcess, congrArg (fun e => decide (e ≠ 0)) hexcess⟩
  rw [finalBody_eq, finalBody_eq, wordAt_resultZbuf hsz, wordAt_resultZbuf htz, if_pos hk, if_pos (h.limbs ▸ hk), h.vacc, h.radix,
    h.limbs]

end Sys2Proof.Machine

namespace Sys2Proof.Proofs

open Sys2Proof Sys2Proof.Machine

/-- Settles O50: after CLEAR the two states agree, each digit iteration keeps that, and FINAL publishes the same. -/
theorem runDependsOnItsOperandsAlone : Obligations.RunDependsOnItsOperandsAlone := by
  intro s t hs ht hsc htc hw hway hn htiled hminv hbufs
  have hlimbs : s.limbs = t.limbs := congrArg BitVec.toNat hn
  have hlimb : ∀ {buf buf' : Words}, (∀ k < s.limbs, wordAt buf k = wordAt buf' k) → limbOf s.limbs buf = limbOf t.limbs buf' :=
    fun h => hlimbs ▸ limbOf_congr h
  have hx : s.limbX = t.limbX := hlimb fun k hk => let ⟨h, _, _⟩ := hbufs k hk; h
  have hy : s.limbY = t.limbY := hlimb fun k hk => let ⟨_, h, _⟩ := hbufs k hk; h
  have hm : s.limbM = t.limbM := hlimb fun k hk => let ⟨_, _, h⟩ := hbufs k hk; h
  have hclear : (clearBody s).Agrees (clearBody t) :=
    { w := hw, way := hway, n := hn, tiled := htiled, minv := hminv, q := rfl, cy := rfl, cq := rfl, iter := rfl
      limbX := hx, limbY := hy, limbM := hm
      lane := funext fun g => (wordAt_replicate _ g).trans (wordAt_replicate _ g).symm }
  have hsteps := agrees_afterSteps hs ht hsc htc hclear le_rfl
  have hz : ∀ {v : State}, v.Wf → v.Configured → (afterSteps s.limbs v).limbs ≤ (afterSteps s.limbs v).zbuf.length :=
    fun hv hc => by
      obtain ⟨hp, -, -, -, -, -, -, -, -, ⟨hzlen, -⟩⟩ := (unwrapped_afterSteps hv s.limbs).wf
      exact hzlen ▸ limbs_le_nMax hp (afterSteps_configured hc _)
  obtain ⟨hfinal, hzbuf, hzhi, hzovf⟩ := finalBody_congr hsteps (afterSteps_active_le_length hs hsc _)
    (afterSteps_active_le_length ht htc _) (hz hs hsc) (hz ht htc)
  rw [afterSteps_limbs] at hzbuf
  refine ⟨runBody s, runBody t, exec_run_of_configured hsc, exec_run_of_configured htc, ?_⟩
  rw [runBody_eq, runBody_eq, ← hlimbs]
  exact ⟨hzbuf, hzhi, hzovf, hfinal.lane_eq, hfinal.q, hfinal.cy, hfinal.cq, hfinal.iter⟩

end Sys2Proof.Proofs

/-! PROOFS. The exceptions (60_exceptions): which agent moves and what its step leaves to the other, the check that decides a command's
code, and that a failure writes nothing else. -/

namespace Sys2Proof.Machine

variable {s u : State} {w : CmdWord} {i : Instr} {it : HostItem} {e : ErrorCode}

/-! ## The HOST's turn (60_exceptions R211) -/

theorem step_idle {rest : List HostItem} (hp : s.pend = none) (hh : s.host = it :: rest) :
    step s = hostItemStep it (s.setHost rest) := by
  rw [step_eq_agentStep, agentStep, hp, hh]

/-- With a command pending and a draw that lets one more read of STATUS pass, the HOST performs that read. -/
theorem step_statusRead {rest : List HostItem} (hp : s.pend = some w) (hstall : s.stall ≠ 0) (hh : s.host = it :: rest)
    (hread : readsStatus it = true) : step s = hostItemStep it (s.letPass.setHost rest) := by
  have hfirst : hostFirst s it = true := by rw [hostFirst, hread, decide_eq_true hstall, Bool.and_self]
  rw [step_eq_agentStep, agentStep, hp, hh]
  exact if_pos hfirst

/-- A transaction that is not held is performed and leaves the rest of the program. -/
theorem exec_unheld_host (hi : i.isCommand = false) (h : s.pend = none ∨ i = .rd addrStatus) :
    ∃ u, exec i s = .next u ∧ u.host = s.host := by
  cases i with
  | rd a => exact ⟨_, exec_rd (h.imp_right Instr.rd.inj), rfl⟩
  | wr a d =>
    have hp : s.pend = none := h.resolve_right nofun
    obtain ⟨-, -, -, -, -, -, -, -, -, -, -, -, hhost, -⟩ := writeTarget_engine (s := s) (d := d) (decodeAddr s.params a)
    exact ⟨_, exec_wr hp rfl d, hhost⟩
  | nop | clear | macy | cpy | qgen | macq | cpq | shift | step | final | run => contradiction

theorem bindAfter_host (name : Option String) (i : Instr) (s : State) : (bindAfter name i s).host = s.host := by
  cases i <;> rfl

theorem hostItemStep_txn_host (name : Option String) {t : BusWord} (h : s.pend = none ∨ decodeBus t = .rd addrStatus) :
    ∃ u, hostItemStep (.txn name t) s = .next u ∧ u.host = s.host := by
  obtain ⟨u, hu, hhost⟩ := exec_unheld_host (decodeBus_isCommand t) h
  exact ⟨_, mapNext_eq_next.mpr ⟨u, hu, rfl⟩, (bindAfter_host name _ u).trans hhost⟩

/-- A read of STATUS lets the pending command and the schedule be; a WAIT may stay first in the program. -/
theorem hostItemStep_statusRead (hread : readsStatus it = true) (s : State) :
    ∃ u, hostItemStep it s = .next u ∧ u.pend = s.pend ∧ u.stall = s.stall ∧ (u.host = it :: s.host ∨ u.host = s.host) := by
  have hexec : exec (.rd addrStatus) s = .next (s.respond (readValue s addrStatus)) := execRd_status
  cases it with
  | txn name t =>
    rw [hostItemStep, of_decide_eq_true hread, hexec]
    exact ⟨_, rfl, rfl, rfl, .inr rfl⟩
  | wait =>
    rw [hostItemStep, hexec, mapNext_next, waitAgain]
    split
    · exact ⟨_, rfl, rfl, rfl, .inl rfl⟩
    · exact ⟨_, rfl, rfl, rfl, .inr rfl⟩

/-- An item that is not held leaves the program after it as it is, and may itself stay first. -/
theorem hostItemStep_host (h : s.pend = none ∨ readsStatus it = true) (hu : hostItemStep it s = .next u) :
    u.host = it :: s.host ∨ u.host = s.host := by
  cases it with
  | txn name t =>
    obtain ⟨v, hv, hhost⟩ := hostItemStep_txn_host name (h.imp_right of_decide_eq_true)
    obtain rfl := Host.Outcome.next.inj (hv.symm.trans hu)
    exact .inr hhost
  | wait =>
    obtain ⟨v, hv, -, -, hhost⟩ := hostItemStep_statusRead (it := .wait) rfl s
    obtain rfl := Host.Outcome.next.inj (hv.symm.trans hu)
    exact hhost

/-! ## The ENGINE's turn (60_exceptions R210) -/

/-- The ENGINE's step retires the command and writes nothing else outside the registers of the ENGINE. -/
theorem outsideEngine_engineStep (h : engineStep w s = .next u) : u.outsideEngine = s.retire.outsideEngine := by
  obtain ⟨e, -, rfl⟩ | ⟨i, v, hw, hv, rfl⟩ := engineStep_cases h
  · rfl
  · obtain ⟨e, rfl⟩ | rfl := exec_command_cases (decodeCommand_isCommand hw) hv
    · rfl
    · exact eq_of_blanked (fun v => v.retire.outsideEngine) (outsideEngine_commandBody i s) fun _ => rfl

theorem engineStep_host (h : engineStep w s = .next u) : u.host = s.host :=
  eq_of_blanked (s := s.retire) State.host (outsideEngine_engineStep h) fun _ => rfl

theorem engineStep_binds (h : engineStep w s = .next u) : u.binds = s.binds :=
  eq_of_blanked (s := s.retire) State.binds (outsideEngine_engineStep h) fun _ => rfl

/-- When it is the ENGINE's turn one step executes the pending command. -/
theorem run_one_of_engineTurn (hp : s.pend = some w)
    (hturn : s.stall = 0 ∨ ∀ it rest, s.host = it :: rest → readsStatus it = false) :
    ∃ u, Host.Core.run core 1 s = .next u ∧ u.pend = none := by
  obtain ⟨u, hu, hpu, -⟩ := engineStep_completes w s
  exact ⟨u, run_succ_of_step 0 ((step_engine_of_turn hp hturn).trans hu), hpu⟩

/-- A pending command is executed after at most the reads of STATUS its draw lets pass, and one step more. -/
theorem run_executes_pending (hp : s.pend = some w) :
    ∃ k u, k ≤ s.stall + 1 ∧ Host.Core.run core k s = .next u ∧ u.pend = none := by
  induction hn : s.stall generalizing s with
  | zero => exact ⟨1, (run_one_of_engineTurn hp (.inl hn)).imp fun _ => .intro le_rfl⟩
  | succ n ih =>
    by_cases hhost : ∀ it rest, s.host = it :: rest → readsStatus it = false
    · exact ⟨1, (run_one_of_engineTurn hp (.inr hhost)).imp fun _ => .intro (by omega)⟩
    · push Not at hhost
      obtain ⟨it, rest, hh, hread⟩ := hhost
      have hread : readsStatus it = true := Bool.eq_true_of_not_eq_false hread
      obtain ⟨v, hv, hpv, hstall, -⟩ := hostItemStep_statusRead hread (s.letPass.setHost rest)
      have hstep : step s = .next v := (step_statusRead hp (by omega) hh hread).trans hv
      have hstall : v.stall = n := by rw [hstall, State.setHost_stall, State.letPass_stall, hn, Nat.add_sub_cancel]
      obtain ⟨k, u, hk, hu, hpu⟩ := ih (hpv.trans hp) hstall
      exact ⟨k + 1, u, by omega, (run_succ_of_step k hstep).trans hu, hpu⟩

/-! ## The check that gives the code (60_exceptions R214 to R217) -/

theorem checkConfig_of_capacity (hN : 0 < s.limbs) (hc : ¬ s.Configured) : checkConfig s = some .capacity := by
  have hfails := mt checkConfig_eq_none.mp hc
  rw [checkConfig, if_neg hN.ne'] at hfails ⊢
  split_ifs with huntiled htiled
  · rfl
  · rfl
  · exact absurd (by rw [if_neg huntiled, if_neg htiled]) hfails

theorem exec_of_fails (h : firstError (commandChecks i) s = some e) : exec i s = .next (s.raise e) := by
  cases i with
  | rd | wr | nop | clear | qgen => contradiction
  | macy | cpy | macq | cpq | shift | step | final | run => exact congrArg _ (command_of_fails h)

/-- Every command that reads CTRL checks the configuration before anything else. -/
theorem commandChecks_config (t : Nat) :
    ∀ i ∈ [Instr.macy t, .cpy t, .macq t, .cpq t, .shift, .step, .final, .run],
      ∃ rest, commandChecks i = checkConfig :: rest := by
  simp [commandChecks]

/-- Every command of a tile checks its tile index right after the configuration. -/
theorem commandChecks_tile (t : Nat) :
    ∀ i ∈ [Instr.macy t, .cpy t, .macq t, .cpq t], ∃ rest, commandChecks i = checkConfig :: checkTile t :: rest := by
  simp [commandChecks]

theorem exec_of_config_fails (t : Nat) (h : checkConfig s = some e) :
    ∀ i ∈ [Instr.macy t, .cpy t, .macq t, .cpq t, .shift, .step, .final, .run], exec i s = .next (s.raise e) := fun i hi => by
  obtain ⟨rest, hchecks⟩ := commandChecks_config t i hi
  exact exec_of_fails (by rw [hchecks, firstError_cons, h, Option.some_or])

theorem exec_of_tile_fails {t : Nat} (hc : s.Configured) (ht : s.tiles ≤ t) :
    ∀ i ∈ [Instr.macy t, .cpy t, .macq t, .cpq t], exec i s = .next (s.raise .tileRange) := fun i hi => by
  obtain ⟨rest, hchecks⟩ := commandChecks_tile t i hi
  have htile : checkTile t s = some .tileRange := if_pos ht
  exact exec_of_fails (by
    rw [hchecks, firstError_cons, checkConfig_eq_none.mpr hc, firstError_cons, htile, Option.none_or, Option.some_or])

/-! ## What a body leaves in STATUS.ERR -/

/-- Only CLEAR and RUN write STATUS.ERR once the checks have passed. -/
theorem commandBody_err (hc : i ≠ .clear) (hr : i ≠ .run) (s : State) : (commandBody i s).err = s.err := by
  by_cases hf : i = .final
  · subst hf
    rfl
  · exact eq_of_blanked State.err (outsideIteration_commandBody hc hf hr s) fun _ => rfl

theorem commandBody_err_cases (i : Instr) (s : State) : (commandBody i s).err = s.err ∨ (commandBody i s).err = .none := by
  by_cases hc : i = .clear
  · subst hc
    exact .inr rfl
  · by_cases hr : i = .run
    · subst hr
      exact .inr (runBody_err s)
    · exact .inl (commandBody_err hc hr s)

/-- A command other than CLEAR and RUN whose checks pass completes with the code as it was. -/
theorem exec_keeps_err (hi : i.isCommand = true) (hc : i ≠ .clear) (hr : i ≠ .run)
    (h : firstError (commandChecks i) s = none) : ∃ u, exec i s = .next u ∧ u.err = s.err :=
  ⟨_, exec_of_passes hi h, commandBody_err hc hr s⟩

end Sys2Proof.Machine

namespace Sys2Proof.Proofs

open Sys2Proof Sys2Proof.Machine

/-- Settles O7: whose turn it is decides the step; what the agent then does is its own step, on the decoded instruction. -/
theorem stepRunsTheDecodedInstruction : Obligations.StepRunsTheDecodedInstruction := by
  refine fun s => ⟨fun w i hp hw hturn => ?engine, fun name t rest => step_idle, fun rest => step_idle,
    fun w name t rest hp hstall hh ht => ?read, fun w rest hp hstall hh => step_statusRead hp hstall hh rfl⟩
  case engine => rw [step_engine_of_turn hp hturn, engineStep_of_ok hw]
  case read => rw [step_statusRead hp hstall hh (decide_eq_true ht), hostItemStep, ht]

/-- Settles O8: the ENGINE's step retires the command and keeps the program; an item that is not held leaves the program after it. -/
theorem heldTransactionsWait : Obligations.HeldTransactionsWait := by
  refine fun s => ⟨fun w name t rest hp hh ht => ?held, fun name t rest hp hh => ?performed, fun u hu => ?order⟩
  case held =>
    have hturn : ∀ it more, s.host = it :: more → readsStatus it = false := fun it more h => by
      obtain ⟨rfl, -⟩ := List.cons.inj (hh.symm.trans h)
      exact readsStatus_txn ht name
    obtain ⟨u, hu, hpu, hhost, hreads⟩ := engineStep_completes w s
    exact ⟨u, (step_engine_of_turn hp (.inr hturn)).trans hu, hpu, hhost, hreads, engineStep_binds hu⟩
  case performed =>
    obtain ⟨u, hu, hhost⟩ := hostItemStep_txn_host (s := s.setHost rest) name (t := t) (.inl hp)
    exact ⟨u, (step_idle hp hh).trans hu, hhost⟩
  case order =>
    obtain ⟨-, -, rfl⟩ | ⟨it, rest, hp, hh, hit⟩ | ⟨w, it, rest, -, hh, hread, -, hit⟩ | ⟨w, -, -, hw⟩ := step_cases hu
    · exact .inl rfl
    · have hhost : u.host = it :: rest ∨ u.host = rest := hostItemStep_host (s := s.setHost rest) (.inl hp) hit
      exact hh ▸ hhost.imp_right fun h => ⟨it, by rw [h]⟩
    · have hhost : u.host = it :: rest ∨ u.host = rest := hostItemStep_host (.inr hread) hit
      exact hh ▸ hhost.imp_right fun h => ⟨it, by rw [h]⟩
    · exact .inl (engineStep_host hw)

/-- Settles O9, by induction on the reads of STATUS that the draw still lets pass. -/
theorem pendingCommandIsExecuted : Obligations.PendingCommandIsExecuted := fun _ _ => run_executes_pending

/-- Settles O20: the lists of checks, in their order, decide each case; a body that runs keeps ERR, but CLEAR's and RUN's. -/
theorem firstFailingCheckGivesTheCode : Obligations.FirstFailingCheckGivesTheCode := by
  intro s t
  obtain ⟨-, hillegal⟩ := illegalWordsRaiseIllegal
  refine ⟨hillegal s, fun hN => ?nZero, fun hN hc => ?capacity, fun hc ht => ?tileRange, fun hc ht hiter => ?macyIterRange,
    fun hc hiter => ?stepIterRange, ?unchecked, ?clear, fun hc => ?configPasses, fun hc => ?run, fun hc ht => ?tilePasses,
    fun hc hiter => ⟨?stepPasses, fun ht => ?macyPasses⟩⟩
  case nZero => exact exec_of_config_fails t (if_pos hN)
  case capacity => exact exec_of_config_fails t (checkConfig_of_capacity hN hc)
  case tileRange => exact exec_of_tile_fails hc ht
  case macyIterRange =>
    exact exec_of_fails (by simp [commandChecks, checkConfig_eq_none.mpr hc, checkTile_eq_none.mpr ht, checkIter, hiter])
  case stepIterRange => exact exec_of_fails (by simp [commandChecks, checkConfig_eq_none.mpr hc, checkIter, hiter])
  case unchecked =>
    simp only [List.forall_mem_cons]
    exact ⟨exec_keeps_err rfl nofun nofun rfl, exec_keeps_err rfl nofun nofun rfl, List.forall_mem_nil _⟩
  case clear => exact ⟨clearBody s, exec_of_passes rfl rfl, rfl⟩
  case configPasses =>
    have hpass : firstError [checkConfig] s = none := by simp [checkConfig_eq_none.mpr hc]
    simp only [List.forall_mem_cons]
    exact ⟨exec_keeps_err rfl nofun nofun hpass, exec_keeps_err rfl nofun nofun hpass, List.forall_mem_nil _⟩
  case run => exact ⟨runBody s, exec_run_of_configured hc, runBody_err s⟩
  case tilePasses =>
    have hpass : firstError [checkConfig, checkTile t] s = none := by
      simp [checkConfig_eq_none.mpr hc, checkTile_eq_none.mpr ht]
    simp only [List.forall_mem_cons]
    exact ⟨exec_keeps_err rfl nofun nofun hpass, exec_keeps_err rfl nofun nofun hpass, exec_keeps_err rfl nofun nofun hpass,
      List.forall_mem_nil _⟩
  case stepPasses => exact ⟨stepBody s, exec_step_of_configured hc hiter, commandBody_err (i := .step) nofun nofun s⟩
  case macyPasses => exact ⟨macyBody t s, exec_macy_of_configured hc ht hiter, rfl⟩

/-- Settles O22: a bus transaction leaves ERR alone, a failed command writes nothing else, and a body leaves no new code. -/
theorem failedCommandsArePrecise : Obligations.FailedCommandsArePrecise := by
  intro i s u hu hcode hnew
  cases hi : i.isCommand with
  | false =>
    obtain ⟨herr, -⟩ := exec_bus_status hi hu
    exact absurd herr hnew
  | true =>
    obtain ⟨e, rfl⟩ | rfl := exec_command_cases hi hu
    · rfl
    · obtain hsame | hnone := commandBody_err_cases i s
      · exact absurd hsame hnew
      · exact absurd hnone hcode

end Sys2Proof.Proofs

/-! PROOFS. The reset event on any state (70_reset_and_hazards): PEND, STATUS and the block it leaves. -/

namespace Sys2Proof.Machine

/-! ## The reset event (70_reset_and_hazards R230) -/

@[simp] theorem State.resetEvent_pend (s : State) (draw : Nat → Nat) : (s.resetEvent draw).pend = none := rfl

/-- STATUS does not depend on what the reset event keeps of the agents' bookkeeping. -/
@[simp] theorem State.resetEvent_statusWord (s : State) (draw : Nat → Nat) : (s.resetEvent draw).statusWord = 0 :=
  calc (s.resetEvent draw).statusWord
    _ = (State.resetWith s.params draw).statusWord := rfl
    _ = 0 := statusWord_resetWith s.params draw

/-- The bookkeeping of the agents is all that tells the reset event from the block right after reset. -/
theorem State.resetEvent_block (s : State) (draw : Nat → Nat) :
    { s.resetEvent draw with host := [], reads := [], binds := [], sched := [], draws := 0 } =
      State.resetWith s.params draw := rfl

end Sys2Proof.Machine

namespace Sys2Proof.Proofs

open Sys2Proof Sys2Proof.Machine

/-- Settles O59: PEND and STATUS take their reset values, and so does every other field of the block. -/
theorem resetDiscardsThePendingCommand : Obligations.ResetDiscardsThePendingCommand := fun s draw =>
  ⟨s.resetEvent_pend draw, s.resetEvent_statusWord draw, s.resetEvent_block draw⟩

end Sys2Proof.Proofs

/-! PROOFS. No step stops the block (93_implementation_defined): the step of each agent completes, and so does the idle step. -/

namespace Sys2Proof.Machine

/-- The HOST's step completes on every item, performed or held: no bus transaction stops, and a WAIT is a read of STATUS. -/
theorem hostItemStep_completes (it : HostItem) (s : State) : ∃ u, hostItemStep it s = .next u := by
  cases it with
  | txn name t =>
    obtain ⟨u, hu⟩ := exec_bus_completes (decodeBus_isCommand t) s
    exact ⟨_, mapNext_eq_next.mpr ⟨u, hu, rfl⟩⟩
  | wait => exact (hostItemStep_statusRead (it := .wait) rfl s).imp fun _ => And.left

/-- Whichever agent moves, its step completes. -/
theorem agentStep_completes (s : State) : ∃ u, agentStep s = .next u := by
  have hengine (w : CmdWord) : ∃ u, engineStep w s = .next u := (engineStep_completes w s).imp fun _ => And.left
  unfold agentStep
  split
  · exact ⟨s, rfl⟩
  · next it rest _ _ => exact hostItemStep_completes it (s.setHost rest)
  · next w _ _ => exact hengine w
  · next w it rest _ _ =>
    split
    · exact hostItemStep_completes it (s.letPass.setHost rest)
    · exact hengine w

end Sys2Proof.Machine

namespace Sys2Proof.Proofs

open Sys2Proof Sys2Proof.Machine

/-- Settles O11: a step is the step of one agent, or idle, and each of them completes. -/
theorem everyStepCompletes : Obligations.EveryStepCompletes := fun s => by
  rw [step_eq_agentStep]
  exact agentStep_completes s

end Sys2Proof.Proofs
